-- ==== Sys2Proof/Word.lean ====
section
/-! DEFINITION. The word types of the device (10_state.md section 7; 30_encoding.md R91). -/

namespace Sys2Proof

/-- One input symbol, one stream byte (00_scope.md R7, SYM_W = 8). -/
abbrev Byte := BitVec 8

/-- A command word CW (30_encoding.md R91). -/
abbrev CmdWord := BitVec 16

/-- The width of Lower, Range, Value and of the bit-buffer words (00_scope.md R7, CODE_W = WORD_W = 32). -/
abbrev Word32 := BitVec 32

/-- The width of total_symbols, the counts, the counters and a status register (00_scope.md R7, R8; 10_state.md R39). -/
abbrev Word64 := BitVec 64

end Sys2Proof
end

