-- ==== Sys2Proof/Config.lean ====
section
/-! DEFINITION. The constants of the engine (00_scope.md R7, R8). The spec leaves no value open
(45_system.md R230: the device draws no value of its own), so there is no free value here. -/

namespace Sys2Proof.Config

/-- FULL_MAX = 2^32, the size of the full addressable range. -/
abbrev fullMax : Nat := 4294967296

/-- HALF_MAX = 2^31, the midpoint. -/
abbrev halfMax : Nat := 2147483648

/-- QUARTER_MAX = 2^30. -/
abbrev quarterMax : Nat := 1073741824

/-- 2^64 - 1, the largest value of TOTAL and of ENC_PEND (R8, PEND_W = 64). -/
abbrev counterMax : Nat := 18446744073709551615

/-- ALPHA_MAX = 256, the most entries a table can hold. -/
abbrev alphaMax : Nat := 256

/-- TRAILER_BITS = 8. -/
abbrev trailerBits : Nat := 8

/-- The largest number of renormalisation passes of one command (42_interval.md R176, R295). -/
abbrev maxPasses : Nat := 31

/-- INIT_LOWER = 0. -/
abbrev initLower : Word32 := 0#32

/-- INIT_RANGE = HALF_MAX. -/
abbrev initRange : Word32 := 0x80000000#32

/-- The number of the last status register, SR13 (10_state.md R39). -/
abbrev lastStatusRegister : Nat := 13

end Sys2Proof.Config
end

