-- ==== Sys2Proof/Syntax.lean ====
section
/-! DEFINITION. The commands (30_encoding.md R92), one constructor per row of the opcode table. -/

namespace Sys2Proof

/-- A host command (30_encoding.md R92, R93). The operand is the raw 8-bit field CW[7:0]. -/
inductive Instr where
  | reset
  | rdsr (n : Byte)
  | ftClear
  | ftCount (sym : Byte)
  | ftBuild
  | ftSer
  | ftDes
  | encInit
  | encSym (sym : Byte)
  | encFin
  | decInit
  | decSym
deriving DecidableEq, Repr

end Sys2Proof
end

