-- ==== Sys2Proof/WellFormed.lean ====
section
/-! DEFINITION. Which commands are legal (30_encoding.md R95). The other two conditions of R95 (a known
opcode, a zero operand field where no operand is taken) cannot be broken by a term of `Instr`. -/

namespace Sys2Proof

/-- R95 (c): RDSR takes a status-register number 0 to 13. Every other command takes any operand it has. -/
def Instr.wellFormed : Instr → Bool
  | .reset => true
  | .rdsr n => n.toNat ≤ Config.lastStatusRegister
  | .ftClear => true
  | .ftCount _ => true
  | .ftBuild => true
  | .ftSer => true
  | .ftDes => true
  | .encInit => true
  | .encSym _ => true
  | .encFin => true
  | .decInit => true
  | .decSym => true

end Sys2Proof
end

