-- ==== Sys2Proof/Decode.lean ====
section
/-! DEFINITION. Decoding and encoding of command words (30_encoding.md R91 to R95). -/

namespace Sys2Proof

/-- Why a word spells no command (30_encoding.md R95). All three are answered ERR_ILLEGAL. -/
inductive Illegal where
  /-- R95 (a): one of the 244 unused opcodes. -/
  | unusedOpcode (op : Byte)
  /-- R95 (b): a command that takes no operand, with CW[7:0] not 0. -/
  | operandNotZero (op operand : Byte)
  /-- R95 (c): RDSR of a register number above 13. -/
  | noSuchRegister (n : Byte)
deriving DecidableEq, Repr

/-- CW[15:8] (R91). -/
def opcodeField (w : CmdWord) : Byte := w.extractLsb' 8 8

/-- CW[7:0] (R91, R93). -/
def operandField (w : CmdWord) : Byte := w.extractLsb' 0 8

/-- A command that takes no operand is spelled with a zero operand field (R95 (b)). -/
def withoutOperand (w : CmdWord) (i : Instr) : Except Illegal Instr :=
  if operandField w = 0#8 then .ok i else .error (.operandNotZero (opcodeField w) (operandField w))

/-- RDSR's operand is a register number 0 to 13 (R95 (c)). -/
def withRegister (w : CmdWord) : Except Illegal Instr :=
  if (operandField w).toNat ≤ Config.lastStatusRegister then .ok (.rdsr (operandField w))
  else .error (.noSuchRegister (operandField w))

/-- The command a word spells, or the reason it spells none (R92, R95). Total on all 65536 words. -/
def decode (w : CmdWord) : Except Illegal Instr :=
  if opcodeField w = 0x01#8 then withoutOperand w .reset
  else if opcodeField w = 0x02#8 then withRegister w
  else if opcodeField w = 0x10#8 then withoutOperand w .ftClear
  else if opcodeField w = 0x11#8 then .ok (.ftCount (operandField w))
  else if opcodeField w = 0x12#8 then withoutOperand w .ftBuild
  else if opcodeField w = 0x13#8 then withoutOperand w .ftSer
  else if opcodeField w = 0x14#8 then withoutOperand w .ftDes
  else if opcodeField w = 0x20#8 then withoutOperand w .encInit
  else if opcodeField w = 0x21#8 then .ok (.encSym (operandField w))
  else if opcodeField w = 0x22#8 then withoutOperand w .encFin
  else if opcodeField w = 0x30#8 then withoutOperand w .decInit
  else if opcodeField w = 0x31#8 then withoutOperand w .decSym
  else .error (.unusedOpcode (opcodeField w))

/-- The word that spells a command (R92). -/
def encode : Instr → CmdWord
  | .reset => 0x0100#16
  | .rdsr n => 0x02#8 ++ n
  | .ftClear => 0x1000#16
  | .ftCount sym => 0x11#8 ++ sym
  | .ftBuild => 0x1200#16
  | .ftSer => 0x1300#16
  | .ftDes => 0x1400#16
  | .encInit => 0x2000#16
  | .encSym sym => 0x21#8 ++ sym
  | .encFin => 0x2200#16
  | .decInit => 0x3000#16
  | .decSym => 0x3100#16

/-- The command word whose bits are the low `nbits` bits of `w`, bit 0 being CW[0] (opcode_table.json). A
number that does not fit the 16 bits of a command word is no command word. -/
def tableWord (nbits w : Nat) : Option CmdWord :=
  if w % 2 ^ nbits < 2 ^ 16 then some (BitVec.ofNat 16 (w % 2 ^ nbits)) else none

/-- What the decoder reads from an instruction word numbered as opcode_table.json numbers it (R90: there is
one format and one length, and the host presents the 16-bit word itself, so no byte order enters). -/
def decodeTableWord (nbits w : Nat) : Option Instr :=
  match tableWord nbits w with
  | none => none
  | some cw => (decode cw).toOption

end Sys2Proof
end

