-- ==== Sys2Proof/Machine/State.lean ====
section
/-! DEFINITION. The state of the device (10_state.md), the ports it is attached to, the reasons a step can stop,
and the state after reset (70_reset_and_hazards.md R280). -/

namespace Sys2Proof.Machine

/-- PHASE (10_state.md R20). The codes 5 and 8 to 14 are written by no rule, so the type has no such value
(93_implementation_defined.md item 23; log 5). -/
inductive Phase where
  | idle | counting | built | hdrOut | encoding | loaded | decoding | fault
deriving DecidableEq, Repr

/-- The fault causes (60_exceptions.md R251), in the table's order. NONE (0x00) is the absence of a cause. -/
inductive Cause where
  | hdrTruncated | hdrAlphaRange | hdrZeroCount | hdrDupSymbol | hdrSumMismatch
  | symNotInTable | noCdfMatch | zeroRange | counterOverflow
  | ioSink | ioSource
deriving DecidableEq, Repr

/-- One table entry: TAB_SYM[i], TAB_CNT[i], TAB_LOW[i], TAB_HIGH[i] (10_state.md R37; log 6). -/
structure TabEntry where
  sym  : Byte
  cnt  : Word64
  low  : Word64
  high : Word64
deriving DecidableEq, Repr

/-- An entry with all four fields 0, the reset content of the table arrays (R280). -/
def TabEntry.zero : TabEntry := ⟨0#8, 0#64, 0#64, 0#64⟩

/-- The state of frequency_table_cdf (10_state.md R31, R34 to R37). -/
structure FreqTable where
  cnt      : Vector Word64 256    -- CNT
  ord      : Vector Byte 256      -- ORD
  nseen    : BitVec 9             -- NSEEN
  total    : Word64               -- TOTAL
  tabN     : BitVec 9             -- TAB_N
  tab      : Vector TabEntry 256  -- TAB_SYM, TAB_CNT, TAB_LOW, TAB_HIGH
  tabValid : Bool                 -- TAB_VALID
deriving DecidableEq, Repr

/-- The registers of the encoder and its bit buffer (10_state.md R22, R24, R27, R28). -/
structure Encoder where
  lower : Word32    -- ENC_LOWER
  range : Word32    -- ENC_RANGE
  pend  : Word64    -- ENC_PEND
  count : Word64    -- ENC_COUNT
  wacc  : Word32    -- WACC
  widx  : BitVec 5  -- WIDX
deriving DecidableEq, Repr

/-- The registers of the decoder and its bit buffer (10_state.md R22, R24, R26, R29, R32). -/
structure Decoder where
  lower  : Word32    -- DEC_LOWER
  range  : Word32    -- DEC_RANGE
  value  : Word32    -- DEC_VALUE
  count  : Word64    -- DEC_COUNT
  rbuf   : Word32    -- RBUF
  ridx   : BitVec 5  -- RIDX
  srcEos : Bool      -- SRC_EOS
deriving DecidableEq, Repr

/-- What the host can do between commands: present a command word (30_encoding.md R90) or pull the hardware
reset (70_reset_and_hazards.md R280; log 12). -/
inductive HostInput where
  | word (w : CmdWord)
  | hardReset
deriving DecidableEq, Repr

/-- What the environment does with one SrcGet: one of the three answers of 20_memory.md R61, or it never
answers (R77). -/
inductive SrcAnswer where
  | byte (b : Byte)
  | eos
  | err
  | never
deriving DecidableEq, Repr

/-- What the environment does with one SinkPut: one of the two answers of 20_memory.md R62, or it never
answers (R77). -/
inductive SinkAnswer where
  | ok
  | err
  | never
deriving DecidableEq, Repr

/-- The response codes (30_encoding.md R94). -/
inductive RespCode where
  | ok | errIllegal | errSeq | errFaulted | faultFormat | faultIo
deriving DecidableEq, Repr

/-- A response: (code, data) (30_encoding.md R94). -/
structure Response where
  code : RespCode
  data : Word64
deriving DecidableEq, Repr

/-- What is seen on the ports (45_system.md R230): a word presented, a hardware reset, a transaction with its
answer, a response. -/
inductive Event where
  | command (w : CmdWord)
  | hardReset
  | srcGet (a : SrcAnswer)
  | sinkPut (b : Byte) (a : SinkAnswer)
  | response (r : Response)
deriving DecidableEq, Repr

/-- The step's inputs and outputs (45_system.md R230; logs 1, 2 and 4). The first three lists are what the
host and the environment will do, next first; `trace` is what has happened, oldest first. -/
structure Ports where
  host   : List HostInput
  source : List SrcAnswer
  sink   : List SinkAnswer
  trace  : List Event
deriving DecidableEq, Repr

/-- The whole machine: the device's state (10_state.md section 7) and its ports. -/
structure State where
  phase  : Phase         -- PHASE
  fcause : Option Cause  -- FCAUSE
  ft     : FreqTable
  enc    : Encoder
  dec    : Decoder
  ports  : Ports
deriving DecidableEq, Repr

/-- Why the machine has no step. FormatError and IOError are not among these: the spec gives them a state
(60_exceptions.md R256), so they are next states. -/
inductive Fault where
  /-- Raised by step when the host presents no command word: nothing happens between commands
  (60_exceptions.md R254). Safe: no next state is claimed. -/
  | noCommand
  /-- Raised by a command whose SrcGet is never answered: stuck (20_memory.md R77). Safe: no next state is
  claimed. -/
  | sourceSilent
  /-- Raised by a command whose SinkPut is never answered: stuck (20_memory.md R77). Safe: no next state is
  claimed. -/
  | sinkSilent
deriving DecidableEq, Repr

/-- Why an instruction has no meaning. -/
inductive Refusal where
  /-- Raised by exec for an instruction that has no meaning yet. No arm raises it. Safe: no next state is
  claimed. -/
  | notModelled (mnemonic : String)
deriving DecidableEq, Repr

/-- The outcome of a piece of a command's pseudocode (00_scope.md R11): it goes on with a value, it raises a
cause keeping the writes already made, or a transaction is never answered. -/
inductive Res (α : Type) where
  | ok (a : α) (s : State)
  | raise (c : Cause) (s : State)
  | stuck (f : Fault)
deriving DecidableEq, Repr

/-- The frequency unit after reset (R280). -/
def FreqTable.reset : FreqTable where
  cnt := Vector.replicate 256 0#64
  ord := Vector.replicate 256 0#8
  nseen := 0#9
  total := 0#64
  tabN := 0#9
  tab := Vector.replicate 256 TabEntry.zero
  tabValid := false

/-- The encoder after reset (R280). -/
def Encoder.reset : Encoder where
  lower := Config.initLower
  range := Config.initRange
  pend := 0#64
  count := 0#64
  wacc := 0#32
  widx := 31#5

/-- The decoder after reset (R280). -/
def Decoder.reset : Decoder where
  lower := Config.initLower
  range := Config.initRange
  value := 0#32
  count := 0#64
  rbuf := 0#32
  ridx := 31#5
  srcEos := false

/-- Ports on which nothing is scheduled and nothing has happened (logs 1, 2 and 4). -/
def Ports.quiet : Ports := ⟨[], [], [], []⟩

/-- The machine right after reset (70_reset_and_hazards.md R280): every register and array at the value the
spec gives, and quiet ports. -/
def State.reset : State where
  phase := .idle
  fcause := none
  ft := FreqTable.reset
  enc := Encoder.reset
  dec := Decoder.reset
  ports := Ports.quiet

end Sys2Proof.Machine
end

