-- ==== Sys2Proof/Machine/Flags.lean ====
section
/-! DEFINITION. The codes of PHASE, FCAUSE and the responses, the two stored flags TAB_VALID and SRC_EOS, and
the combinational E1/E2/E3 case (10_state.md R20, R23, R31 to R33; 60_exceptions.md R251; 30_encoding.md R94). -/

namespace Sys2Proof.Machine

/-- The value of PHASE (10_state.md R20). -/
def Phase.code : Phase → BitVec 4
  | .idle => 0#4
  | .counting => 1#4
  | .built => 2#4
  | .hdrOut => 3#4
  | .encoding => 4#4
  | .loaded => 6#4
  | .decoding => 7#4
  | .fault => 15#4

/-- The cause codes (60_exceptions.md R251). -/
def Cause.code : Cause → BitVec 8
  | .hdrTruncated => 0x01#8
  | .hdrAlphaRange => 0x02#8
  | .hdrZeroCount => 0x03#8
  | .hdrDupSymbol => 0x04#8
  | .hdrSumMismatch => 0x05#8
  | .symNotInTable => 0x06#8
  | .noCdfMatch => 0x07#8
  | .zeroRange => 0x08#8
  | .counterOverflow => 0x09#8
  | .ioSink => 0x40#8
  | .ioSource => 0x41#8

/-- The value of FCAUSE (10_state.md R23): the cause's code, 0 when there has been no fault. -/
def fcauseCode : Option Cause → BitVec 8
  | none => 0x00#8
  | some c => c.code

/-- FCAUSE[6] = 1 marks the IOError class (60_exceptions.md R251). -/
def Cause.isIo (c : Cause) : Bool := c.code.getLsbD 6

/-- The response codes (30_encoding.md R94). -/
def RespCode.code : RespCode → BitVec 8
  | .ok => 0x00#8
  | .errIllegal => 0x01#8
  | .errSeq => 0x02#8
  | .errFaulted => 0x03#8
  | .faultFormat => 0x10#8
  | .faultIo => 0x11#8

/-- The fault response of a cause (60_exceptions.md R256). -/
def Cause.respCode (c : Cause) : RespCode := if c.isIo then .faultIo else .faultFormat

/-- TAB_VALID <- v (10_state.md R31). -/
def State.setTabValid (v : Bool) (s : State) : State := { s with ft := { s.ft with tabValid := v } }

/-- SRC_EOS <- v (10_state.md R32). -/
def State.setSrcEos (v : Bool) (s : State) : State := { s with dec := { s.dec with srcEos := v } }

/-- The three cases of a renormalisation step (42_interval.md R174; 10_state.md R33: not stored). -/
inductive IntervalCase where
  | e1 | e2 | e3
deriving DecidableEq, Repr

/-- Classify (42_interval.md R174). L + R is the exact sum, which can be 2^32 (R172). -/
def classify (lower range : Word32) : IntervalCase :=
  if lower.toNat + range.toNat ≤ Config.halfMax then .e1
  else if Config.halfMax ≤ lower.toNat then .e2
  else .e3

end Sys2Proof.Machine
end

