-- ==== Sys2Proof/Machine/Operands.lean ====
section
/-! DEFINITION. What an operand selects: an element of CNT by symbol, a prefix of ORD and of the table, a status
register by number (20_memory.md R71; 10_state.md R34 to R37, R39; 30_encoding.md R93). -/

namespace Sys2Proof.Machine

/-- CNT[s] (10_state.md R34): the index is the symbol, always in range. -/
def FreqTable.count (f : FreqTable) (sym : Byte) : Word64 := f.cnt[sym.toNat]'sym.isLt

/-- CNT[s] <- v (10_state.md R34). -/
def FreqTable.setCount (f : FreqTable) (sym : Byte) (v : Word64) : FreqTable :=
  { f with cnt := f.cnt.set sym.toNat v sym.isLt }

/-- ORD[i] <- s (10_state.md R35). An index of 256 or more cannot occur (20_memory.md R71); it writes nothing
(log 7). -/
def FreqTable.setOrd (f : FreqTable) (i : Nat) (sym : Byte) : FreqTable :=
  { f with ord := f.ord.setIfInBounds i sym }

/-- ORD[0..NSEEN-1], the distinct symbols in first-seen order (10_state.md R35). -/
def FreqTable.firstSeen (f : FreqTable) : List Byte := f.ord.toList.take f.nseen.toNat

/-- Table entry i (10_state.md R37), the zero entry where there is no such index. -/
def FreqTable.entry (f : FreqTable) (i : Nat) : TabEntry := f.tab[i]?.getD TabEntry.zero

/-- Table entry i <- e (10_state.md R37). An index of 256 or more cannot occur (20_memory.md R71); it writes
nothing (log 7). -/
def FreqTable.setEntry (f : FreqTable) (i : Nat) (e : TabEntry) : FreqTable :=
  { f with tab := f.tab.setIfInBounds i e }

/-- The first n table entries, in index order. -/
def FreqTable.firstEntries (f : FreqTable) (n : Nat) : List TabEntry := f.tab.toList.take n

/-- The table: entries 0 to TAB_N - 1 (10_state.md R37). -/
def FreqTable.entries (f : FreqTable) : List TabEntry := f.firstEntries f.tabN.toNat

/-- A one-bit flag as a bit. -/
def flagBit (b : Bool) : BitVec 1 := BitVec.ofBool b

/-- SR0, STATUS (10_state.md R39): PHASE in [3:0], TAB_VALID in [4], SRC_EOS in [5], FCAUSE in [15:8]. -/
def statusWord (s : State) : Word64 :=
  0#48 ++ fcauseCode s.fcause ++ 0#2 ++ flagBit s.dec.srcEos ++ flagBit s.ft.tabValid ++ s.phase.code

/-- SR7 and SR12 (10_state.md R39): the bit buffer in [31:0], its index in [36:32]. -/
def bufferWord (index : BitVec 5) (buffer : Word32) : Word64 := 0#27 ++ index ++ buffer

/-- SR[n], the status registers 0 to 13 (10_state.md R39). There is no register beyond 13; the value given
for one is never answered (R236). -/
def statusRegister (n : Nat) (s : State) : Word64 :=
  match n with
  | 0 => statusWord s
  | 1 => s.ft.total
  | 2 => s.ft.tabN.setWidth 64
  | 3 => s.enc.lower.setWidth 64
  | 4 => s.enc.range.setWidth 64
  | 5 => s.enc.pend
  | 6 => s.enc.count
  | 7 => bufferWord s.enc.widx s.enc.wacc
  | 8 => s.dec.lower.setWidth 64
  | 9 => s.dec.range.setWidth 64
  | 10 => s.dec.value.setWidth 64
  | 11 => s.dec.count
  | 12 => bufferWord s.dec.ridx s.dec.rbuf
  | 13 => s.ft.nseen.setWidth 64
  | _ => 0#64

end Sys2Proof.Machine
end

