-- ==== Sys2Proof/Machine/Ops.lean ====
section
/-! DEFINITION. The named operations every command is built from: sequencing (00_scope.md R11), the two stream
ports (20_memory.md R61, R62, R64, R65), the host port (30_encoding.md R90, R94), fault entry, refusals, reset
(60_exceptions.md R256, R258, R259; 70_reset_and_hazards.md R280) and the order of the dispatch checks
(45_system.md R231). -/

namespace Sys2Proof.Machine

/-! ### Sequencing -/

/-- Run `r`, then `f` with its value and state; a raise or an unanswered transaction ends the command there
(00_scope.md R11). -/
def Res.andThen {α β : Type} (r : Res α) (f : α → State → Res β) : Res β :=
  match r with
  | .ok a s => f a s
  | .raise c s => .raise c s
  | .stuck e => .stuck e

/-! ### The ports -/

/-- Note on the trace that `e` has happened (45_system.md R230; log 2). -/
def State.record (e : Event) (s : State) : State :=
  { s with ports := { s.ports with trace := s.ports.trace ++ [e] } }

/-- What remains of the source after one SrcGet. -/
def State.dropSource (s : State) : State :=
  { s with ports := { s.ports with source := s.ports.source.tail } }

/-- What remains of the sink's answers after one SinkPut. -/
def State.dropSink (s : State) : State :=
  { s with ports := { s.ports with sink := s.ports.sink.tail } }

/-- The answer to the next SrcGet: the scheduled one, EOS where none is scheduled (no byte remains; log 1). -/
def State.sourceAnswer (s : State) : SrcAnswer := s.ports.source.headD .eos

/-- The answer to the next SinkPut: the scheduled one, Ok where none is scheduled (log 1). -/
def State.sinkAnswer (s : State) : SinkAnswer := s.ports.sink.headD .ok

/-- SrcGet() (20_memory.md R61): `some b` for Byte(b), `none` for EOS; Err raises IOError(IO_SOURCE); a
transaction never answered is stuck (R77). -/
def srcGet (s : State) : Res (Option Byte) :=
  match s.sourceAnswer with
  | .byte b => .ok (some b) (s.dropSource.record (.srcGet (.byte b)))
  | .eos => .ok none (s.dropSource.record (.srcGet .eos))
  | .err => .raise .ioSource (s.dropSource.record (.srcGet .err))
  | .never => .stuck .sourceSilent

/-- SinkPut(b) (20_memory.md R62): Ok appends the byte; Err raises IOError(IO_SINK); a transaction never
answered is stuck (R77). -/
def sinkPut (b : Byte) (s : State) : Res Unit :=
  match s.sinkAnswer with
  | .ok => .ok () (s.dropSink.record (.sinkPut b .ok))
  | .err => .raise .ioSink (s.dropSink.record (.sinkPut b .err))
  | .never => .stuck .sinkSilent

/-- The bytes in order, one SinkPut each (20_memory.md R69). -/
def sinkPutAll : List Byte → State → Res Unit
  | [], s => .ok () s
  | b :: bs, s => (sinkPut b s).andThen fun _ s => sinkPutAll bs s

/-- The n bytes of v, most significant first (20_memory.md R64). -/
def beBytes (n v : Nat) : List Byte :=
  (List.range n).map fun k => BitVec.ofNat 8 (v >>> (8 * (n - 1 - k)))

/-- PutUInt(n, v) (20_memory.md R64). -/
def putUInt (n v : Nat) (s : State) : Res Unit := sinkPutAll (beBytes n v) s

/-- The loop of GetUIntStrict: n more bytes below the value read so far. -/
def getUIntFrom : Nat → Nat → State → Res Nat
  | 0, acc, s => .ok acc s
  | n + 1, acc, s =>
    (srcGet s).andThen fun a s =>
      match a with
      | some b => getUIntFrom n (acc * 256 + b.toNat) s
      | none => .raise .hdrTruncated s

/-- GetUIntStrict(n) (20_memory.md R65): n bytes, the first the most significant; EOS raises
FormatError(HDR_TRUNCATED). -/
def getUIntStrict (n : Nat) (s : State) : Res Nat := getUIntFrom n 0 s

/-! ### Responses, refusals, fault entry, reset -/

/-- Answer (code, data) on the command port (30_encoding.md R94). -/
def respond (code : RespCode) (data : Word64) (s : State) : State :=
  s.record (.response ⟨code, data⟩)

/-- refuse(code) (60_exceptions.md R258): no write, no transaction, data 0. -/
def refuse (code : RespCode) (s : State) : State := respond code 0#64 s

/-- Fault entry (60_exceptions.md R256): FCAUSE <- c, PHASE <- FAULT, respond with the class and the code;
nothing else is written. -/
def faultEntry (c : Cause) (s : State) : State :=
  respond c.respCode (c.code.setWidth 64) { s with fcause := some c, phase := .fault }

/-- Every register and array to its reset value; the streams are not touched (70_reset_and_hazards.md R280,
R281). It is the only way out of FAULT (60_exceptions.md R259). -/
def resetDevice (s : State) : State := { State.reset with ports := s.ports }

/-- The hardware reset (70_reset_and_hazards.md R280): the same effect as RESET, with no command word and so no
response (log 12). -/
def hardwareReset (s : State) : State := resetDevice s

/-- How an executed command ends (45_system.md R231 step 6). -/
def settle : Res Unit → Host.Outcome State Fault Refusal
  | .ok _ s => .next (respond .ok 0#64 s)
  | .raise c s => .next (faultEntry c s)
  | .stuck e => .fault e

/-- Checks 4 to 6 of the dispatch (45_system.md R231): refused in FAULT, refused where the command is not
accepted now, executed otherwise. -/
def whenAccepted (accepted : Bool) (body : State → Res Unit) (s : State) : Host.Outcome State Fault Refusal :=
  if s.phase = .fault then .next (refuse .errFaulted s)
  else if accepted then settle (body s)
  else .next (refuse .errSeq s)

/-! ### Taking the next host input -/

/-- What the trace shows of a host input. -/
def HostInput.event : HostInput → Event
  | .word w => .command w
  | .hardReset => .hardReset

/-- The next host input, and the state with it taken off the command port (30_encoding.md R90). -/
def nextInput (s : State) : Option (HostInput × State) :=
  match s.ports.host with
  | [] => none
  | h :: rest => some (h, State.record h.event { s with ports := { s.ports with host := rest } })

/-! ### Views of the trace -/

/-- The byte an event put in the sink, if it did. -/
def Event.accepted : Event → Option Byte
  | .sinkPut b .ok => some b
  | _ => none

/-- The bytes in the sink stream, oldest first (20_memory.md R62). -/
def State.sinkBytes (s : State) : List Byte := s.ports.trace.filterMap Event.accepted

/-- The response an event is, if it is one. -/
def Event.answer : Event → Option Response
  | .response r => some r
  | _ => none

/-- The responses given, oldest first. -/
def State.responses (s : State) : List Response := s.ports.trace.filterMap Event.answer

end Sys2Proof.Machine
end

