-- ==== Sys2Proof/Machine/BitPacker.lean ====
section
/-! DEFINITION. The bit packer (40_bitpacker.md R120 to R129). -/

namespace Sys2Proof.Machine

/-- PutWord(w) (40_bitpacker.md R122). -/
def putWord (w : Word32) (s : State) : Res Unit := putUInt 4 w.toNat s

/-- WACC <- acc and WIDX <- idx. -/
def State.setWriteBuffer (acc : Word32) (idx : BitVec 5) (s : State) : State :=
  { s with enc := { s.enc with wacc := acc, widx := idx } }

/-- RBUF <- buf and RIDX <- idx. -/
def State.setReadBuffer (buf : Word32) (idx : BitVec 5) (s : State) : State :=
  { s with dec := { s.dec with rbuf := buf, ridx := idx } }

/-- WACC with the bit `b` at index WIDX: a 1 is set, a 0 changes nothing (40_bitpacker.md R121). -/
def withBit (b : Bool) (acc : Word32) (idx : BitVec 5) : Word32 :=
  if b then acc ||| (1#32 <<< idx.toNat) else acc

/-- WriteBit(b) (40_bitpacker.md R121). When PutWord raises, WACC holds the full word and WIDX is still 0. -/
def writeBit (b : Bool) (s : State) : Res Unit :=
  let acc := withBit b s.enc.wacc s.enc.widx
  if s.enc.widx = 0#5 then
    (putWord acc (s.setWriteBuffer acc 0#5)).andThen fun _ s => .ok () (s.setWriteBuffer 0#32 31#5)
  else .ok () (s.setWriteBuffer acc (s.enc.widx - 1#5))

/-- Flush() (40_bitpacker.md R123). -/
def flush (s : State) : Res Unit :=
  if s.enc.widx.toNat < 31 then
    (putWord s.enc.wacc s).andThen fun _ s => .ok () (s.setWriteBuffer 0#32 31#5)
  else .ok () s

/-- One payload byte: 0 once SRC_EOS is 1, with no transaction; the first EOS sets SRC_EOS and gives 0
(40_bitpacker.md R125). -/
def getBytePadded (s : State) : Res Byte :=
  if s.dec.srcEos then .ok 0#8 s
  else
    (srcGet s).andThen fun a s =>
      match a with
      | some b => .ok b s
      | none => .ok 0#8 (s.setSrcEos true)

/-- The loop of GetWordPadded: n more bytes shifted in below w (40_bitpacker.md R125). -/
def getWordFrom : Nat → Word32 → State → Res Word32
  | 0, w, s => .ok w s
  | n + 1, w, s => (getBytePadded s).andThen fun b s => getWordFrom n ((w <<< 8) ||| b.setWidth 32) s

/-- GetWordPadded() (40_bitpacker.md R125). -/
def getWordPadded (s : State) : Res Word32 := getWordFrom 4 0#32 s

/-- RBUF <- GetWordPadded() when no buffered word remains (40_bitpacker.md R126). -/
def refill (s : State) : Res Unit :=
  if s.dec.ridx = 31#5 then
    (getWordPadded s).andThen fun w s => .ok () (s.setReadBuffer w s.dec.ridx)
  else .ok () s

/-- The index after one bit: down by one, from 0 to 31 (40_bitpacker.md R126). -/
def nextIndex (idx : BitVec 5) : BitVec 5 := if idx = 0#5 then 31#5 else idx - 1#5

/-- ReadBit() (40_bitpacker.md R126). -/
def readBit (s : State) : Res Bool :=
  (refill s).andThen fun _ s =>
    .ok (s.dec.rbuf.getLsbD s.dec.ridx.toNat) (s.setReadBuffer s.dec.rbuf (nextIndex s.dec.ridx))

end Sys2Proof.Machine
end

