-- ==== Sys2Proof/Machine/Freq.lean ====
section
/-! DEFINITION. frequency_table_cdf: FT_CLEAR, FT_COUNT, FT_BUILD, FT_SER, FT_DES and the two table searches
(41_frequency_table.md R140 to R152). -/

namespace Sys2Proof.Machine

/-! ### FT_CLEAR -/

/-- The writes of FT_CLEAR (41_frequency_table.md R142). ORD, TAB_* and TAB_N keep their contents. -/
def clearCounts (s : State) : State :=
  { s with
    ft := { s.ft with cnt := Vector.replicate 256 0#64, nseen := 0#9, total := 0#64, tabValid := false }
    phase := .counting }

/-- FT_CLEAR (41_frequency_table.md R142). -/
def execFtClear (s : State) : Host.Outcome State Fault Refusal :=
  whenAccepted (s.phase == .idle) (fun s => .ok () (clearCounts s)) s

/-! ### FT_COUNT -/

/-- ORD[NSEEN] <- s and NSEEN <- NSEEN + 1 for a symbol not seen before (41_frequency_table.md R143). -/
def FreqTable.noteFirstSeen (f : FreqTable) (sym : Byte) : FreqTable :=
  if f.count sym = 0#64 then { f.setOrd f.nseen.toNat sym with nseen := f.nseen + 1#9 } else f

/-- The writes of FT_COUNT to the frequency unit (41_frequency_table.md R143). -/
def FreqTable.countSymbol (f : FreqTable) (sym : Byte) : FreqTable :=
  { (f.noteFirstSeen sym).setCount sym (f.count sym + 1#64) with total := f.total + 1#64 }

/-- The pseudocode of FT_COUNT (41_frequency_table.md R143): the overflow is tested before any write. -/
def countBody (sym : Byte) (s : State) : Res Unit :=
  if s.ft.total.toNat = Config.counterMax then .raise .counterOverflow s
  else .ok () { s with ft := s.ft.countSymbol sym }

/-- FT_COUNT s (41_frequency_table.md R143). -/
def execFtCount (sym : Byte) (s : State) : Host.Outcome State Fault Refusal :=
  whenAccepted (s.phase == .counting) (countBody sym) s

/-! ### FT_BUILD -/

/-- The symbols in table order: the stable sort of the first-seen list by descending count
(41_frequency_table.md R144; log 10). -/
def FreqTable.tableOrder (f : FreqTable) : List Byte :=
  f.firstSeen.insertionSort fun a b => (f.count b).toNat ≤ (f.count a).toNat

/-- The loop of FT_BUILD from position i with the running sum acc (41_frequency_table.md R144). -/
def fillTable : List Byte → Nat → Word64 → FreqTable → FreqTable
  | [], _, _, f => f
  | sym :: rest, i, acc, f =>
    fillTable rest (i + 1) (acc + f.count sym) (f.setEntry i ⟨sym, f.count sym, acc, acc + f.count sym⟩)

/-- The writes of FT_BUILD (41_frequency_table.md R144). -/
def buildTable (s : State) : State :=
  { s with
    ft := { fillTable s.ft.tableOrder 0 0#64 s.ft with tabN := s.ft.nseen, tabValid := true }
    phase := .built }

/-- FT_BUILD (41_frequency_table.md R144). -/
def execFtBuild (s : State) : Host.Outcome State Fault Refusal :=
  whenAccepted (s.phase == .counting) (fun s => .ok () (buildTable s)) s

/-! ### FT_SER -/

/-- One (symbol, count) pair of the header (30_encoding.md R101). -/
def TabEntry.headerBytes (e : TabEntry) : List Byte := e.sym :: beBytes 8 e.cnt.toNat

/-- The loop of FT_SER over the entries (41_frequency_table.md R146). -/
def putEntries : List TabEntry → State → Res Unit
  | [], s => .ok () s
  | e :: rest, s => (sinkPutAll e.headerBytes s).andThen fun _ s => putEntries rest s

/-- The pseudocode of FT_SER (41_frequency_table.md R146). -/
def serialiseBody (s : State) : Res Unit :=
  (putUInt 8 s.ft.total.toNat s).andThen fun _ s =>
  (putUInt 2 s.ft.tabN.toNat s).andThen fun _ s =>
  (putEntries s.ft.entries s).andThen fun _ s =>
  .ok () { s with phase := .hdrOut }

/-- FT_SER (41_frequency_table.md R146). -/
def execFtSer (s : State) : Host.Outcome State Fault Refusal :=
  whenAccepted (s.phase == .built) serialiseBody s

/-! ### FT_DES -/

/-- TOTAL <- v. -/
def State.setTotal (v : Word64) (s : State) : State := { s with ft := { s.ft with total := v } }

/-- Table entry i <- e. -/
def State.setEntry (i : Nat) (e : TabEntry) (s : State) : State := { s with ft := s.ft.setEntry i e }

/-- The last writes of FT_DES: TAB_N <- n, TAB_VALID <- 1, PHASE <- LOADED (41_frequency_table.md R148). -/
def State.finishLoad (n : BitVec 9) (s : State) : State :=
  { s with ft := { s.ft with tabN := n, tabValid := true }, phase := .loaded }

/-- One pair of the header, after its nine bytes are read: the three checks in their order and the four writes
(41_frequency_table.md R148, 60_exceptions.md R255). The value is the new running sum. -/
def loadPair (i acc total : Nat) (sym : Byte) (c : Nat) (s : State) : Res Nat :=
  if c = 0 then .raise .hdrZeroCount s
  else if (s.ft.firstEntries i).any (fun e => e.sym == sym) then .raise .hdrDupSymbol s
  else if total < acc + c then .raise .hdrSumMismatch s
  else
    .ok (acc + c)
      (s.setEntry i ⟨sym, BitVec.ofNat 64 c, BitVec.ofNat 64 acc, BitVec.ofNat 64 (acc + c)⟩)

/-- The loop of FT_DES: `n` more pairs from position i; the value is the final running sum
(41_frequency_table.md R148). -/
def loadPairs : Nat → Nat → Nat → Nat → State → Res Nat
  | 0, _, acc, _, s => .ok acc s
  | n + 1, i, acc, total, s =>
    (getUIntStrict 1 s).andThen fun sym s =>
    (getUIntStrict 8 s).andThen fun c s =>
    (loadPair i acc total (BitVec.ofNat 8 sym) c s).andThen fun acc s =>
    loadPairs n (i + 1) acc total s

/-- The pairs and the check of the final sum (41_frequency_table.md R148). -/
def loadTable (total n : Nat) (s : State) : Res Unit :=
  (loadPairs n 0 0 total s).andThen fun acc s =>
    if acc = total then .ok () (s.finishLoad (BitVec.ofNat 9 n))
    else .raise .hdrSumMismatch s

/-- The pseudocode of FT_DES (41_frequency_table.md R148). -/
def deserialiseBody (s : State) : Res Unit :=
  (getUIntStrict 8 ((s.setSrcEos false).setTabValid false)).andThen fun t s =>
  (getUIntStrict 2 (s.setTotal (BitVec.ofNat 64 t))).andThen fun n s =>
  if Config.alphaMax < n then .raise .hdrAlphaRange s else loadTable t n s

/-- FT_DES (41_frequency_table.md R148). -/
def execFtDes (s : State) : Host.Outcome State Fault Refusal :=
  whenAccepted (s.phase == .idle) deserialiseBody s

/-! ### The two table searches -/

/-- LookupSym(s) (41_frequency_table.md R150): the first entry with that symbol. -/
def FreqTable.lookupSym (f : FreqTable) (sym : Byte) : Option TabEntry :=
  f.entries.find? fun e => e.sym == sym

/-- LookupTarget(t) (41_frequency_table.md R151): the first entry whose [low, high) holds t, compared exactly. -/
def FreqTable.lookupTarget (f : FreqTable) (t : Nat) : Option TabEntry :=
  f.entries.find? fun e => decide (e.low.toNat ≤ t) && decide (t < e.high.toNat)

end Sys2Proof.Machine
end

