-- ==== Sys2Proof/Machine/Interval.lean ====
section
/-! DEFINITION. The interval arithmetic the two engines share (42_interval.md R170 to R180). Classify stands in
Flags.lean. Every operation is exact on naturals and narrowed once, at the register. -/

namespace Sys2Proof.Machine

/-- floor(R * bound / total), multiplied first (42_interval.md R173). -/
def offsetOf (range : Word32) (bound total : Word64) : Nat := range.toNat * bound.toNat / total.toNat

/-- Narrow (42_interval.md R173): the narrowed (Lower, Range), or nothing where the narrowed Range would be 0
(the caller raises FormatError(ZERO_RANGE), R179). -/
def narrow (lower range : Word32) (low high total : Word64) : Option (Word32 × Word32) :=
  let loOff := offsetOf range low total
  let hiOff := offsetOf range high total
  if hiOff - loOff = 0 then none
  else some (BitVec.ofNat 32 (lower.toNat + loOff), BitVec.ofNat 32 (hiOff - loOff))

/-- The offset of a case (42_interval.md R175). -/
def IntervalCase.offset : IntervalCase → Word32
  | .e1 => 0#32
  | .e2 => 0x80000000#32
  | .e3 => 0x40000000#32

/-- The Lower part of Rescale (42_interval.md R175): 2 * (L - off). -/
def rescaleLower (c : IntervalCase) (lower : Word32) : Word32 := 2#32 * (lower - c.offset)

/-- The Range part of Rescale (42_interval.md R175): 2 * R. -/
def rescaleRange (range : Word32) : Word32 := 2#32 * range

/-- The condition of the renormalisation loop, R <= Q (42_interval.md R176). -/
def needsPass (range : Word32) : Bool := range.toNat ≤ Config.quarterMax

end Sys2Proof.Machine
end

