-- ==== Sys2Proof/Machine/Dec.lean ====
section
/-! DEFINITION. arithmetic_coder_decoder: DEC_INIT, DEC_SYM (44_decoder.md R210 to R218). -/

namespace Sys2Proof.Machine

/-! ### DEC_INIT -/

/-- The writes of DEC_INIT before the first word is read (44_decoder.md R210). SRC_EOS is kept. -/
def startDecoder (s : State) : State :=
  { s with
    dec :=
      { s.dec with
        lower := Config.initLower, range := Config.initRange, count := 0#64, rbuf := 0#32, ridx := 31#5 } }

/-- DEC_VALUE <- v. -/
def State.setValue (v : Word32) (s : State) : State := { s with dec := { s.dec with value := v } }

/-- The phase DEC_INIT enters (44_decoder.md R210). -/
def phaseAfterInit (total : Word64) : Phase := if total = 0#64 then .idle else .decoding

/-- The pseudocode of DEC_INIT (44_decoder.md R210): the word is read also when TOTAL = 0. -/
def decInitBody (s : State) : Res Unit :=
  (getWordPadded (startDecoder s)).andThen fun w s =>
    .ok () { s.setValue w with phase := phaseAfterInit s.ft.total }

/-- DEC_INIT (44_decoder.md R210). -/
def execDecInit (s : State) : Host.Outcome State Fault Refusal :=
  whenAccepted (s.phase == .loaded) decInitBody s

/-! ### DEC_SYM -/

/-- DEC_LOWER <- l and DEC_RANGE <- r. -/
def State.setDecInterval (l r : Word32) (s : State) : State :=
  { s with dec := { s.dec with lower := l, range := r } }

/-- Target(V, L, R, total) (44_decoder.md R211), exact and of no fixed width; nothing where V < L (the caller
raises FormatError(NO_CDF_MATCH)). -/
def target (value lower range : Word32) (total : Word64) : Option Nat :=
  if value.toNat < lower.toNat then none
  else some (((value.toNat - lower.toNat + 1) * total.toNat - 1) / range.toNat)

/-- The entry a Value selects (44_decoder.md R211, R212; 41_frequency_table.md R151). -/
def selectEntry (s : State) : Option TabEntry :=
  (target s.dec.value s.dec.lower s.dec.range s.ft.total).bind s.ft.lookupTarget

/-- (2 * (V - off) + bit) mod 2^32 (44_decoder.md R213; log 11). -/
def shiftValue (value off : Word32) (bit : Bool) : Word32 :=
  2#32 * (value - off) + (BitVec.ofBool bit).setWidth 32

/-- One pass of the decoder's loop (44_decoder.md R212): the interval first, then one bit into Value. -/
def decPass (s : State) : Res Unit :=
  let c := classify s.dec.lower s.dec.range
  (readBit (s.setDecInterval (rescaleLower c s.dec.lower) (rescaleRange s.dec.range))).andThen fun bit s =>
    .ok () (s.setValue (shiftValue s.dec.value c.offset bit))

/-- The decoder's renormalisation loop (44_decoder.md R212), with the bound of 42_interval.md R176 as its
measure (log 9). -/
def decLoop : Nat → State → Res Unit
  | 0, s => .ok () s
  | n + 1, s =>
    if needsPass s.dec.range then (decPass s).andThen fun _ s => decLoop n s else .ok () s

/-- DEC_COUNT <- DEC_COUNT + 1, and PHASE <- IDLE after the last symbol (44_decoder.md R212). -/
def State.countDecoded (s : State) : State :=
  { s with
    dec := { s.dec with count := s.dec.count + 1#64 }
    phase := if s.dec.count + 1#64 = s.ft.total then .idle else s.phase }

/-- DEC_SYM after the look-up (44_decoder.md R212). Narrow cannot fail in a reachable state (R214); its branch
is modelled (93_implementation_defined.md item 29). -/
def decodeEntry (e : TabEntry) (s : State) : Res Unit :=
  match narrow s.dec.lower s.dec.range e.low e.high s.ft.total with
  | none => .raise .zeroRange s
  | some (l, r) =>
    (decLoop Config.maxPasses (s.setDecInterval l r)).andThen fun _ s =>
    (sinkPut e.sym s).andThen fun _ s =>
    .ok () s.countDecoded

/-- The pseudocode of DEC_SYM (44_decoder.md R212). -/
def decodeBody (s : State) : Res Unit :=
  match selectEntry s with
  | none => .raise .noCdfMatch s
  | some e => decodeEntry e s

/-- DEC_SYM (44_decoder.md R212). -/
def execDecSym (s : State) : Host.Outcome State Fault Refusal :=
  whenAccepted (s.phase == .decoding) decodeBody s

end Sys2Proof.Machine
end

