-- ==== Sys2Proof/Machine/Enc.lean ====
section
/-! DEFINITION. arithmetic_coder_encoder: ENC_INIT, ENC_SYM, ENC_FIN (43_encoder.md R190 to R199). -/

namespace Sys2Proof.Machine

/-! ### ENC_INIT -/

/-- The writes of ENC_INIT (43_encoder.md R190). -/
def startEncoder (s : State) : State :=
  { s with
    enc :=
      { lower := Config.initLower, range := Config.initRange, pend := 0#64, count := 0#64,
        wacc := 0#32, widx := 31#5 }
    phase := .encoding }

/-- ENC_INIT (43_encoder.md R190). -/
def execEncInit (s : State) : Host.Outcome State Fault Refusal :=
  whenAccepted (s.phase == .hdrOut) (fun s => .ok () (startEncoder s)) s

/-! ### Emit -/

/-- ENC_PEND <- v. -/
def State.setPend (v : Word64) (s : State) : State := { s with enc := { s.enc with pend := v } }

/-- ENC_LOWER <- l and ENC_RANGE <- r. -/
def State.setEncInterval (l r : Word32) (s : State) : State :=
  { s with enc := { s.enc with lower := l, range := r } }

/-- The loop of Emit: n follow bits, ENC_PEND decremented after each (43_encoder.md R191). -/
def followBits (b : Bool) : Nat → State → Res Unit
  | 0, s => .ok () s
  | n + 1, s => (writeBit b s).andThen fun _ s => followBits b n (s.setPend (s.enc.pend - 1#64))

/-- Emit(b) (43_encoder.md R191): the resolved bit, then every outstanding bit as its opposite. -/
def emit (b : Bool) (s : State) : Res Unit :=
  (writeBit b s).andThen fun _ s => followBits (!b) s.enc.pend.toNat s

/-- One more outstanding bit; past 2^64 - 1 it raises before the increment (43_encoder.md R194). -/
def addPending (s : State) : Res Unit :=
  if s.enc.pend.toNat = Config.counterMax then .raise .counterOverflow s
  else .ok () (s.setPend (s.enc.pend + 1#64))

/-! ### ENC_SYM -/

/-- What a pass does with the bit stream in each case (43_encoder.md R192, R193). -/
def emitCase (c : IntervalCase) (s : State) : Res Unit :=
  match c with
  | .e1 => emit false s
  | .e2 => emit true s
  | .e3 => addPending s

/-- One pass of the encoder's loop (43_encoder.md R192): the bit first, the interval second. -/
def encPass (s : State) : Res Unit :=
  let c := classify s.enc.lower s.enc.range
  (emitCase c s).andThen fun _ s =>
    .ok () (s.setEncInterval (rescaleLower c s.enc.lower) (rescaleRange s.enc.range))

/-- The encoder's renormalisation loop (43_encoder.md R192), with the bound of 42_interval.md R176 as its
measure (log 9). -/
def encLoop : Nat → State → Res Unit
  | 0, s => .ok () s
  | n + 1, s =>
    if needsPass s.enc.range then (encPass s).andThen fun _ s => encLoop n s else .ok () s

/-- ENC_COUNT <- ENC_COUNT + 1. -/
def State.countEncoded (s : State) : State := { s with enc := { s.enc with count := s.enc.count + 1#64 } }

/-- ENC_SYM after the look-up (43_encoder.md R192): Narrow raises before either register is written. -/
def encodeEntry (e : TabEntry) (s : State) : Res Unit :=
  match narrow s.enc.lower s.enc.range e.low e.high s.ft.total with
  | none => .raise .zeroRange s
  | some (l, r) =>
    (encLoop Config.maxPasses (s.setEncInterval l r)).andThen fun _ s => .ok () s.countEncoded

/-- The pseudocode of ENC_SYM (43_encoder.md R192). -/
def encodeBody (sym : Byte) (s : State) : Res Unit :=
  match s.ft.lookupSym sym with
  | none => .raise .symNotInTable s
  | some e => encodeEntry e s

/-- ENC_SYM s (43_encoder.md R192): accepted in ENCODING while ENC_COUNT < TOTAL. -/
def execEncSym (sym : Byte) (s : State) : Host.Outcome State Fault Refusal :=
  whenAccepted (s.phase == .encoding && decide (s.enc.count.toNat < s.ft.total.toNat)) (encodeBody sym) s

/-! ### ENC_FIN -/

/-- P, the smallest multiple of QUARTER_MAX that is at least ENC_LOWER (43_encoder.md R195). -/
def codePoint (lower : Word32) : Nat := ((lower.toNat + Config.quarterMax - 1) >>> 30) <<< 30

/-- The trailer: the top eight bits of P, most significant first (43_encoder.md R195). -/
def trailer (lower : Word32) : List Bool :=
  (List.range Config.trailerBits).map fun i => (codePoint lower).testBit (31 - i)

/-- Emit for each bit of a list, in order. -/
def emitAll : List Bool → State → Res Unit
  | [], s => .ok () s
  | b :: bs, s => (emit b s).andThen fun _ s => emitAll bs s

/-- The pseudocode of ENC_FIN (43_encoder.md R195): no trailer for the empty input. -/
def finishBody (s : State) : Res Unit :=
  (emitAll (if 0 < s.ft.total.toNat then trailer s.enc.lower else []) s).andThen fun _ s =>
  (flush s).andThen fun _ s =>
  .ok () { s with phase := .idle }

/-- ENC_FIN (43_encoder.md R195): accepted in ENCODING once ENC_COUNT = TOTAL. -/
def execEncFin (s : State) : Host.Outcome State Fault Refusal :=
  whenAccepted (s.phase == .encoding && s.enc.count == s.ft.total) finishBody s

end Sys2Proof.Machine
end

