-- ==== Sys2Proof/Machine/System.lean ====
section
/-! DEFINITION. The two system commands RESET and RDSR (45_system.md R235, R236), which run in every phase. -/

namespace Sys2Proof.Machine

/-- RESET (45_system.md R235). -/
def execReset (s : State) : Host.Outcome State Fault Refusal :=
  .next (respond .ok 0#64 (resetDevice s))

/-- RDSR n (45_system.md R236). A number above 13 is an illegal word (30_encoding.md R95); the decoder gives no
such term, and one written by hand is refused like the word (log 13). -/
def execRdsr (n : Byte) (s : State) : Host.Outcome State Fault Refusal :=
  if n.toNat ≤ Config.lastStatusRegister then .next (respond .ok (statusRegister n.toNat s) s)
  else .next (refuse .errIllegal s)

end Sys2Proof.Machine
end

