-- ==== Sys2Proof/Machine/Dispatch.lean ====
section
/-! DEFINITION. One arm per command (45_system.md R231, R232; 30_encoding.md R92). -/

namespace Sys2Proof.Machine

def exec (i : Instr) (s : State) : Host.Outcome State Fault Refusal :=
  match i with
  | .reset => Sys2Proof.Machine.execReset s
  | .rdsr n => Sys2Proof.Machine.execRdsr n s
  | .ftClear => Sys2Proof.Machine.execFtClear s
  | .ftCount sym => Sys2Proof.Machine.execFtCount sym s
  | .ftBuild => Sys2Proof.Machine.execFtBuild s
  | .ftSer => Sys2Proof.Machine.execFtSer s
  | .ftDes => Sys2Proof.Machine.execFtDes s
  | .encInit => Sys2Proof.Machine.execEncInit s
  | .encSym sym => Sys2Proof.Machine.execEncSym sym s
  | .encFin => Sys2Proof.Machine.execEncFin s
  | .decInit => Sys2Proof.Machine.execDecInit s
  | .decSym => Sys2Proof.Machine.execDecSym s

end Sys2Proof.Machine
end

