-- ==== Sys2Proof/Machine/Step.lean ====
section
/-! DEFINITION. One step: the device takes the next host input and carries it to its end (45_system.md R230,
R231). -/

namespace Sys2Proof.Machine

/-- Check 1 of the dispatch, then the command (45_system.md R231): an illegal word is refused in every phase. -/
def execWord (w : CmdWord) (s : State) : Host.Outcome State Fault Refusal :=
  match decode w with
  | .error _ => .next (refuse .errIllegal s)
  | .ok i => exec i s

/-- One step (45_system.md R230): one command word presented and answered, or one hardware reset. With nothing
presented there is no step (60_exceptions.md R254: nothing happens between commands). -/
def step (s : State) : Host.Outcome State Fault Refusal :=
  match nextInput s with
  | none => .fault .noCommand
  | some (.hardReset, t) => .next (hardwareReset t)
  | some (.word w, t) => execWord w t

/-- `s` with the given word presented next on the command port (30_encoding.md R90: the device fetches nothing,
the host presents each word; log 4). A number that is no 16-bit word presents nothing new. -/
def State.withFetchWord (s : State) (nbits w : Nat) : State :=
  match tableWord nbits w with
  | none => s
  | some cw => { s with ports := { s.ports with host := .word cw :: s.ports.host } }

end Sys2Proof.Machine
end

