-- ==== Sys2Proof/Safety.lean ====
section
/-! DEFINITION. The terms claims are stated in: the invariants of a safe run (10_state.md R28, R38; 42_interval.md
R177; 43_encoder.md R198; 45_system.md R238), the acceptance table (45_system.md R232), and the rules' own readings
of a bit sequence, a header and the renormalisation loop over natural numbers. No step reads any of it. -/

namespace Sys2Proof.Machine

/-! ### Intervals (42_interval.md R177) -/

/-- What holds of an engine's interval at every point: 1 <= Range <= 2^31 and Lower + Range <= 2^32. -/
abbrev IntervalOk (lower range : Word32) : Prop :=
  1 ≤ range.toNat ∧ range.toNat ≤ Config.halfMax ∧ lower.toNat + range.toNat ≤ Config.fullMax

/-- What holds of it in addition once a renormalisation loop has ended: Range > 2^30. -/
abbrev IntervalSettled (lower range : Word32) : Prop :=
  Config.quarterMax < range.toNat ∧ range.toNat ≤ Config.halfMax ∧ lower.toNat + range.toNat ≤ Config.fullMax

/-- The decoder's Value lies in its interval (44_decoder.md R215). -/
abbrev ValueInside (d : Decoder) : Prop :=
  d.lower.toNat ≤ d.value.toNat ∧ d.value.toNat < d.lower.toNat + d.range.toNat

/-! ### The frequency unit -/

/-- The table invariant (10_state.md R38). -/
abbrev TablePartition (f : FreqTable) : Prop :=
  f.tabN.toNat ≤ Config.alphaMax ∧
  (0 < f.tabN.toNat → (f.entry 0).low = 0#64) ∧
  (∀ i < f.tabN.toNat, (f.entry i).high.toNat = (f.entry i).low.toNat + (f.entry i).cnt.toNat) ∧
  (∀ i < f.tabN.toNat, i + 1 < f.tabN.toNat → (f.entry i).high = (f.entry (i + 1)).low) ∧
  (0 < f.tabN.toNat → (f.entry (f.tabN.toNat - 1)).high = f.total) ∧
  (f.tabN.toNat = 0 → f.total = 0#64) ∧
  (∀ i < f.tabN.toNat, 1 ≤ (f.entry i).cnt.toNat) ∧
  (∀ i < f.tabN.toNat, ∀ j < i, (f.entry i).sym ≠ (f.entry j).sym)

/-- What counting keeps (41_frequency_table.md R143): the first NSEEN entries of ORD are the symbols with a count,
each once, and TOTAL is the sum of the counts. -/
abbrev CountsAgree (f : FreqTable) : Prop :=
  f.nseen.toNat ≤ Config.alphaMax ∧
  f.firstSeen.Nodup ∧
  (∀ k < 256, f.count (BitVec.ofNat 8 k) ≠ 0#64 ↔ BitVec.ofNat 8 k ∈ f.firstSeen) ∧
  (f.firstSeen.map fun b => (f.count b).toNat).sum = f.total.toNat

/-! ### The write side of the bit packer -/

/-- Bits of WACC below and at WIDX are 0 (10_state.md R28). -/
abbrev WriteSideClean (e : Encoder) : Prop := e.wacc.toNat % 2 ^ (e.widx.toNat + 1) = 0

/-- The bits of a byte, most significant first (20_memory.md R66, R67). -/
def byteBits (b : Byte) : List Bool := (List.range 8).map fun i => b.getLsbD (7 - i)

/-- The 31 - WIDX bits that wait in WACC, first written first (10_state.md R30). -/
def waitingBits (e : Encoder) : List Bool :=
  (List.range (31 - e.widx.toNat)).map fun i => e.wacc.getLsbD (31 - i)

/-- Every bit the device has written so far: those in the sink, then those that wait in WACC (20_memory.md R67,
10_state.md R30). -/
def writtenBits (s : State) : List Bool := s.sinkBytes.flatMap byteBits ++ waitingBits s.enc

/-! ### The invariant of every reachable state -/

/-- The phases that read a table (45_system.md R238). -/
abbrev ReadsTable (p : Phase) : Prop :=
  p = .built ∨ p = .hdrOut ∨ p = .encoding ∨ p = .loaded ∨ p = .decoding

/-- Phase safety (45_system.md R238). PHASE has only the eight values of R20 by its type. -/
abbrev PhaseSafe (s : State) : Prop :=
  (ReadsTable s.phase → s.ft.tabValid = true ∧ TablePartition s.ft) ∧
  (s.phase = .encoding → s.enc.count.toNat ≤ s.ft.total.toNat) ∧
  (s.phase = .decoding → s.dec.count.toNat < s.ft.total.toNat) ∧
  (s.phase = .fault ↔ s.fcause ≠ none)

/-- The invariant of the frequency unit: the table invariant whenever TAB_VALID = 1 (10_state.md R38), the counting
invariant while counting, the bounds of R35 and R37. -/
abbrev TableSafe (s : State) : Prop :=
  s.ft.nseen.toNat ≤ Config.alphaMax ∧ s.ft.tabN.toNat ≤ Config.alphaMax ∧
  (s.ft.tabValid = true → TablePartition s.ft) ∧
  (s.phase = .counting → s.ft.tabValid = false ∧ CountsAgree s.ft)

/-- The invariant of the two engines (42_interval.md R177; 43_encoder.md R198 (b); 10_state.md R28). In FAULT the
interval may be the one before or between the passes of the interrupted loop. -/
abbrev EnginesSafe (s : State) : Prop :=
  IntervalOk s.enc.lower s.enc.range ∧ IntervalOk s.dec.lower s.dec.range ∧
  (s.phase ≠ .fault → IntervalSettled s.enc.lower s.enc.range ∧ IntervalSettled s.dec.lower s.dec.range ∧
    WriteSideClean s.enc) ∧
  (s.phase = .encoding → s.enc.lower = 0#32 → s.enc.pend = 0#64)

/-- The invariant every step keeps. -/
abbrev Invariant (s : State) : Prop := PhaseSafe s ∧ TableSafe s ∧ EnginesSafe s

/-- The states some sequence of steps leaves, from reset with any host inputs and any environment answers
scheduled. -/
inductive Reachable : State → Prop where
  | start (p : Ports) : Reachable { State.reset with ports := p }
  | next (s t : State) : Reachable s → step s = .next t → Reachable t

/-! ### Acceptance and the phase a command leaves (45_system.md R232) -/

/-- The two commands that run in every phase (45_system.md R231). -/
def isSystem : Instr → Bool
  | .reset => true
  | .rdsr _ => true
  | _ => false

/-- "Accepted when" (45_system.md R232), the table's second column. -/
def AcceptedWhen (i : Instr) (s : State) : Prop :=
  match i with
  | .reset => True
  | .rdsr _ => True
  | .ftClear => s.phase = .idle
  | .ftCount _ => s.phase = .counting
  | .ftBuild => s.phase = .counting
  | .ftSer => s.phase = .built
  | .ftDes => s.phase = .idle
  | .encInit => s.phase = .hdrOut
  | .encSym _ => s.phase = .encoding ∧ s.enc.count.toNat < s.ft.total.toNat
  | .encFin => s.phase = .encoding ∧ s.enc.count = s.ft.total
  | .decInit => s.phase = .loaded
  | .decSym => s.phase = .decoding

/-- "Next phase" (45_system.md R232), the table's third column. -/
def nextPhase (i : Instr) (s : State) : Phase :=
  match i with
  | .reset => .idle
  | .rdsr _ => s.phase
  | .ftClear => .counting
  | .ftCount _ => .counting
  | .ftBuild => .built
  | .ftSer => .hdrOut
  | .ftDes => .loaded
  | .encInit => .encoding
  | .encSym _ => .encoding
  | .encFin => .idle
  | .decInit => if s.ft.total = 0#64 then .idle else .decoding
  | .decSym => if s.dec.count.toNat + 1 < s.ft.total.toNat then .decoding else .idle

/-- The causes a command can raise (60_exceptions.md R251, the column "Raised by"). -/
def causesOf : Instr → List Cause
  | .reset => []
  | .rdsr _ => []
  | .ftClear => []
  | .ftCount _ => [.counterOverflow]
  | .ftBuild => []
  | .ftSer => [.ioSink]
  | .ftDes => [.hdrTruncated, .hdrAlphaRange, .hdrZeroCount, .hdrDupSymbol, .hdrSumMismatch, .ioSource]
  | .encInit => []
  | .encSym _ => [.symNotInTable, .zeroRange, .counterOverflow, .ioSink]
  | .encFin => [.ioSink]
  | .decInit => [.ioSource]
  | .decSym => [.noCdfMatch, .ioSource, .ioSink]

/-! ### The environment -/

/-- The sink refuses nothing that is still scheduled. -/
abbrev SinkOpen (s : State) : Prop := ∀ a ∈ s.ports.sink, a = SinkAnswer.ok

/-- The source neither fails nor falls silent in what is still scheduled. -/
abbrev SourceOpen (s : State) : Prop := ∀ a ∈ s.ports.source, a ≠ SrcAnswer.err ∧ a ≠ SrcAnswer.never

/-- `t` has made no transaction since `s` and has given one response. -/
abbrev OnlyAnswers (s t : State) (code : RespCode) (data : Word64) : Prop :=
  t.ports = { s.ports with trace := s.ports.trace ++ [.response ⟨code, data⟩] }

/-- Nothing but the response differs: what a refusal does (60_exceptions.md R258). -/
abbrev RefusedWith (s t : State) (code : RespCode) : Prop :=
  t = { s with ports := { s.ports with trace := s.ports.trace ++ [.response ⟨code, 0#64⟩] } }

/-- `s` after the next host input is taken off the command port: the remaining inputs are `rest` and the trace
shows `e`. -/
def withInputTaken (s : State) (e : Event) (rest : List HostInput) : State :=
  { s with ports := { s.ports with host := rest, trace := s.ports.trace ++ [e] } }

/-- `s` after the bytes are accepted by the sink, one SinkPut each answered Ok. -/
def withSinkBytes (s : State) (bs : List Byte) : State :=
  { s with
    ports :=
      { s.ports with
        sink := s.ports.sink.drop bs.length
        trace := s.ports.trace ++ bs.map fun b => .sinkPut b .ok } }

/-- `s` after SrcGets that gave the answers `as`, which leave `rest` scheduled. -/
def withSourceAnswers (s : State) (as : List SrcAnswer) (rest : List SrcAnswer) : State :=
  { s with ports := { s.ports with source := rest, trace := s.ports.trace ++ as.map .srcGet } }

/-- Every register and array has the value of the reset table (70_reset_and_hazards.md R280), row by row. -/
abbrev AtReset (s : State) : Prop :=
  s.phase = .idle ∧ s.fcause = none ∧ s.ft.tabValid = false ∧ s.dec.srcEos = false ∧
  s.ft.cnt.toList = List.replicate 256 0#64 ∧ s.ft.ord.toList = List.replicate 256 0#8 ∧
  s.ft.nseen = 0#9 ∧ s.ft.total = 0#64 ∧ s.ft.tabN = 0#9 ∧
  s.ft.tab.toList = List.replicate 256 ⟨0#8, 0#64, 0#64, 0#64⟩ ∧
  s.enc.lower = 0#32 ∧ s.dec.lower = 0#32 ∧ s.enc.range = 0x80000000#32 ∧ s.dec.range = 0x80000000#32 ∧
  s.enc.pend = 0#64 ∧ s.enc.count = 0#64 ∧ s.dec.count = 0#64 ∧ s.dec.value = 0#32 ∧
  s.enc.wacc = 0#32 ∧ s.dec.rbuf = 0#32 ∧ s.enc.widx = 31#5 ∧ s.dec.ridx = 31#5

/-- The payload's next `n` bytes: those the source still gives before its first EOS, then zeros without end; zeros
only once SRC_EOS is 1 (40_bitpacker.md R125). -/
def paddedBytes : Nat → Bool → List SrcAnswer → List Byte
  | 0, _, _ => []
  | n + 1, true, as => 0#8 :: paddedBytes n true as
  | n + 1, false, .byte b :: as => b :: paddedBytes n false as
  | n + 1, false, _ => 0#8 :: paddedBytes n true []

/-- The bits left in RBUF (10_state.md R29: RIDX = 31 means none). -/
def bitsLeft (d : Decoder) : Nat := if d.ridx = 31#5 then 0 else d.ridx.toNat + 1

/-- The j-th bit ReadBit will give from here (40_bitpacker.md R128): first the bits left in RBUF, then the
payload's bytes, most significant bit first, extended with zeros without end. -/
def upcomingBit (s : State) (j : Nat) : Bool :=
  if j < bitsLeft s.dec then s.dec.rbuf.getLsbD (s.dec.ridx.toNat - j)
  else
    let q := (j - bitsLeft s.dec) / 8
    ((paddedBytes (q + 1) s.dec.srcEos s.ports.source).getD q 0#8).getLsbD (7 - (j - bitsLeft s.dec) % 8)

/-! ### The rules' formulas over natural numbers -/

/-- The number whose big-endian bytes these are: the sum of b_k * 2^(8(n-1-k)) (20_memory.md R65). -/
def bigEndian : List Byte → Nat
  | [] => 0
  | b :: bs => b.toNat * 2 ^ (8 * bs.length) + bigEndian bs

/-- A (symbol, count) pair in the header (30_encoding.md R101). -/
def pairBytes (p : Byte × Word64) : List Byte :=
  p.1 :: (List.range 8).map fun k => p.2.extractLsb' (8 * (7 - k)) 8

/-- The eight bytes of total_symbols (30_encoding.md R101). -/
def totalBytes (total : Word64) : List Byte := (List.range 8).map fun k => total.extractLsb' (8 * (7 - k)) 8

/-- A header up to its pairs so far (30_encoding.md R101): total_symbols, alphabet_count, these pairs, all integers
big-endian. -/
def headerStart (total : Word64) (n : BitVec 16) (pairs : List (Byte × Word64)) : List Byte :=
  totalBytes total ++ ((List.range 2).map fun k => n.extractLsb' (8 * (1 - k)) 8) ++ pairs.flatMap pairBytes

/-- A header (30_encoding.md R101): alphabet_count is the number of its pairs. -/
def headerOf (total : Word64) (pairs : List (Byte × Word64)) : List Byte :=
  headerStart total (BitVec.ofNat 16 pairs.length) pairs

/-- The pairs of a header are well formed (30_encoding.md R102): at most 256, counts at least 1, symbols
distinct, counts summing to total_symbols. -/
abbrev PairsWellFormed (total : Word64) (pairs : List (Byte × Word64)) : Prop :=
  pairs.length ≤ Config.alphaMax ∧ (∀ p ∈ pairs, 1 ≤ p.2.toNat) ∧ (pairs.map Prod.fst).Nodup ∧
  (pairs.map fun p => p.2.toNat).sum = total.toNat

/-- The pairs read so far pass the three checks FT_DES makes of each pair (41_frequency_table.md R148): counts at
least 1, symbols distinct, a running sum within total_symbols. -/
abbrev PairsPass (total : Word64) (pairs : List (Byte × Word64)) : Prop :=
  (∀ p ∈ pairs, 1 ≤ p.2.toNat) ∧ (pairs.map Prod.fst).Nodup ∧ (pairs.map fun p => p.2.toNat).sum ≤ total.toNat

/-- The state FT_DES faults in (60_exceptions.md R251, "State at the raise"; R256): SRC_EOS = 0, TAB_VALID = 0, TAB_N
kept, TOTAL as given, the entries of the pairs that passed written and no other, the answers consumed. -/
abbrev HeaderFault (s t : State) (c : Cause) (total : Word64) (pairs : List (Byte × Word64))
    (consumed rest : List SrcAnswer) : Prop :=
  t.phase = .fault ∧ t.fcause = some c ∧
  t.ft = { s.ft with total := total, tabValid := false, tab := t.ft.tab } ∧
  (∀ i (h : i < pairs.length),
    t.ft.entry i =
      ⟨pairs[i].1, pairs[i].2,
        BitVec.ofNat 64 ((pairs.take i).map fun p => p.2.toNat).sum,
        BitVec.ofNat 64 ((pairs.take (i + 1)).map fun p => p.2.toNat).sum⟩) ∧
  (∀ i, pairs.length ≤ i → t.ft.entry i = s.ft.entry i) ∧
  t.dec = { s.dec with srcEos := false } ∧ t.enc = s.enc ∧
  OnlyAnswers (withSourceAnswers s consumed rest) t
    (if c = .ioSink ∨ c = .ioSource then .faultIo else .faultFormat) (c.code.setWidth 64)

/-- The case of an interval (42_interval.md R174), over natural numbers. -/
def caseOf (l r : Nat) : IntervalCase :=
  if l + r ≤ 2 ^ 31 then .e1 else if 2 ^ 31 ≤ l then .e2 else .e3

/-- The offset of a case (42_interval.md R175), over natural numbers. -/
def offsetValue : IntervalCase → Nat
  | .e1 => 0
  | .e2 => 2 ^ 31
  | .e3 => 2 ^ 30

/-- The renormalisation loop (42_interval.md R176) over natural numbers, at most `n` passes: the cases taken in
order, the final Lower, the final Range. -/
def renorm : Nat → Nat → Nat → List IntervalCase × Nat × Nat
  | 0, l, r => ([], l, r)
  | n + 1, l, r =>
    if r ≤ 2 ^ 30 then
      let c := caseOf l r
      let rest := renorm n (2 * (l - offsetValue c)) (2 * r)
      (c :: rest.1, rest.2)
    else ([], l, r)

/-- Value through a run of passes (44_decoder.md R213): at each pass the case's offset is subtracted, the rest
doubled and the next bit added; `bits j` is the j-th bit read. -/
def shiftIn : List IntervalCase → (Nat → Bool) → Nat → Nat
  | [], _, v => v
  | c :: cs, bits, v =>
    shiftIn cs (fun j => bits (j + 1)) (2 * (v - offsetValue c) + (if bits 0 then 1 else 0))

/-- floor(R * bound / total) (42_interval.md R173). -/
def scaled (range : Word32) (bound total : Word64) : Nat := range.toNat * bound.toNat / total.toNat

/-- The bits Emit writes for a resolved bit with k outstanding (43_encoder.md R191). -/
def resolvedBits (k : Nat) (b : Bool) : List Bool := b :: List.replicate k (!b)

/-- The bits a run of passes writes and the outstanding bits it leaves (43_encoder.md R193). -/
def passBits : List IntervalCase → Nat → List Bool × Nat
  | [], k => ([], k)
  | .e1 :: cs, k => (resolvedBits k false ++ (passBits cs 0).1, (passBits cs 0).2)
  | .e2 :: cs, k => (resolvedBits k true ++ (passBits cs 0).1, (passBits cs 0).2)
  | .e3 :: cs, k => passBits cs (k + 1)

/-- m of 43_encoder.md R195: ceil(Lower / 2^30). -/
def quarterCeil (lower : Word32) : Nat := (lower.toNat + 2 ^ 30 - 1) / 2 ^ 30

/-- The trailer's bits for m with k outstanding (43_encoder.md R195, the corner cases by m). -/
def trailerBitsFor (m k : Nat) : List Bool :=
  resolvedBits k (m.testBit 1) ++ [m.testBit 0] ++ List.replicate 6 false

/-! ### A sink that refuses a byte inside a command -/

/-- The sink accepts the next m bytes and refuses the one after them. -/
abbrev RefusesByte (s : State) (m : Nat) : Prop :=
  (∀ a ∈ s.ports.sink.take m, a = SinkAnswer.ok) ∧ s.ports.sink[m]? = some .err

/-- How many bits can be written before the bit that fills the word holding byte m (20_memory.md R67; 10_state.md
R30: 31 - WIDX bits wait already). -/
def bitsBefore (s : State) (m : Nat) : Nat := 32 * (m / 4) + s.enc.widx.toNat

/-- The sink refuses no byte of the words that `n` more bits fill. -/
abbrev SinkTakes (s : State) (n : Nat) : Prop :=
  SinkOpen s ∨ ∃ m, RefusesByte s m ∧ n ≤ bitsBefore s m

/-- The bits of a word, most significant first. -/
def wordBits (w : Word32) : List Bool := (List.range 32).map fun i => w.getLsbD (31 - i)

/-- The state after IO_SINK at byte m while `bits` were being written (40_bitpacker.md R121; 60_exceptions.md R251,
R256, R257): the bytes before it are in the sink, WACC is the full word that holds it, and nothing outside the encoder
has changed but FCAUSE and PHASE. -/
abbrev StoppedAtByte (s t : State) (bits : List Bool) (m : Nat) : Prop :=
  t.phase = .fault ∧ t.fcause = some .ioSink ∧ t.ft = s.ft ∧ t.dec = s.dec ∧
  t.sinkBytes.flatMap byteBits =
    (writtenBits s ++ bits.take (bitsBefore s m + 1)).take (8 * (s.sinkBytes.length + m)) ∧
  wordBits t.enc.wacc =
    (writtenBits s ++ bits.take (bitsBefore s m + 1)).drop (8 * s.sinkBytes.length + 32 * (m / 4)) ∧
  t.ports.host = s.ports.host ∧ t.ports.source = s.ports.source ∧
  t.ports.sink = s.ports.sink.drop (m + 1) ∧ t.responses = s.responses ++ [⟨.faultIo, 0x40#64⟩]

end Sys2Proof.Machine
end

