-- ==== Sys2Proof/Certificates/Slice0/Obligations.lean ====
section
/-! DEFINITION. The statements about the model, each from the numbered rules of spec/. -/

open Sys2Proof Sys2Proof.Machine

/-! ### Command words (30_encoding.md) -/

/-- R92, R93: a word of every family, written out from the table, decodes to its command. -/
def Obligations.WordsDecodeToTheirCommands : Prop :=
  decode 0x0100#16 = .ok .reset ∧ decode 0x020D#16 = .ok (.rdsr 13#8) ∧
  decode 0x1000#16 = .ok .ftClear ∧ decode 0x1161#16 = .ok (.ftCount 0x61#8) ∧
  decode 0x1400#16 = .ok .ftDes ∧ decode 0x2162#16 = .ok (.encSym 0x62#8) ∧
  decode 0x2200#16 = .ok .encFin ∧ decode 0x3000#16 = .ok .decInit ∧ decode 0x3100#16 = .ok .decSym

/-- R92, R95: decoding the word of any legal command gives that command back, with every operand. -/
def Obligations.DecodingUndoesEncoding : Prop :=
  ∀ i : Instr, i.wellFormed = true → decode (encode i) = .ok i

/-- D29 of 92_eei_decisions.md: the decoder is injective. A word that decodes is the word of the legal command it
decodes to, so no bit of it is dropped. -/
def Obligations.EncodingUndoesDecoding : Prop :=
  ∀ (w : CmdWord) (i : Instr), decode w = .ok i → encode i = w ∧ i.wellFormed = true

/-- R95: the legal words, and what the device does with every other word in every phase. -/
def Obligations.LegalWordsAndIllegalOnesRefused : Prop :=
  ∀ w : CmdWord,
    ((∃ i, decode w = .ok i) ↔
      w.toNat / 256 ∈ [0x01, 0x02, 0x10, 0x11, 0x12, 0x13, 0x14, 0x20, 0x21, 0x22, 0x30, 0x31] ∧
      (w.toNat / 256 ∉ [0x02, 0x11, 0x21] → w.toNat % 256 = 0) ∧
      (w.toNat / 256 = 0x02 → w.toNat % 256 ≤ 13)) ∧
    ((∀ i, decode w ≠ .ok i) →
      ∀ (s : State) (rest : List HostInput), s.ports.host = .word w :: rest →
        ∃ t, step s = .next t ∧ RefusedWith (withInputTaken s (.command w) rest) t .errIllegal)

/-! ### The step and the dispatch (45_system.md) -/

/-- R230, R90: when the host presents a word that decodes to a command, the step takes the word off the port and is
that command. The list of words to come and the trace are the model's (logs 2 and 4). -/
def Obligations.StepRunsTheDecodedCommand : Prop :=
  ∀ (s : State) (w : CmdWord) (rest : List HostInput) (i : Instr),
    s.ports.host = .word w :: rest → decode w = .ok i →
      step s = exec i (withInputTaken s (.command w) rest)

/-- R77, R254 (stops of the model, log 3): with no word presented, and with a transaction that is never answered,
there is no next state. -/
def Obligations.NoStepWithoutAnInputOrAnAnswer : Prop :=
  (∀ s : State, s.ports.host = [] → step s = .fault .noCommand) ∧
  (∀ s rest, s.phase = .idle → s.ports.source = .never :: rest → exec .ftDes s = .fault .sourceSilent) ∧
  (∀ s rest, s.phase = .loaded → s.dec.srcEos = false → s.ports.source = .never :: rest →
    exec .decInit s = .fault .sourceSilent) ∧
  (∀ s rest, s.phase = .built → s.ports.sink = .never :: rest → exec .ftSer s = .fault .sinkSilent)

/-- R231: the dispatch, check by check, for every word and every state. That a transaction which is never answered
stops the machine by name is the model's choice (log 3). -/
def Obligations.DispatchInTheStatedOrder : Prop :=
  ∀ (w : CmdWord) (s : State),
    ((∀ i, decode w ≠ .ok i) → ∃ t, execWord w s = .next t ∧ RefusedWith s t .errIllegal) ∧
    (decode w = .ok .reset → ∃ t, execWord w s = .next t ∧ AtReset t ∧ OnlyAnswers s t .ok 0#64) ∧
    (∀ n, decode w = .ok (.rdsr n) →
      ∃ t, execWord w s = .next t ∧ t = { s with ports := t.ports } ∧
        OnlyAnswers s t .ok (statusRegister n.toNat s)) ∧
    (∀ i, decode w = .ok i → isSystem i = false → s.phase = .fault →
      ∃ t, execWord w s = .next t ∧ RefusedWith s t .errFaulted) ∧
    (∀ i, decode w = .ok i → isSystem i = false → s.phase ≠ .fault → ¬ AcceptedWhen i s →
      ∃ t, execWord w s = .next t ∧ RefusedWith s t .errSeq) ∧
    (∀ i, decode w = .ok i → isSystem i = false → s.phase ≠ .fault → AcceptedWhen i s →
      execWord w s = .fault .sourceSilent ∨ execWord w s = .fault .sinkSilent ∨
      ∃ t, execWord w s = .next t ∧
        ((t.phase ≠ .fault ∧ t.fcause = s.fcause ∧
            t.ports.trace.getLast? = some (.response ⟨.ok, 0#64⟩)) ∨
         (∃ c, t.phase = .fault ∧ t.fcause = some c ∧
            t.ports.trace.getLast? =
              some (.response ⟨if c = .ioSink ∨ c = .ioSource then .faultIo else .faultFormat,
                c.code.setWidth 64⟩))))

/-- R232: every pair of a command and a phase. -/
def Obligations.PhaseTransitionsAsTabulated : Prop :=
  ∀ (i : Instr) (s : State),
    (isSystem i = false → s.phase ≠ .fault → ¬ AcceptedWhen i s →
      ∃ t, exec i s = .next t ∧ RefusedWith s t .errSeq) ∧
    (∀ t, AcceptedWhen i s → PhaseSafe s → exec i s = .next t →
      t.phase = nextPhase i s ∨
      (t.phase = .fault ∧ ∃ c, t.fcause = some c ∧
        t.ports.trace.getLast? =
          some (.response ⟨if c = .ioSink ∨ c = .ioSource then .faultIo else .faultFormat,
            c.code.setWidth 64⟩)))

/-- R235, R280, R281: the reset state row by row; RESET and the hardware reset both leave it, from every state, and
neither touches a stream. How the hardware reset is presented, and that it gives no response, is the model's choice
(log 12). -/
def Obligations.BothResetsLeaveTheTabulatedState : Prop :=
  AtReset State.reset ∧
  (∀ n ≤ 13, (statusRegister n State.reset).toNat =
    if n = 4 ∨ n = 9 then 0x80000000 else if n = 7 ∨ n = 12 then 0x1F00000000 else 0) ∧
  (∀ s : State, ∃ t, exec .reset s = .next t ∧ AtReset t ∧ OnlyAnswers s t .ok 0#64) ∧
  (∀ (s : State) (rest : List HostInput), s.ports.host = .hardReset :: rest →
    ∃ t, step s = .next t ∧ AtReset t ∧ t.ports = (withInputTaken s .hardReset rest).ports)

/-- R236: RDSR answers the register in every phase, changes nothing and makes no transaction; a number above 13 is
an illegal word. -/
def Obligations.RdsrAnswersTheRegister : Prop :=
  (∀ (n : Byte) (s : State), n.toNat ≤ 13 →
    ∃ t, exec (.rdsr n) s = .next t ∧ t = { s with ports := t.ports } ∧
      OnlyAnswers s t .ok (statusRegister n.toNat s)) ∧
  (∀ n : Byte, 13 < n.toNat → decode (0x02#8 ++ n) = .error (.noSuchRegister n))

/-- R39: the fourteen status registers, each as the number its fields make, unlisted bits 0. -/
def Obligations.StatusRegistersShowTheState : Prop :=
  ∀ s : State,
    (statusRegister 0 s).toNat =
      s.phase.code.toNat + 2 ^ 4 * s.ft.tabValid.toNat + 2 ^ 5 * s.dec.srcEos.toNat +
        2 ^ 8 * (fcauseCode s.fcause).toNat ∧
    (statusRegister 1 s).toNat = s.ft.total.toNat ∧
    (statusRegister 2 s).toNat = s.ft.tabN.toNat ∧
    (statusRegister 3 s).toNat = s.enc.lower.toNat ∧
    (statusRegister 4 s).toNat = s.enc.range.toNat ∧
    (statusRegister 5 s).toNat = s.enc.pend.toNat ∧
    (statusRegister 6 s).toNat = s.enc.count.toNat ∧
    (statusRegister 7 s).toNat = s.enc.wacc.toNat + 2 ^ 32 * s.enc.widx.toNat ∧
    (statusRegister 8 s).toNat = s.dec.lower.toNat ∧
    (statusRegister 9 s).toNat = s.dec.range.toNat ∧
    (statusRegister 10 s).toNat = s.dec.value.toNat ∧
    (statusRegister 11 s).toNat = s.dec.count.toNat ∧
    (statusRegister 12 s).toNat = s.dec.rbuf.toNat + 2 ^ 32 * s.dec.ridx.toNat ∧
    (statusRegister 13 s).toNat = s.ft.nseen.toNat

/-- R20, R94, R251: the codes of the phases, the responses and the causes, and the class bit of a cause. -/
def Obligations.CodesAsTabulated : Prop :=
  [Phase.idle, .counting, .built, .hdrOut, .encoding, .loaded, .decoding, .fault].map (fun p => p.code.toNat) =
    [0, 1, 2, 3, 4, 6, 7, 15] ∧
  [RespCode.ok, .errIllegal, .errSeq, .errFaulted, .faultFormat, .faultIo].map (fun c => c.code.toNat) =
    [0x00, 0x01, 0x02, 0x03, 0x10, 0x11] ∧
  [Cause.hdrTruncated, .hdrAlphaRange, .hdrZeroCount, .hdrDupSymbol, .hdrSumMismatch, .symNotInTable,
    .noCdfMatch, .zeroRange, .counterOverflow, .ioSink, .ioSource].map (fun c => c.code.toNat) =
    [0x01, 0x02, 0x03, 0x04, 0x05, 0x06, 0x07, 0x08, 0x09, 0x40, 0x41] ∧
  fcauseCode none = 0#8 ∧
  ∀ c : Cause, c.code.getLsbD 6 = true ↔ c = .ioSink ∨ c = .ioSource

/-! ### Faults (60_exceptions.md) -/

/-- R256, "Nothing else is written": settling a raise of cause c in state s writes FCAUSE and PHASE, answers the class
and the code, and writes nothing else. What a command has written before its raise is said command by command
(EncSymEncodesOneSymbol, EncFinWritesTrailerAndFlushes, FtSerWritesTheHeader, FtDesRaisesTheFirstFailingCheck,
DecInitReadsTheFirstWord, DecSymDecodesOneSymbol, DecSymSinkErrorKeepsTheCount). -/
def Obligations.FaultEntryWritesCauseAndPhase : Prop :=
  ∀ (c : Cause) (s : State),
    settle (.raise c s) =
      .next
        { s with
          fcause := some c
          phase := .fault
          ports :=
            { s.ports with
              trace := s.ports.trace ++
                [.response ⟨if c.code.getLsbD 6 then .faultIo else .faultFormat, c.code.setWidth 64⟩] } }

/-- R260: in FAULT nothing but a reset changes the device, so FCAUSE keeps the first and only cause. -/
def Obligations.FaultKeepsItsCauseUntilReset : Prop :=
  ∀ s t : State, s.phase = .fault → step s = .next t →
    (∀ rest, s.ports.host ≠ .word 0x0100#16 :: rest) → (∀ rest, s.ports.host ≠ .hardReset :: rest) →
      t = { s with ports := t.ports } ∧ t.ports.source = s.ports.source ∧ t.ports.sink = s.ports.sink

/-- R251, R214, R255: which command can raise which cause, from every safe state; so RESET, RDSR, FT_CLEAR,
FT_BUILD and ENC_INIT never fault, and ZERO_RANGE never comes from DEC_SYM. -/
def Obligations.CausesOnlyFromTheirCommands : Prop :=
  ∀ (i : Instr) (s t : State) (c : Cause), Invariant s → s.phase ≠ .fault → exec i s = .next t →
    t.fcause = some c → t.phase = .fault ∧ c ∈ causesOf i

/-! ### Who writes what (10_state.md section 7; 20_memory.md R60, R62, R72) -/

/-- 10_state.md section 7, the column "Written by": a command that is not listed for a register leaves it
unchanged, whether it completes, faults or is refused. RESET is apart (R235). -/
def Obligations.RegistersWrittenOnlyByTheirCommands : Prop :=
  ∀ (i : Instr) (s t : State), i ≠ .reset → exec i s = .next t →
    (i ≠ .ftClear → (∀ sym, i ≠ .ftCount sym) → t.ft.cnt = s.ft.cnt ∧ t.ft.nseen = s.ft.nseen) ∧
    ((∀ sym, i ≠ .ftCount sym) → t.ft.ord = s.ft.ord) ∧
    (i ≠ .ftClear → (∀ sym, i ≠ .ftCount sym) → i ≠ .ftDes → t.ft.total = s.ft.total) ∧
    (i ≠ .ftBuild → i ≠ .ftDes → t.ft.tabN = s.ft.tabN ∧ t.ft.tab = s.ft.tab) ∧
    (i ≠ .ftClear → i ≠ .ftBuild → i ≠ .ftDes → t.ft.tabValid = s.ft.tabValid) ∧
    (i ≠ .encInit → (∀ sym, i ≠ .encSym sym) →
      t.enc.lower = s.enc.lower ∧ t.enc.range = s.enc.range ∧ t.enc.count = s.enc.count) ∧
    (i ≠ .encInit → (∀ sym, i ≠ .encSym sym) → i ≠ .encFin →
      t.enc.pend = s.enc.pend ∧ t.enc.wacc = s.enc.wacc ∧ t.enc.widx = s.enc.widx) ∧
    (i ≠ .decInit → i ≠ .decSym →
      t.dec.lower = s.dec.lower ∧ t.dec.range = s.dec.range ∧ t.dec.value = s.dec.value ∧
      t.dec.count = s.dec.count ∧ t.dec.rbuf = s.dec.rbuf ∧ t.dec.ridx = s.dec.ridx) ∧
    (i ≠ .ftDes → i ≠ .decInit → i ≠ .decSym → t.dec.srcEos = s.dec.srcEos) ∧
    (t.fcause = s.fcause ∨ t.phase = .fault)

/-- R60: only FT_DES, DEC_INIT and DEC_SYM read the source stream, and only FT_SER, ENC_SYM, ENC_FIN and DEC_SYM
write the sink stream. -/
def Obligations.StreamsReachedOnlyByTheirCommands : Prop :=
  ∀ (i : Instr) (s t : State), exec i s = .next t →
    t.ports.host = s.ports.host ∧
    (i ≠ .ftDes → i ≠ .decInit → i ≠ .decSym → t.ports.source = s.ports.source) ∧
    (i ≠ .ftSer → (∀ sym, i ≠ .encSym sym) → i ≠ .encFin → i ≠ .decSym →
      t.ports.sink = s.ports.sink ∧ t.sinkBytes = s.sinkBytes)

/-- R90, R72: a step shows the word, then the command's transactions, then exactly one response. -/
def Obligations.OneResponseAfterTheTransactions : Prop :=
  ∀ (s t : State) (w : CmdWord) (rest : List HostInput),
    s.ports.host = .word w :: rest → step s = .next t →
      ∃ (evs : List Event) (r : Response),
        t.ports.trace = s.ports.trace ++ [.command w] ++ evs ++ [.response r] ∧
        ∀ e ∈ evs, (∃ a, e = .srcGet a) ∨ (∃ b a, e = .sinkPut b a)

/-- R61, R62, R257: every step only appends to the sink stream and only consumes from the front of the source;
bytes already accepted stay, whatever the step does. -/
def Obligations.StreamsMoveForwardOnly : Prop :=
  ∀ s t : State, step s = .next t →
    s.sinkBytes <+: t.sinkBytes ∧ t.ports.source <:+ s.ports.source ∧ t.ports.sink <:+ s.ports.sink

/-- R230 and log 2: the trace is an output. No step depends on what is in it. -/
def Obligations.TraceIsNeverRead : Prop :=
  ∀ (s t : State) (before : List Event), step s = .next t →
    step { s with ports := { s.ports with trace := before ++ s.ports.trace } } =
      .next { t with ports := { t.ports with trace := before ++ t.ports.trace } }

/-! ### Streams and the bit packer (20_memory.md, 40_bitpacker.md) -/

/-- R61, R62: the answers of one SrcGet and of one SinkPut and what the device does with each. -/
def Obligations.PortAnswersAsStated : Prop :=
  (∀ s b rest, s.ports.source = .byte b :: rest →
    srcGet s = .ok (some b) (withSourceAnswers s [.byte b] rest)) ∧
  (∀ s rest, s.ports.source = .eos :: rest → srcGet s = .ok none (withSourceAnswers s [.eos] rest)) ∧
  (∀ s rest, s.ports.source = .err :: rest → srcGet s = .raise .ioSource (withSourceAnswers s [.err] rest)) ∧
  (∀ s b rest, s.ports.sink = .ok :: rest → sinkPut b s = .ok () (withSinkBytes s [b])) ∧
  (∀ s b rest, s.ports.sink = .err :: rest →
    sinkPut b s = .raise .ioSink
      { s with ports := { s.ports with sink := rest, trace := s.ports.trace ++ [.sinkPut b .err] } })

/-- R64: PutUInt puts the n bytes of v, most significant first; read back big-endian they are v. -/
def Obligations.PutUIntIsBigEndian : Prop :=
  ∀ (n v : Nat) (s : State), v < 2 ^ (8 * n) → SinkOpen s →
    ∃ bs : List Byte, putUInt n v s = .ok () (withSinkBytes s bs) ∧ bs.length = n ∧ bigEndian bs = v ∧
      ∀ k (h : k < bs.length), bs[k].toNat = v / 2 ^ (8 * (n - k - 1)) % 2 ^ 8

/-- R65: GetUIntStrict reads n bytes, the first the most significant; EOS among them raises HDR_TRUNCATED, Err
raises IO_SOURCE, and the bytes read before stay consumed. That a source with nothing scheduled answers EOS is the
model's choice (log 1). -/
def Obligations.GetUIntStrictReadsBigEndian : Prop :=
  ∀ (s : State) (n : Nat) (bs : List Byte) (rest : List SrcAnswer),
    s.ports.source = bs.map .byte ++ rest →
    (bs.length = n →
      getUIntStrict n s = .ok (bigEndian bs) (withSourceAnswers s (bs.map .byte) rest)) ∧
    (bs.length < n → rest = [] →
      getUIntStrict n s = .raise .hdrTruncated (withSourceAnswers s (bs.map .byte ++ [.eos]) [])) ∧
    (∀ more, bs.length < n → rest = .eos :: more →
      getUIntStrict n s = .raise .hdrTruncated (withSourceAnswers s (bs.map .byte ++ [.eos]) more)) ∧
    (∀ more, bs.length < n → rest = .err :: more →
      getUIntStrict n s = .raise .ioSource (withSourceAnswers s (bs.map .byte ++ [.err]) more))

/-- R121: WriteBit, inside a word, on completing a word, and when the sink refuses a byte of the completed word. -/
def Obligations.WriteBitAsStated : Prop :=
  ∀ (b : Bool) (s : State) (acc : Word32),
    acc = (if b then s.enc.wacc ||| (1#32 <<< s.enc.widx.toNat) else s.enc.wacc) →
    (0 < s.enc.widx.toNat →
      writeBit b s = .ok () { s with enc := { s.enc with wacc := acc, widx := s.enc.widx - 1#5 } }) ∧
    (s.enc.widx = 0#5 → SinkOpen s →
      writeBit b s = .ok ()
        { withSinkBytes s
            [acc.extractLsb' 24 8, acc.extractLsb' 16 8, acc.extractLsb' 8 8, acc.extractLsb' 0 8] with
          enc := { s.enc with wacc := 0#32, widx := 31#5 } }) ∧
    (∀ k < 4, s.enc.widx = 0#5 → (∀ a ∈ s.ports.sink.take k, a = .ok) → s.ports.sink[k]? = some .err →
      ∃ t, writeBit b s = .raise .ioSink t ∧ t.enc = { s.enc with wacc := acc, widx := 0#5 } ∧
        t.sinkBytes = s.sinkBytes ++
          [acc.extractLsb' 24 8, acc.extractLsb' 16 8, acc.extractLsb' 8 8, acc.extractLsb' 0 8].take k)

/-- R66, R67, R124: a bit written joins the end of the bit sequence the sink and WACC hold together. -/
def Obligations.WriteBitAppendsOneBit : Prop :=
  ∀ (b : Bool) (s : State), WriteSideClean s.enc → SinkOpen s →
    ∃ t, writeBit b s = .ok () t ∧ writtenBits t = writtenBits s ++ [b] ∧ WriteSideClean t.enc ∧ SinkOpen t ∧
      t = { s with enc := { s.enc with wacc := t.enc.wacc, widx := t.enc.widx }, ports := t.ports } ∧
      t.ports.source = s.ports.source ∧ t.ports.host = s.ports.host

/-- R123: Flush emits a partial word padded with zeros and empties the buffer; with no pending bit it does
nothing. -/
def Obligations.FlushPadsTheLastWord : Prop :=
  ∀ s : State, SinkOpen s →
    (s.enc.widx.toNat < 31 →
      flush s = .ok ()
        { withSinkBytes s
            [s.enc.wacc.extractLsb' 24 8, s.enc.wacc.extractLsb' 16 8, s.enc.wacc.extractLsb' 8 8,
              s.enc.wacc.extractLsb' 0 8] with
          enc := { s.enc with wacc := 0#32, widx := 31#5 } }) ∧
    (s.enc.widx = 31#5 → flush s = .ok () s) ∧
    (WriteSideClean s.enc → s.enc.widx.toNat < 31 →
      ∃ t, flush s = .ok () t ∧
        writtenBits t = writtenBits s ++ List.replicate (s.enc.widx.toNat + 1) false)

/-- R125: GetWordPadded gives the next four payload bytes big-endian, zeros for those the source no longer has;
after the first EOS no SrcGet is made; Err raises IO_SOURCE. That a source with nothing scheduled answers EOS is the
model's choice (log 1). -/
def Obligations.GetWordPaddedAsStated : Prop :=
  (∀ s : State, s.dec.srcEos = true → getWordPadded s = .ok 0#32 s) ∧
  (∀ (s : State) (bs : List Byte) (rest : List SrcAnswer), s.dec.srcEos = false →
    s.ports.source = bs.map .byte ++ rest →
    (bs.length = 4 →
      getWordPadded s =
        .ok (BitVec.ofNat 32 (bigEndian bs)) (withSourceAnswers s (bs.map .byte) rest)) ∧
    (bs.length < 4 → rest.head?.getD .eos = .eos →
      getWordPadded s =
        .ok (BitVec.ofNat 32 (bigEndian bs * 2 ^ (8 * (4 - bs.length))))
          { withSourceAnswers s (bs.map .byte ++ [.eos]) rest.tail with
            dec := { s.dec with srcEos := true } }) ∧
    (bs.length < 4 → rest.head? = some .err →
      getWordPadded s = .raise .ioSource (withSourceAnswers s (bs.map .byte ++ [.err]) rest.tail)))

/-- R126: ReadBit fetches a word exactly when RIDX = 31, gives the bit at RIDX and steps RIDX down, from 0 to 31. -/
def Obligations.ReadBitAsStated : Prop :=
  ∀ s : State,
    (s.dec.ridx ≠ 31#5 →
      readBit s =
        .ok (s.dec.rbuf.getLsbD s.dec.ridx.toNat)
          { s with dec := { s.dec with ridx := if s.dec.ridx = 0#5 then 31#5 else s.dec.ridx - 1#5 } }) ∧
    (∀ w u, s.dec.ridx = 31#5 → getWordPadded s = .ok w u →
      readBit s = .ok (w.getLsbD 31) { u with dec := { u.dec with rbuf := w, ridx := 30#5 } }) ∧
    (∀ c u, s.dec.ridx = 31#5 → getWordPadded s = .raise c u → readBit s = .raise c u)

/-- R128: the bits ReadBit gives are the payload's bits in order, extended with zeros without end. -/
def Obligations.ReadBitGivesThePayloadInOrder : Prop :=
  ∀ s : State, SourceOpen s →
    ∃ t, readBit s = .ok (upcomingBit s 0) t ∧ (∀ j, upcomingBit t j = upcomingBit s (j + 1)) ∧
      SourceOpen t ∧
      t = { s with dec := { s.dec with rbuf := t.dec.rbuf, ridx := t.dec.ridx, srcEos := t.dec.srcEos },
                   ports := t.ports } ∧
      t.ports.sink = s.ports.sink

/-! ### frequency_table_cdf (41_frequency_table.md) -/

/-- R142: FT_CLEAR. -/
def Obligations.FtClearEmptiesTheCounts : Prop :=
  ∀ s : State, s.phase = .idle →
    ∃ t, exec .ftClear s = .next t ∧
      (∀ b, t.ft.count b = 0#64) ∧ t.ft.nseen = 0#9 ∧ t.ft.total = 0#64 ∧ t.ft.tabValid = false ∧
      t.phase = .counting ∧
      t.ft.ord = s.ft.ord ∧ t.ft.tab = s.ft.tab ∧ t.ft.tabN = s.ft.tabN ∧
      t.enc = s.enc ∧ t.dec = s.dec ∧ t.fcause = s.fcause ∧ OnlyAnswers s t .ok 0#64

/-- R143: FT_COUNT counts one symbol and notes a first occurrence; at TOTAL = 2^64 - 1 it faults before any
write. -/
def Obligations.FtCountCountsOneSymbol : Prop :=
  ∀ (s : State) (sym : Byte), s.phase = .counting →
    (s.ft.total.toNat < 2 ^ 64 - 1 →
      ∃ t, exec (.ftCount sym) s = .next t ∧
        (∀ b, t.ft.count b = if b = sym then s.ft.count b + 1#64 else s.ft.count b) ∧
        t.ft.total.toNat = s.ft.total.toNat + 1 ∧
        t.ft.ord =
          (if s.ft.count sym = 0#64 then s.ft.ord.setIfInBounds s.ft.nseen.toNat sym else s.ft.ord) ∧
        t.ft.nseen = (if s.ft.count sym = 0#64 then s.ft.nseen + 1#9 else s.ft.nseen) ∧
        t.ft.tab = s.ft.tab ∧ t.ft.tabN = s.ft.tabN ∧ t.ft.tabValid = s.ft.tabValid ∧
        t.phase = .counting ∧ t.enc = s.enc ∧ t.dec = s.dec ∧ t.fcause = s.fcause ∧
        OnlyAnswers s t .ok 0#64) ∧
    (s.ft.total.toNat = 2 ^ 64 - 1 →
      ∃ t, exec (.ftCount sym) s = .next t ∧ t.ft = s.ft ∧ t.enc = s.enc ∧ t.dec = s.dec ∧
        t.phase = .fault ∧ t.fcause = some .counterOverflow ∧ OnlyAnswers s t .faultFormat 9#64)

/-- R144: FT_BUILD. The order is the stable sort of the first-seen list by descending count: a permutation of it,
descending, and for every count value the symbols with that count stand in first-seen order. The ranges are the
running sums. -/
def Obligations.FtBuildSortsAndAccumulates : Prop :=
  ∀ s : State, s.phase = .counting → s.ft.nseen.toNat ≤ 256 →
    ∃ (t : State) (order : List Byte), exec .ftBuild s = .next t ∧
      order.Perm s.ft.firstSeen ∧
      order.Pairwise (fun a b => (s.ft.count b).toNat ≤ (s.ft.count a).toNat) ∧
      (∀ c, order.filter (fun b => s.ft.count b == c) = s.ft.firstSeen.filter (fun b => s.ft.count b == c)) ∧
      (∀ i (h : i < order.length),
        t.ft.entry i =
          ⟨order[i], s.ft.count order[i],
            BitVec.ofNat 64 ((order.take i).map fun b => (s.ft.count b).toNat).sum,
            BitVec.ofNat 64 ((order.take (i + 1)).map fun b => (s.ft.count b).toNat).sum⟩) ∧
      (∀ i, order.length ≤ i → t.ft.entry i = s.ft.entry i) ∧
      t.ft.tabN = s.ft.nseen ∧ t.ft.tabValid = true ∧ t.phase = .built ∧
      t.ft.cnt = s.ft.cnt ∧ t.ft.ord = s.ft.ord ∧ t.ft.nseen = s.ft.nseen ∧ t.ft.total = s.ft.total ∧
      t.enc = s.enc ∧ t.dec = s.dec ∧ t.fcause = s.fcause ∧ OnlyAnswers s t .ok 0#64

/-- R152: the table invariant of R38 holds after any FT_BUILD, and after any FT_DES that answered OK. -/
def Obligations.TablesPartitionTheTotal : Prop :=
  (∀ s : State, s.phase = .counting → CountsAgree s.ft →
    ∃ t, exec .ftBuild s = .next t ∧ TablePartition t.ft) ∧
  (∀ s t : State, s.phase = .idle → exec .ftDes s = .next t → t.phase = .loaded → TablePartition t.ft)

/-- R146: FT_SER writes the header of R101 and nothing else; at the first refused byte it faults with the bytes
before it in the sink. -/
def Obligations.FtSerWritesTheHeader : Prop :=
  ∀ (s : State) (hdr : List Byte), s.phase = .built → s.ft.tabN.toNat ≤ 256 →
    hdr = headerOf s.ft.total (s.ft.entries.map fun e => (e.sym, e.cnt)) →
    hdr.length = 10 + 9 * s.ft.tabN.toNat ∧
    ((∀ a ∈ s.ports.sink.take hdr.length, a = .ok) →
      ∃ t, exec .ftSer s = .next t ∧ t.phase = .hdrOut ∧ t.ft = s.ft ∧ t.enc = s.enc ∧ t.dec = s.dec ∧
        t.fcause = s.fcause ∧ OnlyAnswers (withSinkBytes s hdr) t .ok 0#64) ∧
    (∀ k (h : k < hdr.length), (∀ a ∈ s.ports.sink.take k, a = .ok) → s.ports.sink[k]? = some .err →
      ∃ t, exec .ftSer s = .next t ∧ t.phase = .fault ∧ t.fcause = some .ioSink ∧ t.ft = s.ft ∧
        t.enc = s.enc ∧ t.dec = s.dec ∧ t.ports.source = s.ports.source ∧ t.ports.host = s.ports.host ∧
        t.ports.sink = s.ports.sink.drop (k + 1) ∧
        t.ports.trace = s.ports.trace ++ (hdr.take k).map (fun b => .sinkPut b .ok) ++
          [.sinkPut hdr[k] .err, .response ⟨.faultIo, 0x40#64⟩])

/-- R148, R101: FT_DES of a well-formed header loads exactly its pairs, with the ranges accumulated in header
order, and consumes exactly the header. -/
def Obligations.FtDesLoadsTheHeader : Prop :=
  ∀ (s : State) (total : Word64) (pairs : List (Byte × Word64)) (rest : List SrcAnswer),
    s.phase = .idle → PairsWellFormed total pairs →
    s.ports.source = (headerOf total pairs).map .byte ++ rest →
    ∃ t, exec .ftDes s = .next t ∧ t.phase = .loaded ∧ t.ft.total = total ∧
      t.ft.tabN.toNat = pairs.length ∧ t.ft.tabValid = true ∧
      (∀ i (h : i < pairs.length),
        t.ft.entry i =
          ⟨pairs[i].1, pairs[i].2,
            BitVec.ofNat 64 ((pairs.take i).map fun p => p.2.toNat).sum,
            BitVec.ofNat 64 ((pairs.take (i + 1)).map fun p => p.2.toNat).sum⟩) ∧
      (∀ i, pairs.length ≤ i → t.ft.entry i = s.ft.entry i) ∧
      t.ft.cnt = s.ft.cnt ∧ t.ft.ord = s.ft.ord ∧ t.ft.nseen = s.ft.nseen ∧
      t.dec = { s.dec with srcEos := false } ∧ t.enc = s.enc ∧ t.fcause = s.fcause ∧
      OnlyAnswers (withSourceAnswers s ((headerOf total pairs).map .byte) rest) t .ok 0#64

/-- R102: for every source of finitely many bytes, FT_DES accepts exactly when the bytes begin with a well-formed
header, and faults with one of the five header causes otherwise. That the source answers EOS after its last byte is
the model's choice (log 1). -/
def Obligations.HeaderAcceptedExactlyWhenWellFormed : Prop :=
  ∀ (s : State) (bs : List Byte), s.phase = .idle → s.ports.source = bs.map .byte →
    ∃ t, exec .ftDes s = .next t ∧
      (t.phase = .loaded ↔
        ∃ (total : Word64) (pairs : List (Byte × Word64)) (rest : List Byte),
          bs = headerOf total pairs ++ rest ∧ PairsWellFormed total pairs) ∧
      (t.phase ≠ .loaded →
        t.phase = .fault ∧
        ∃ c ∈ [Cause.hdrTruncated, .hdrAlphaRange, .hdrZeroCount, .hdrDupSymbol, .hdrSumMismatch],
          t.fcause = some c)

/-! ### The interval arithmetic (42_interval.md) -/

/-- R173: Narrow computes both offsets exactly from the Range before the step, stays inside the old interval, and
gives nothing exactly when the narrowed Range would be 0. -/
def Obligations.NarrowStaysInside : Prop :=
  ∀ (l r : Word32) (low high total : Word64),
    low.toNat < high.toNat → high.toNat ≤ total.toNat → IntervalOk l r →
    (narrow l r low high total = none ↔ scaled r high total - scaled r low total = 0) ∧
    ∀ l' r', narrow l r low high total = some (l', r') →
      l'.toNat = l.toNat + scaled r low total ∧
      r'.toNat = scaled r high total - scaled r low total ∧
      1 ≤ r'.toNat ∧ r'.toNat ≤ r.toNat ∧ l.toNat ≤ l'.toNat ∧
      l'.toNat + r'.toNat ≤ l.toNat + r.toNat ∧
      (high = total → l'.toNat + r'.toNat = l.toNat + r.toNat) ∧ (low = 0#64 → l' = l)

/-- R179: no zero width when TOTAL <= 2^30 + 1 and Range > 2^30. -/
def Obligations.NoZeroRangeBelowTheBound : Prop :=
  ∀ (l r : Word32) (low high total : Word64),
    low.toNat < high.toNat → high.toNat ≤ total.toNat → IntervalSettled l r → total.toNat ≤ 2 ^ 30 + 1 →
      ∃ l' r', narrow l r low high total = some (l', r')

/-- R174: for 1 <= R <= Q the three cases with their exact boundaries; the sum is not reduced to 32 bits. -/
def Obligations.ClassifyBoundaries : Prop :=
  ∀ l r : Word32, 1 ≤ r.toNat → r.toNat ≤ 2 ^ 30 →
    (classify l r = .e1 ↔ l.toNat + r.toNat ≤ 2 ^ 31) ∧
    (classify l r = .e2 ↔ 2 ^ 31 ≤ l.toNat) ∧
    (classify l r = .e3 ↔ 2 ^ 30 < l.toNat ∧ l.toNat < 2 ^ 31 ∧ 2 ^ 31 < l.toNat + r.toNat) ∧
    (classify l r = .e3 → l.toNat + r.toNat < 2 ^ 31 + 2 ^ 30)

/-- R175: Rescale neither underflows nor overflows in any of the cases Classify gives, and keeps the interval
inside 2^32. -/
def Obligations.RescaleIsExact : Prop :=
  ∀ l r : Word32, 1 ≤ r.toNat → r.toNat ≤ 2 ^ 30 → l.toNat + r.toNat ≤ 2 ^ 32 →
    offsetValue (classify l r) ≤ l.toNat ∧ (classify l r).offset.toNat = offsetValue (classify l r) ∧
    (rescaleLower (classify l r) l).toNat = 2 * (l.toNat - offsetValue (classify l r)) ∧
    (rescaleRange r).toNat = 2 * r.toNat ∧
    IntervalOk (rescaleLower (classify l r) l) (rescaleRange r)

/-- R176: a completed loop of either engine made the least number k of passes with R * 2^k > 2^30, at most 31, and
leaves 2^30 < Range <= 2^31. -/
def Obligations.RenormalisationPassCount : Prop :=
  (∀ s t : State, IntervalOk s.enc.lower s.enc.range → encLoop 31 s = .ok () t →
    ∃ k ≤ 31, t.enc.range.toNat = s.enc.range.toNat * 2 ^ k ∧
      (∀ j < k, s.enc.range.toNat * 2 ^ j ≤ 2 ^ 30) ∧ IntervalSettled t.enc.lower t.enc.range) ∧
  (∀ s t : State, IntervalOk s.dec.lower s.dec.range → decLoop 31 s = .ok () t →
    ∃ k ≤ 31, t.dec.range.toNat = s.dec.range.toNat * 2 ^ k ∧
      (∀ j < k, s.dec.range.toNat * 2 ^ j ≤ 2 ^ 30) ∧ IntervalSettled t.dec.lower t.dec.range)

/-! ### arithmetic_coder_encoder (43_encoder.md) -/

/-- R190: ENC_INIT. -/
def Obligations.EncInitStartsTheEncoder : Prop :=
  ∀ s : State, s.phase = .hdrOut →
    ∃ t, exec .encInit s = .next t ∧
      t.enc.lower = 0#32 ∧ t.enc.range = 0x80000000#32 ∧ t.enc.pend = 0#64 ∧ t.enc.count = 0#64 ∧
      t.enc.wacc = 0#32 ∧ t.enc.widx = 31#5 ∧ t.phase = .encoding ∧
      t.ft = s.ft ∧ t.dec = s.dec ∧ t.fcause = s.fcause ∧ OnlyAnswers s t .ok 0#64

/-- R191: Emit writes the resolved bit, then every outstanding bit as its opposite, and clears the counter. -/
def Obligations.EmitWritesTheFollowBits : Prop :=
  ∀ (b : Bool) (s : State), WriteSideClean s.enc → SinkOpen s →
    ∃ t, emit b s = .ok () t ∧
      writtenBits t = writtenBits s ++ b :: List.replicate s.enc.pend.toNat (!b) ∧
      t.enc.pend = 0#64 ∧ WriteSideClean t.enc ∧ SinkOpen t ∧
      t = { s with enc := { s.enc with pend := 0#64, wacc := t.enc.wacc, widx := t.enc.widx },
                   ports := t.ports } ∧
      t.ports.source = s.ports.source ∧ t.ports.host = s.ports.host

/-- R192, R193: ENC_SYM of a symbol of the table, whose narrowed Range is not 0 and whose leading E3 passes fit the
outstanding-bit counter. With a sink that takes the words it fills, the interval is the narrowed and renormalised one,
the bits written are those of the passes, the outstanding bits are counted. Where the sink refuses byte m of a word it
fills, IO_SINK is raised with the interval as it was before the pass, ENC_PEND the follow bits still unwritten (R191),
ENC_COUNT kept, WIDX = 0 (R121). -/
def Obligations.EncSymEncodesOneSymbol : Prop :=
  ∀ (s : State) (sym : Byte) (e : TabEntry) (cs : List IntervalCase) (l r : Nat),
    s.phase = .encoding → s.enc.count.toNat < s.ft.total.toNat → TablePartition s.ft →
    IntervalSettled s.enc.lower s.enc.range → WriteSideClean s.enc → e ∈ s.ft.entries → e.sym = sym →
    0 < scaled s.enc.range e.high s.ft.total - scaled s.enc.range e.low s.ft.total →
    renorm 31 (s.enc.lower.toNat + scaled s.enc.range e.low s.ft.total)
      (scaled s.enc.range e.high s.ft.total - scaled s.enc.range e.low s.ft.total) = (cs, l, r) →
    s.enc.pend.toNat + (cs.takeWhile (· == .e3)).length < 2 ^ 64 →
    (SinkTakes s (passBits cs s.enc.pend.toNat).1.length →
      ∃ t, exec (.encSym sym) s = .next t ∧
        t.enc.lower.toNat = l ∧ t.enc.range.toNat = r ∧
        t.enc.pend.toNat = (passBits cs s.enc.pend.toNat).2 ∧
        t.enc.count.toNat = s.enc.count.toNat + 1 ∧
        writtenBits t = writtenBits s ++ (passBits cs s.enc.pend.toNat).1 ∧
        WriteSideClean t.enc ∧ IntervalSettled t.enc.lower t.enc.range ∧
        t.phase = .encoding ∧ t.ft = s.ft ∧ t.dec = s.dec ∧ t.fcause = s.fcause ∧
        t.ports.source = s.ports.source ∧ t.ports.host = s.ports.host ∧
        t.responses = s.responses ++ [⟨.ok, 0#64⟩]) ∧
    (∀ m, RefusesByte s m → bitsBefore s m < (passBits cs s.enc.pend.toNat).1.length →
      ∃ (t : State) (done : List IntervalCase) (c : IntervalCase) (left : List IntervalCase) (j : Nat),
        exec (.encSym sym) s = .next t ∧ cs = done ++ c :: left ∧ c ≠ .e3 ∧
        bitsBefore s m = (passBits done s.enc.pend.toNat).1.length + j ∧
        j ≤ (passBits done s.enc.pend.toNat).2 ∧
        (renorm done.length (s.enc.lower.toNat + scaled s.enc.range e.low s.ft.total)
          (scaled s.enc.range e.high s.ft.total - scaled s.enc.range e.low s.ft.total)).2 =
            (t.enc.lower.toNat, t.enc.range.toNat) ∧
        t.enc.pend.toNat = (passBits done s.enc.pend.toNat).2 - (j - 1) ∧
        t.enc.count = s.enc.count ∧ t.enc.widx = 0#5 ∧
        StoppedAtByte s t (passBits cs s.enc.pend.toNat).1 m)

/-- R150, R173, R251: ENC_SYM of a symbol that is not in the table, or whose narrowed Range would be 0, faults
before any write. -/
def Obligations.EncSymFaultsBeforeAnyWrite : Prop :=
  ∀ (s : State) (sym : Byte), s.phase = .encoding → s.enc.count.toNat < s.ft.total.toNat →
    ((∀ e ∈ s.ft.entries, e.sym ≠ sym) →
      ∃ t, exec (.encSym sym) s = .next t ∧ t.phase = .fault ∧ t.fcause = some .symNotInTable ∧
        t.ft = s.ft ∧ t.enc = s.enc ∧ t.dec = s.dec ∧ OnlyAnswers s t .faultFormat 6#64) ∧
    (∀ e ∈ s.ft.entries, TablePartition s.ft → e.sym = sym →
      scaled s.enc.range e.high s.ft.total - scaled s.enc.range e.low s.ft.total = 0 →
      ∃ t, exec (.encSym sym) s = .next t ∧ t.phase = .fault ∧ t.fcause = some .zeroRange ∧
        t.ft = s.ft ∧ t.enc = s.enc ∧ t.dec = s.dec ∧ OnlyAnswers s t .faultFormat 8#64)

/-- R194, R251: where the leading E3 passes of ENC_SYM would take ENC_PEND past 2^64 - 1, the pass that would do so
faults before the increment: the interval is narrowed and rescaled through the passes before it, ENC_PEND = 2^64 - 1,
and nothing has been written to the sink. -/
def Obligations.EncSymFaultsAtTheCounterLimit : Prop :=
  ∀ (s : State) (sym : Byte) (e : TabEntry) (cs : List IntervalCase) (l r : Nat),
    s.phase = .encoding → s.enc.count.toNat < s.ft.total.toNat → TablePartition s.ft →
    IntervalSettled s.enc.lower s.enc.range → e ∈ s.ft.entries → e.sym = sym →
    0 < scaled s.enc.range e.high s.ft.total - scaled s.enc.range e.low s.ft.total →
    renorm 31 (s.enc.lower.toNat + scaled s.enc.range e.low s.ft.total)
      (scaled s.enc.range e.high s.ft.total - scaled s.enc.range e.low s.ft.total) = (cs, l, r) →
    2 ^ 64 ≤ s.enc.pend.toNat + (cs.takeWhile (· == .e3)).length →
    ∃ t, exec (.encSym sym) s = .next t ∧ t.phase = .fault ∧ t.fcause = some .counterOverflow ∧
      (renorm (2 ^ 64 - 1 - s.enc.pend.toNat) (s.enc.lower.toNat + scaled s.enc.range e.low s.ft.total)
        (scaled s.enc.range e.high s.ft.total - scaled s.enc.range e.low s.ft.total)).2 =
          (t.enc.lower.toNat, t.enc.range.toNat) ∧
      t.enc.pend.toNat = 2 ^ 64 - 1 ∧
      t.enc = { s.enc with lower := t.enc.lower, range := t.enc.range, pend := t.enc.pend } ∧
      t.ft = s.ft ∧ t.dec = s.dec ∧ OnlyAnswers s t .faultFormat 9#64

/-- R195: ENC_FIN writes the trailer for m = ceil(ENC_LOWER / 2^30) with the outstanding bits, pads the last word
with zeros, empties the buffer and ends the session; the empty input writes nothing. Where the sink refuses byte k,
IO_SINK is raised in the word that holds it: with WIDX = 0 and the follow bits still unwritten in ENC_PEND if a trailer
bit filled that word (R191, R121), with WIDX as the trailer left it if Flush was putting it (R123). -/
def Obligations.EncFinWritesTrailerAndFlushes : Prop :=
  ∀ s : State, s.phase = .encoding → s.enc.count = s.ft.total → WriteSideClean s.enc →
    IntervalSettled s.enc.lower s.enc.range →
    (∀ (pad : Nat) (bits : List Bool), 0 < s.ft.total.toNat → pad < 32 →
      ((31 - s.enc.widx.toNat) + (8 + s.enc.pend.toNat) + pad) % 32 = 0 →
      bits = trailerBitsFor (quarterCeil s.enc.lower) s.enc.pend.toNat ++ List.replicate pad false →
      (SinkTakes s bits.length →
        ∃ t, exec .encFin s = .next t ∧ writtenBits t = writtenBits s ++ bits ∧
          t.enc = { s.enc with pend := 0#64, wacc := 0#32, widx := 31#5 } ∧
          t.phase = .idle ∧ t.ft = s.ft ∧ t.dec = s.dec ∧ t.fcause = s.fcause ∧
          t.ports.source = s.ports.source ∧ t.ports.host = s.ports.host ∧
          t.responses = s.responses ++ [⟨.ok, 0#64⟩]) ∧
      (∀ k, RefusesByte s k → bitsBefore s k < bits.length →
        ∃ t, exec .encFin s = .next t ∧
          t.enc = { s.enc with pend := t.enc.pend, wacc := t.enc.wacc, widx := t.enc.widx } ∧
          t.enc.pend.toNat = s.enc.pend.toNat - (bitsBefore s k - 1) ∧
          t.enc.widx.toNat =
            (if bitsBefore s k < 8 + s.enc.pend.toNat then 0
             else 31 - ((31 - s.enc.widx.toNat) + (8 + s.enc.pend.toNat)) % 32) ∧
          StoppedAtByte s t bits k)) ∧
    (s.ft.total.toNat = 0 → s.enc.widx = 31#5 →
      ∃ t, exec .encFin s = .next t ∧ t.phase = .idle ∧ t.enc = s.enc ∧ t.ft = s.ft ∧ t.dec = s.dec ∧
        t.fcause = s.fcause ∧ OnlyAnswers s t .ok 0#64)

/-- R197: the terminating code point P = m * 2^30, with m <= 3, lies in the final interval. -/
def Obligations.CodePointInsideTheFinalInterval : Prop :=
  ∀ l r : Word32, IntervalSettled l r →
    quarterCeil l ≤ 3 ∧ codePoint l = quarterCeil l * 2 ^ 30 ∧
    l.toNat ≤ codePoint l ∧ codePoint l < l.toNat + r.toNat ∧
    trailer l = (quarterCeil l).testBit 1 :: (quarterCeil l).testBit 0 :: List.replicate 6 false

/-! ### arithmetic_coder_decoder (44_decoder.md) -/

/-- R210: DEC_INIT reads the first payload word, padded with zeros where the source ends, also when TOTAL = 0. Where
one of its four SrcGets is answered Err, IO_SOURCE is raised with the start values written, DEC_VALUE and SRC_EOS
kept (R251). -/
def Obligations.DecInitReadsTheFirstWord : Prop :=
  ∀ s : State, s.phase = .loaded →
    (SourceOpen s →
      ∃ t, exec .decInit s = .next t ∧
        t.dec.lower = 0#32 ∧ t.dec.range = 0x80000000#32 ∧ t.dec.count = 0#64 ∧ t.dec.rbuf = 0#32 ∧
        t.dec.ridx = 31#5 ∧
        t.dec.value.toNat = bigEndian (paddedBytes 4 s.dec.srcEos s.ports.source) ∧
        t.phase = (if s.ft.total = 0#64 then .idle else .decoding) ∧
        (∀ j, upcomingBit t j = ((paddedBytes (j / 8 + 5) s.dec.srcEos s.ports.source).getD (j / 8 + 4)
          0#8).getLsbD (7 - j % 8)) ∧
        t.ft = s.ft ∧ t.enc = s.enc ∧ t.fcause = s.fcause ∧ t.ports.sink = s.ports.sink ∧
        t.ports.host = s.ports.host ∧ t.sinkBytes = s.sinkBytes ∧
        t.responses = s.responses ++ [⟨.ok, 0#64⟩]) ∧
    (∀ (bs : List Byte) (rest : List SrcAnswer), s.dec.srcEos = false → bs.length < 4 →
      s.ports.source = bs.map .byte ++ .err :: rest →
      ∃ t, exec .decInit s = .next t ∧ t.phase = .fault ∧ t.fcause = some .ioSource ∧
        t.dec = { s.dec with lower := 0#32, range := 0x80000000#32, count := 0#64, rbuf := 0#32, ridx := 31#5 } ∧
        t.ft = s.ft ∧ t.enc = s.enc ∧
        OnlyAnswers (withSourceAnswers s (bs.map .byte ++ [.err]) rest) t .faultIo 0x41#64)

/-- R214: the entry DEC_SYM selects is the one whose sub-interval contains Value; that sub-interval is not empty,
so Narrow does not fail, and Value lies in the narrowed interval. -/
def Obligations.SelectionIsExact : Prop :=
  (∀ (l r v : Word32) (lo hi total : Word64), IntervalOk l r → 0 < total.toNat →
    l.toNat ≤ v.toNat → v.toNat < l.toNat + r.toNat →
    ∃ g, target v l r total = some g ∧ g < total.toNat ∧
      (lo.toNat ≤ g ∧ g < hi.toNat ↔
        l.toNat + scaled r lo total ≤ v.toNat ∧ v.toNat < l.toNat + scaled r hi total)) ∧
  (∀ s : State, TablePartition s.ft → 0 < s.ft.total.toNat → IntervalOk s.dec.lower s.dec.range →
    ValueInside s.dec →
    ∃ e l' r', selectEntry s = some e ∧ e ∈ s.ft.entries ∧
      narrow s.dec.lower s.dec.range e.low e.high s.ft.total = some (l', r') ∧
      l'.toNat ≤ s.dec.value.toNat ∧ s.dec.value.toNat < l'.toNat + r'.toNat)

/-- R212, R213: DEC_SYM with Value inside the interval selects the entry whose sub-interval contains Value. With the
ports open the interval is the narrowed and renormalised one, Value takes one bit per pass, the symbol goes to the
sink, and Value is inside the interval again (R215). Where the ReadBit of a pass is answered Err, IO_SOURCE is raised
with the interval rescaled through that pass and Value through the passes before it; RBUF is kept, no symbol is put and
DEC_COUNT is kept (R212, R126). -/
def Obligations.DecSymDecodesOneSymbol : Prop :=
  ∀ s : State, s.phase = .decoding → s.dec.count.toNat < s.ft.total.toNat → TablePartition s.ft →
    IntervalSettled s.dec.lower s.dec.range → ValueInside s.dec →
    ∃ (e : TabEntry) (cs : List IntervalCase) (l r : Nat), e ∈ s.ft.entries ∧
      s.dec.lower.toNat + scaled s.dec.range e.low s.ft.total ≤ s.dec.value.toNat ∧
      s.dec.value.toNat < s.dec.lower.toNat + scaled s.dec.range e.high s.ft.total ∧
      renorm 31 (s.dec.lower.toNat + scaled s.dec.range e.low s.ft.total)
        (scaled s.dec.range e.high s.ft.total - scaled s.dec.range e.low s.ft.total) = (cs, l, r) ∧
      (SourceOpen s → SinkOpen s →
        ∃ t, exec .decSym s = .next t ∧ t.dec.lower.toNat = l ∧ t.dec.range.toNat = r ∧
          t.dec.value.toNat = shiftIn cs (upcomingBit s) s.dec.value.toNat ∧
          (∀ j, upcomingBit t j = upcomingBit s (j + cs.length)) ∧
          t.dec.count.toNat = s.dec.count.toNat + 1 ∧
          t.phase = (if s.dec.count.toNat + 1 < s.ft.total.toNat then .decoding else .idle) ∧
          IntervalSettled t.dec.lower t.dec.range ∧ ValueInside t.dec ∧
          t.sinkBytes = s.sinkBytes ++ [e.sym] ∧
          t.ft = s.ft ∧ t.enc = s.enc ∧ t.fcause = s.fcause ∧ t.ports.host = s.ports.host ∧
          t.responses = s.responses ++ [⟨.ok, 0#64⟩]) ∧
      (∀ (bs : List Byte) (rest : List SrcAnswer), s.dec.srcEos = false → bs.length < 4 →
        s.ports.source = bs.map .byte ++ .err :: rest → bitsLeft s.dec < cs.length →
        ∃ t, exec .decSym s = .next t ∧ t.phase = .fault ∧ t.fcause = some .ioSource ∧
          (renorm (bitsLeft s.dec + 1) (s.dec.lower.toNat + scaled s.dec.range e.low s.ft.total)
            (scaled s.dec.range e.high s.ft.total - scaled s.dec.range e.low s.ft.total)).2 =
              (t.dec.lower.toNat, t.dec.range.toNat) ∧
          t.dec.value.toNat = shiftIn (cs.take (bitsLeft s.dec)) (upcomingBit s) s.dec.value.toNat ∧
          t.dec = { s.dec with lower := t.dec.lower, range := t.dec.range, value := t.dec.value, ridx := 31#5 } ∧
          t.ft = s.ft ∧ t.enc = s.enc ∧
          OnlyAnswers (withSourceAnswers s (bs.map .byte ++ [.err]) rest) t .faultIo 0x41#64)

/-- R211, R251: DEC_SYM with Value outside the interval, below or above, faults NO_CDF_MATCH before any write. -/
def Obligations.DecSymFaultsOutsideTheInterval : Prop :=
  ∀ s : State, s.phase = .decoding → s.dec.count.toNat < s.ft.total.toNat → TablePartition s.ft →
    IntervalOk s.dec.lower s.dec.range → ¬ ValueInside s.dec →
    ∃ t, exec .decSym s = .next t ∧ t.phase = .fault ∧ t.fcause = some .noCdfMatch ∧
      t.ft = s.ft ∧ t.enc = s.enc ∧ t.dec = s.dec ∧ OnlyAnswers s t .faultFormat 7#64

/-- R215: at DEC_INIT the Value invariant holds from the start exactly when the first payload bit is 0. -/
def Obligations.FirstPayloadBitDecides : Prop :=
  ∀ s t : State, s.phase = .loaded → SourceOpen s → exec .decInit s = .next t →
    (ValueInside t.dec ↔
      ((paddedBytes 4 s.dec.srcEos s.ports.source).getD 0 0#8).getLsbD 7 = false)

/-- R62, R212: when the sink refuses the decoded byte, interval and Value are already those of the next symbol, the
payload stands after the bits of the passes, and DEC_COUNT is not incremented. -/
def Obligations.DecSymSinkErrorKeepsTheCount : Prop :=
  ∀ (s : State) (rest : List SinkAnswer), s.phase = .decoding →
    s.dec.count.toNat < s.ft.total.toNat → TablePartition s.ft →
    IntervalSettled s.dec.lower s.dec.range → ValueInside s.dec → SourceOpen s →
    s.ports.sink = .err :: rest →
    ∃ (t : State) (e : TabEntry) (cs : List IntervalCase) (l r : Nat),
      exec .decSym s = .next t ∧ e ∈ s.ft.entries ∧
      s.dec.lower.toNat + scaled s.dec.range e.low s.ft.total ≤ s.dec.value.toNat ∧
      s.dec.value.toNat < s.dec.lower.toNat + scaled s.dec.range e.high s.ft.total ∧
      renorm 31 (s.dec.lower.toNat + scaled s.dec.range e.low s.ft.total)
        (scaled s.dec.range e.high s.ft.total - scaled s.dec.range e.low s.ft.total) = (cs, l, r) ∧
      t.dec.lower.toNat = l ∧ t.dec.range.toNat = r ∧
      t.dec.value.toNat = shiftIn cs (upcomingBit s) s.dec.value.toNat ∧
      (∀ j, upcomingBit t j = upcomingBit s (j + cs.length)) ∧
      t.dec.count = s.dec.count ∧ t.phase = .fault ∧ t.fcause = some .ioSink ∧
      IntervalSettled t.dec.lower t.dec.range ∧ ValueInside t.dec ∧
      t.sinkBytes = s.sinkBytes ∧ t.ports.sink = rest ∧ t.ports.host = s.ports.host ∧
      t.ft = s.ft ∧ t.enc = s.enc ∧ t.responses = s.responses ++ [⟨.faultIo, 0x40#64⟩]

/-- R217, the step of its induction: with the same table and the same interval, encoding a symbol and decoding a
Value that lies in that symbol's sub-interval give that symbol and leave equal intervals. -/
def Obligations.EncoderAndDecoderStayInLockstep : Prop :=
  ∀ (s d s' d' : State) (sym : Byte) (e : TabEntry),
    s.phase = .encoding → s.enc.count.toNat < s.ft.total.toNat → TablePartition s.ft →
    IntervalSettled s.enc.lower s.enc.range →
    d.phase = .decoding → d.ft.entries = s.ft.entries → d.ft.tabN = s.ft.tabN → d.ft.total = s.ft.total →
    d.dec.lower = s.enc.lower → d.dec.range = s.enc.range →
    e ∈ s.ft.entries → e.sym = sym →
    s.enc.lower.toNat + scaled s.enc.range e.low s.ft.total ≤ d.dec.value.toNat →
    d.dec.value.toNat < s.enc.lower.toNat + scaled s.enc.range e.high s.ft.total →
    exec (.encSym sym) s = .next s' → s'.phase ≠ .fault →
    exec .decSym d = .next d' → d'.phase ≠ .fault →
      d'.dec.lower = s'.enc.lower ∧ d'.dec.range = s'.enc.range ∧ d'.sinkBytes = d.sinkBytes ++ [sym]

/-! ### Invariants -/

/-- 10_state.md R38, 42_interval.md R177, 43_encoder.md R198, 45_system.md R238 at reset. -/
def Obligations.ResetSatisfiesTheInvariant : Prop := Invariant State.reset

/-- R238, R38, R177, R198 (b), R28: every step keeps the invariant, from every state that has it. -/
def Obligations.EveryStepKeepsTheInvariant : Prop :=
  ∀ s t : State, Invariant s → step s = .next t → Invariant t

/-- R238: phase safety in every state reachable from reset, whatever the host presents and the environment
answers. -/
def Obligations.EveryReachableStateIsPhaseSafe : Prop :=
  ∀ s : State, Reachable s → PhaseSafe s

/-! ### FT_DES, check by check -/

/-- R148, R255, R251: which cause FT_DES raises and in which state. A source that ends, or fails, among the bytes of
total_symbols, of alphabet_count or of a pair; an alphabet_count above 256; then for the pair after the ones that
passed, its count 0, else its symbol that of an earlier pair, else a running sum above total_symbols; and after the
last pair a sum below it. That a source with nothing scheduled answers EOS is the model's choice (log 1). -/
def Obligations.FtDesRaisesTheFirstFailingCheck : Prop :=
  ∀ (s : State) (total : Word64) (n : BitVec 16) (pairs : List (Byte × Word64)) (rest : List SrcAnswer),
    s.phase = .idle →
    (∀ (bs : List Byte) (a : SrcAnswer) (c : Cause), rest.headD .eos = a →
      a = .eos ∧ c = .hdrTruncated ∨ a = .err ∧ c = .ioSource →
      (bs.length < 8 → s.ports.source = bs.map .byte ++ rest →
        ∃ t, exec .ftDes s = .next t ∧ HeaderFault s t c s.ft.total [] (bs.map .byte ++ [a]) rest.tail) ∧
      (bs.length < 2 → s.ports.source = (totalBytes total ++ bs).map .byte ++ rest →
        ∃ t, exec .ftDes s = .next t ∧
          HeaderFault s t c total [] ((totalBytes total ++ bs).map .byte ++ [a]) rest.tail) ∧
      (n.toNat ≤ 256 → PairsPass total pairs → pairs.length < n.toNat → bs.length < 9 →
        s.ports.source = (headerStart total n pairs ++ bs).map .byte ++ rest →
        ∃ t, exec .ftDes s = .next t ∧
          HeaderFault s t c total pairs ((headerStart total n pairs ++ bs).map .byte ++ [a]) rest.tail)) ∧
    (256 < n.toNat → s.ports.source = (headerStart total n []).map .byte ++ rest →
      ∃ t, exec .ftDes s = .next t ∧
        HeaderFault s t .hdrAlphaRange total [] ((headerStart total n []).map .byte) rest) ∧
    (∀ (p : Byte × Word64) (c : Cause),
      n.toNat ≤ 256 → PairsPass total pairs → pairs.length < n.toNat →
      s.ports.source = (headerStart total n (pairs ++ [p])).map .byte ++ rest →
      p.2 = 0#64 ∧ c = .hdrZeroCount ∨
      p.2 ≠ 0#64 ∧ p.1 ∈ pairs.map Prod.fst ∧ c = .hdrDupSymbol ∨
      p.2 ≠ 0#64 ∧ p.1 ∉ pairs.map Prod.fst ∧
        total.toNat < (pairs.map fun p => p.2.toNat).sum + p.2.toNat ∧ c = .hdrSumMismatch →
      ∃ t, exec .ftDes s = .next t ∧
        HeaderFault s t c total pairs ((headerStart total n (pairs ++ [p])).map .byte) rest) ∧
    (n.toNat ≤ 256 → PairsPass total pairs → pairs.length = n.toNat →
      (pairs.map fun p => p.2.toNat).sum < total.toNat →
      s.ports.source = (headerStart total n pairs).map .byte ++ rest →
      ∃ t, exec .ftDes s = .next t ∧
        HeaderFault s t .hdrSumMismatch total pairs ((headerStart total n pairs).map .byte) rest)
end

