-- ==== Sys2Proof/Laws/Sequencing.lean ====
section
/-! SUPPORT. Laws of `Res.andThen`, and the two ways a property of a whole piece of pseudocode is put together from
its parts: what it answers (`andThen_eq_ok`) and what every outcome keeps (`Res.All`). -/

namespace Sys2Proof.Machine

variable {α β : Type}

@[simp] theorem Res.ok_andThen (a : α) (s : State) (f : α → State → Res β) :
    (Res.ok a s).andThen f = f a s := rfl

@[simp] theorem Res.raise_andThen (c : Cause) (s : State) (f : α → State → Res β) :
    (Res.raise c s).andThen f = .raise c s := rfl

@[simp] theorem Res.stuck_andThen (e : Fault) (f : α → State → Res β) :
    (Res.stuck e : Res α).andThen f = .stuck e := rfl

theorem Res.andThen_eq_ok {r : Res α} {f : α → State → Res β} {b : β} {t : State} :
    r.andThen f = .ok b t ↔ ∃ a s, r = .ok a s ∧ f a s = .ok b t := by
  cases r <;> simp

theorem Res.andThen_eq_raise {r : Res α} {f : α → State → Res β} {c : Cause} {t : State} :
    r.andThen f = .raise c t ↔ r = .raise c t ∨ ∃ a s, r = .ok a s ∧ f a s = .raise c t := by
  cases r <;> simp

theorem Res.andThen_eq_stuck {r : Res α} {f : α → State → Res β} {e : Fault} :
    r.andThen f = .stuck e ↔ r = .stuck e ∨ ∃ a s, r = .ok a s ∧ f a s = .stuck e := by
  cases r <;> simp

/-- Every state the piece leaves satisfies `P`, every cause it raises satisfies `Q`, and where it is stuck it waits
for a transaction. -/
def Res.All (P : State → Prop) (Q : Cause → Prop) : Res α → Prop
  | .ok _ t => P t
  | .raise c t => P t ∧ Q c
  | .stuck e => e ≠ .noCommand

@[simp] theorem Res.all_ok {P : State → Prop} {Q : Cause → Prop} (a : α) (t : State) :
    (Res.ok a t).All P Q ↔ P t := Iff.rfl

@[simp] theorem Res.all_raise {P : State → Prop} {Q : Cause → Prop} (c : Cause) (t : State) :
    (Res.raise c t : Res α).All P Q ↔ P t ∧ Q c := Iff.rfl

@[simp] theorem Res.all_stuck {P : State → Prop} {Q : Cause → Prop} (e : Fault) :
    (Res.stuck e : Res α).All P Q ↔ e ≠ .noCommand := Iff.rfl

/-- A property that the first piece establishes and the second keeps holds of both in sequence. -/
theorem Res.All.andThen {P : State → Prop} {Q : Cause → Prop} {r : Res α} {f : α → State → Res β}
    (hr : r.All P Q) (hf : ∀ a t, r = .ok a t → P t → (f a t).All P Q) : (r.andThen f).All P Q := by
  cases r with
  | ok a t => exact hf a t rfl hr
  | raise c t => exact hr
  | stuck e => exact hr

theorem Res.All.mono {P P' : State → Prop} {Q Q' : Cause → Prop} {r : Res α} (h : r.All P Q)
    (hP : ∀ t, P t → P' t) (hQ : ∀ c, Q c → Q' c) : r.All P' Q' := by
  cases r with
  | ok a t => exact hP t h
  | raise c t => exact ⟨hP t h.1, hQ c h.2⟩
  | stuck e => exact h

/-- A transitive relation that each piece keeps from its own start is kept by the sequence. -/
theorem Res.All.seq {R : State → State → Prop} {Q : Cause → Prop} {s : State} {r : Res α}
    {f : α → State → Res β} (htr : ∀ {a b c}, R a b → R b c → R a c) (hr : r.All (R s) Q)
    (hf : ∀ a t, r = .ok a t → (f a t).All (R t) Q) : (r.andThen f).All (R s) Q :=
  hr.andThen fun a t h hst => (hf a t h).mono (fun _ htu => htr hst htu) fun _ hq => hq

/-- What a command that settles to a next state did before it answered. -/
theorem settle_eq_next {r : Res Unit} {t : State} :
    settle r = .next t ↔
      (∃ u, r = .ok () u ∧ t = respond .ok 0#64 u) ∨ (∃ c u, r = .raise c u ∧ t = faultEntry c u) := by
  cases r <;> simp [settle, eq_comm]

/-- The three ways checks 4 to 6 of the dispatch end (45_system.md R231). -/
theorem whenAccepted_eq_next {a : Bool} {body : State → Res Unit} {s t : State} :
    whenAccepted a body s = .next t ↔
      (s.phase = .fault ∧ t = refuse .errFaulted s) ∨
      (s.phase ≠ .fault ∧ a = false ∧ t = refuse .errSeq s) ∨
      (s.phase ≠ .fault ∧ a = true ∧ settle (body s) = .next t) := by
  unfold whenAccepted
  by_cases hp : s.phase = .fault <;> cases a <;> simp [hp, eq_comm]

end Sys2Proof.Machine
end

