-- ==== Sys2Proof/Laws/State.lean ====
section
/-! SUPPORT. What each named update of the state leaves in each field, so that no proof unfolds an update. -/

namespace Sys2Proof.Machine

@[simp] theorem State.setTabValid_phase (v : Bool) (s : State) : (s.setTabValid v).phase = s.phase := rfl
@[simp] theorem State.setTabValid_fcause (v : Bool) (s : State) : (s.setTabValid v).fcause = s.fcause := rfl
@[simp] theorem State.setTabValid_ft (v : Bool) (s : State) : (s.setTabValid v).ft = { s.ft with tabValid := v } := rfl
@[simp] theorem State.setTabValid_enc (v : Bool) (s : State) : (s.setTabValid v).enc = s.enc := rfl
@[simp] theorem State.setTabValid_dec (v : Bool) (s : State) : (s.setTabValid v).dec = s.dec := rfl
@[simp] theorem State.setTabValid_ports (v : Bool) (s : State) : (s.setTabValid v).ports = s.ports := rfl

@[simp] theorem State.setSrcEos_phase (v : Bool) (s : State) : (s.setSrcEos v).phase = s.phase := rfl
@[simp] theorem State.setSrcEos_fcause (v : Bool) (s : State) : (s.setSrcEos v).fcause = s.fcause := rfl
@[simp] theorem State.setSrcEos_ft (v : Bool) (s : State) : (s.setSrcEos v).ft = s.ft := rfl
@[simp] theorem State.setSrcEos_enc (v : Bool) (s : State) : (s.setSrcEos v).enc = s.enc := rfl
@[simp] theorem State.setSrcEos_dec (v : Bool) (s : State) : (s.setSrcEos v).dec = { s.dec with srcEos := v } := rfl
@[simp] theorem State.setSrcEos_ports (v : Bool) (s : State) : (s.setSrcEos v).ports = s.ports := rfl

@[simp] theorem State.record_phase (e : Event) (s : State) : (s.record e).phase = s.phase := rfl
@[simp] theorem State.record_fcause (e : Event) (s : State) : (s.record e).fcause = s.fcause := rfl
@[simp] theorem State.record_ft (e : Event) (s : State) : (s.record e).ft = s.ft := rfl
@[simp] theorem State.record_enc (e : Event) (s : State) : (s.record e).enc = s.enc := rfl
@[simp] theorem State.record_dec (e : Event) (s : State) : (s.record e).dec = s.dec := rfl
@[simp] theorem State.record_ports (e : Event) (s : State) : (s.record e).ports = { s.ports with trace := s.ports.trace ++ [e] } := rfl

@[simp] theorem State.dropSource_phase (s : State) : (s.dropSource).phase = s.phase := rfl
@[simp] theorem State.dropSource_fcause (s : State) : (s.dropSource).fcause = s.fcause := rfl
@[simp] theorem State.dropSource_ft (s : State) : (s.dropSource).ft = s.ft := rfl
@[simp] theorem State.dropSource_enc (s : State) : (s.dropSource).enc = s.enc := rfl
@[simp] theorem State.dropSource_dec (s : State) : (s.dropSource).dec = s.dec := rfl
@[simp] theorem State.dropSource_ports (s : State) : (s.dropSource).ports = { s.ports with source := s.ports.source.tail } := rfl

@[simp] theorem State.dropSink_phase (s : State) : (s.dropSink).phase = s.phase := rfl
@[simp] theorem State.dropSink_fcause (s : State) : (s.dropSink).fcause = s.fcause := rfl
@[simp] theorem State.dropSink_ft (s : State) : (s.dropSink).ft = s.ft := rfl
@[simp] theorem State.dropSink_enc (s : State) : (s.dropSink).enc = s.enc := rfl
@[simp] theorem State.dropSink_dec (s : State) : (s.dropSink).dec = s.dec := rfl
@[simp] theorem State.dropSink_ports (s : State) : (s.dropSink).ports = { s.ports with sink := s.ports.sink.tail } := rfl

@[simp] theorem State.setTotal_phase (v : Word64) (s : State) : (s.setTotal v).phase = s.phase := rfl
@[simp] theorem State.setTotal_fcause (v : Word64) (s : State) : (s.setTotal v).fcause = s.fcause := rfl
@[simp] theorem State.setTotal_ft (v : Word64) (s : State) : (s.setTotal v).ft = { s.ft with total := v } := rfl
@[simp] theorem State.setTotal_enc (v : Word64) (s : State) : (s.setTotal v).enc = s.enc := rfl
@[simp] theorem State.setTotal_dec (v : Word64) (s : State) : (s.setTotal v).dec = s.dec := rfl
@[simp] theorem State.setTotal_ports (v : Word64) (s : State) : (s.setTotal v).ports = s.ports := rfl

@[simp] theorem State.setEntry_phase (i : Nat) (e : TabEntry) (s : State) : (s.setEntry i e).phase = s.phase := rfl
@[simp] theorem State.setEntry_fcause (i : Nat) (e : TabEntry) (s : State) : (s.setEntry i e).fcause = s.fcause := rfl
@[simp] theorem State.setEntry_ft (i : Nat) (e : TabEntry) (s : State) : (s.setEntry i e).ft = s.ft.setEntry i e := rfl
@[simp] theorem State.setEntry_enc (i : Nat) (e : TabEntry) (s : State) : (s.setEntry i e).enc = s.enc := rfl
@[simp] theorem State.setEntry_dec (i : Nat) (e : TabEntry) (s : State) : (s.setEntry i e).dec = s.dec := rfl
@[simp] theorem State.setEntry_ports (i : Nat) (e : TabEntry) (s : State) : (s.setEntry i e).ports = s.ports := rfl

@[simp] theorem State.finishLoad_phase (n : BitVec 9) (s : State) : (s.finishLoad n).phase = .loaded := rfl
@[simp] theorem State.finishLoad_fcause (n : BitVec 9) (s : State) : (s.finishLoad n).fcause = s.fcause := rfl
@[simp] theorem State.finishLoad_ft (n : BitVec 9) (s : State) : (s.finishLoad n).ft = { s.ft with tabN := n, tabValid := true } := rfl
@[simp] theorem State.finishLoad_enc (n : BitVec 9) (s : State) : (s.finishLoad n).enc = s.enc := rfl
@[simp] theorem State.finishLoad_dec (n : BitVec 9) (s : State) : (s.finishLoad n).dec = s.dec := rfl
@[simp] theorem State.finishLoad_ports (n : BitVec 9) (s : State) : (s.finishLoad n).ports = s.ports := rfl

@[simp] theorem State.setWriteBuffer_phase (a : Word32) (i : BitVec 5) (s : State) : (s.setWriteBuffer a i).phase = s.phase := rfl
@[simp] theorem State.setWriteBuffer_fcause (a : Word32) (i : BitVec 5) (s : State) : (s.setWriteBuffer a i).fcause = s.fcause := rfl
@[simp] theorem State.setWriteBuffer_ft (a : Word32) (i : BitVec 5) (s : State) : (s.setWriteBuffer a i).ft = s.ft := rfl
@[simp] theorem State.setWriteBuffer_enc (a : Word32) (i : BitVec 5) (s : State) : (s.setWriteBuffer a i).enc = { s.enc with wacc := a, widx := i } := rfl
@[simp] theorem State.setWriteBuffer_dec (a : Word32) (i : BitVec 5) (s : State) : (s.setWriteBuffer a i).dec = s.dec := rfl
@[simp] theorem State.setWriteBuffer_ports (a : Word32) (i : BitVec 5) (s : State) : (s.setWriteBuffer a i).ports = s.ports := rfl

@[simp] theorem State.setReadBuffer_phase (a : Word32) (i : BitVec 5) (s : State) : (s.setReadBuffer a i).phase = s.phase := rfl
@[simp] theorem State.setReadBuffer_fcause (a : Word32) (i : BitVec 5) (s : State) : (s.setReadBuffer a i).fcause = s.fcause := rfl
@[simp] theorem State.setReadBuffer_ft (a : Word32) (i : BitVec 5) (s : State) : (s.setReadBuffer a i).ft = s.ft := rfl
@[simp] theorem State.setReadBuffer_enc (a : Word32) (i : BitVec 5) (s : State) : (s.setReadBuffer a i).enc = s.enc := rfl
@[simp] theorem State.setReadBuffer_dec (a : Word32) (i : BitVec 5) (s : State) : (s.setReadBuffer a i).dec = { s.dec with rbuf := a, ridx := i } := rfl
@[simp] theorem State.setReadBuffer_ports (a : Word32) (i : BitVec 5) (s : State) : (s.setReadBuffer a i).ports = s.ports := rfl

@[simp] theorem State.setPend_phase (v : Word64) (s : State) : (s.setPend v).phase = s.phase := rfl
@[simp] theorem State.setPend_fcause (v : Word64) (s : State) : (s.setPend v).fcause = s.fcause := rfl
@[simp] theorem State.setPend_ft (v : Word64) (s : State) : (s.setPend v).ft = s.ft := rfl
@[simp] theorem State.setPend_enc (v : Word64) (s : State) : (s.setPend v).enc = { s.enc with pend := v } := rfl
@[simp] theorem State.setPend_dec (v : Word64) (s : State) : (s.setPend v).dec = s.dec := rfl
@[simp] theorem State.setPend_ports (v : Word64) (s : State) : (s.setPend v).ports = s.ports := rfl

@[simp] theorem State.setEncInterval_phase (l r : Word32) (s : State) : (s.setEncInterval l r).phase = s.phase := rfl
@[simp] theorem State.setEncInterval_fcause (l r : Word32) (s : State) : (s.setEncInterval l r).fcause = s.fcause := rfl
@[simp] theorem State.setEncInterval_ft (l r : Word32) (s : State) : (s.setEncInterval l r).ft = s.ft := rfl
@[simp] theorem State.setEncInterval_enc (l r : Word32) (s : State) : (s.setEncInterval l r).enc = { s.enc with lower := l, range := r } := rfl
@[simp] theorem State.setEncInterval_dec (l r : Word32) (s : State) : (s.setEncInterval l r).dec = s.dec := rfl
@[simp] theorem State.setEncInterval_ports (l r : Word32) (s : State) : (s.setEncInterval l r).ports = s.ports := rfl

@[simp] theorem State.countEncoded_phase (s : State) : (s.countEncoded).phase = s.phase := rfl
@[simp] theorem State.countEncoded_fcause (s : State) : (s.countEncoded).fcause = s.fcause := rfl
@[simp] theorem State.countEncoded_ft (s : State) : (s.countEncoded).ft = s.ft := rfl
@[simp] theorem State.countEncoded_enc (s : State) : (s.countEncoded).enc = { s.enc with count := s.enc.count + 1#64 } := rfl
@[simp] theorem State.countEncoded_dec (s : State) : (s.countEncoded).dec = s.dec := rfl
@[simp] theorem State.countEncoded_ports (s : State) : (s.countEncoded).ports = s.ports := rfl

@[simp] theorem State.setValue_phase (v : Word32) (s : State) : (s.setValue v).phase = s.phase := rfl
@[simp] theorem State.setValue_fcause (v : Word32) (s : State) : (s.setValue v).fcause = s.fcause := rfl
@[simp] theorem State.setValue_ft (v : Word32) (s : State) : (s.setValue v).ft = s.ft := rfl
@[simp] theorem State.setValue_enc (v : Word32) (s : State) : (s.setValue v).enc = s.enc := rfl
@[simp] theorem State.setValue_dec (v : Word32) (s : State) : (s.setValue v).dec = { s.dec with value := v } := rfl
@[simp] theorem State.setValue_ports (v : Word32) (s : State) : (s.setValue v).ports = s.ports := rfl

@[simp] theorem State.setDecInterval_phase (l r : Word32) (s : State) : (s.setDecInterval l r).phase = s.phase := rfl
@[simp] theorem State.setDecInterval_fcause (l r : Word32) (s : State) : (s.setDecInterval l r).fcause = s.fcause := rfl
@[simp] theorem State.setDecInterval_ft (l r : Word32) (s : State) : (s.setDecInterval l r).ft = s.ft := rfl
@[simp] theorem State.setDecInterval_enc (l r : Word32) (s : State) : (s.setDecInterval l r).enc = s.enc := rfl
@[simp] theorem State.setDecInterval_dec (l r : Word32) (s : State) : (s.setDecInterval l r).dec = { s.dec with lower := l, range := r } := rfl
@[simp] theorem State.setDecInterval_ports (l r : Word32) (s : State) : (s.setDecInterval l r).ports = s.ports := rfl

@[simp] theorem State.countDecoded_phase (s : State) : (s.countDecoded).phase = if s.dec.count + 1#64 = s.ft.total then .idle else s.phase := rfl
@[simp] theorem State.countDecoded_fcause (s : State) : (s.countDecoded).fcause = s.fcause := rfl
@[simp] theorem State.countDecoded_ft (s : State) : (s.countDecoded).ft = s.ft := rfl
@[simp] theorem State.countDecoded_enc (s : State) : (s.countDecoded).enc = s.enc := rfl
@[simp] theorem State.countDecoded_dec (s : State) : (s.countDecoded).dec = { s.dec with count := s.dec.count + 1#64 } := rfl
@[simp] theorem State.countDecoded_ports (s : State) : (s.countDecoded).ports = s.ports := rfl

@[simp] theorem respond_phase (c : RespCode) (d : Word64) (s : State) : (respond c d s).phase = s.phase := rfl
@[simp] theorem respond_fcause (c : RespCode) (d : Word64) (s : State) : (respond c d s).fcause = s.fcause := rfl
@[simp] theorem respond_ft (c : RespCode) (d : Word64) (s : State) : (respond c d s).ft = s.ft := rfl
@[simp] theorem respond_enc (c : RespCode) (d : Word64) (s : State) : (respond c d s).enc = s.enc := rfl
@[simp] theorem respond_dec (c : RespCode) (d : Word64) (s : State) : (respond c d s).dec = s.dec := rfl
@[simp] theorem respond_ports (c : RespCode) (d : Word64) (s : State) : (respond c d s).ports = { s.ports with trace := s.ports.trace ++ [.response ⟨c, d⟩] } := rfl

@[simp] theorem refuse_phase (c : RespCode) (s : State) : (refuse c s).phase = s.phase := rfl
@[simp] theorem refuse_fcause (c : RespCode) (s : State) : (refuse c s).fcause = s.fcause := rfl
@[simp] theorem refuse_ft (c : RespCode) (s : State) : (refuse c s).ft = s.ft := rfl
@[simp] theorem refuse_enc (c : RespCode) (s : State) : (refuse c s).enc = s.enc := rfl
@[simp] theorem refuse_dec (c : RespCode) (s : State) : (refuse c s).dec = s.dec := rfl
@[simp] theorem refuse_ports (c : RespCode) (s : State) : (refuse c s).ports = { s.ports with trace := s.ports.trace ++ [.response ⟨c, 0#64⟩] } := rfl

@[simp] theorem faultEntry_phase (c : Cause) (s : State) : (faultEntry c s).phase = .fault := rfl
@[simp] theorem faultEntry_fcause (c : Cause) (s : State) : (faultEntry c s).fcause = some c := rfl
@[simp] theorem faultEntry_ft (c : Cause) (s : State) : (faultEntry c s).ft = s.ft := rfl
@[simp] theorem faultEntry_enc (c : Cause) (s : State) : (faultEntry c s).enc = s.enc := rfl
@[simp] theorem faultEntry_dec (c : Cause) (s : State) : (faultEntry c s).dec = s.dec := rfl
@[simp] theorem faultEntry_ports (c : Cause) (s : State) : (faultEntry c s).ports = { s.ports with trace := s.ports.trace ++ [.response ⟨c.respCode, c.code.setWidth 64⟩] } := rfl

@[simp] theorem resetDevice_phase (s : State) : (resetDevice s).phase = .idle := rfl
@[simp] theorem resetDevice_fcause (s : State) : (resetDevice s).fcause = none := rfl
@[simp] theorem resetDevice_ft (s : State) : (resetDevice s).ft = FreqTable.reset := rfl
@[simp] theorem resetDevice_enc (s : State) : (resetDevice s).enc = Encoder.reset := rfl
@[simp] theorem resetDevice_dec (s : State) : (resetDevice s).dec = Decoder.reset := rfl
@[simp] theorem resetDevice_ports (s : State) : (resetDevice s).ports = s.ports := rfl

@[simp] theorem startEncoder_phase (s : State) : (startEncoder s).phase = .encoding := rfl
@[simp] theorem startEncoder_fcause (s : State) : (startEncoder s).fcause = s.fcause := rfl
@[simp] theorem startEncoder_ft (s : State) : (startEncoder s).ft = s.ft := rfl
@[simp] theorem startEncoder_enc (s : State) : (startEncoder s).enc = ⟨Config.initLower, Config.initRange, 0#64, 0#64, 0#32, 31#5⟩ := rfl
@[simp] theorem startEncoder_dec (s : State) : (startEncoder s).dec = s.dec := rfl
@[simp] theorem startEncoder_ports (s : State) : (startEncoder s).ports = s.ports := rfl

@[simp] theorem startDecoder_phase (s : State) : (startDecoder s).phase = s.phase := rfl
@[simp] theorem startDecoder_fcause (s : State) : (startDecoder s).fcause = s.fcause := rfl
@[simp] theorem startDecoder_ft (s : State) : (startDecoder s).ft = s.ft := rfl
@[simp] theorem startDecoder_enc (s : State) : (startDecoder s).enc = s.enc := rfl
@[simp] theorem startDecoder_dec (s : State) : (startDecoder s).dec = { s.dec with lower := Config.initLower, range := Config.initRange, count := 0#64, rbuf := 0#32, ridx := 31#5 } := rfl
@[simp] theorem startDecoder_ports (s : State) : (startDecoder s).ports = s.ports := rfl

end Sys2Proof.Machine
end

