-- ==== Sys2Proof/Laws/Ports.lean ====
section
/-! SUPPORT. The two stream ports (20_memory.md R60 to R70): what a piece of pseudocode that only writes the sink,
or only reads the source, can change; and what the byte operations answer. -/

namespace Sys2Proof.Machine

/-! ### What can change -/

/-- The ports of `t` come after those of `s` by sink transactions alone. -/
structure SinkMoves (p q : Ports) : Prop where
  host : q.host = p.host
  source : q.source = p.source
  sink : q.sink <:+ p.sink
  trace : ∃ evs, q.trace = p.trace ++ evs ∧ ∀ e ∈ evs, ∃ b a, e = Event.sinkPut b a

/-- The ports of `t` come after those of `s` by source transactions alone. -/
structure SourceMoves (p q : Ports) : Prop where
  host : q.host = p.host
  sink : q.sink = p.sink
  source : q.source <:+ p.source
  trace : ∃ evs, q.trace = p.trace ++ evs ∧ ∀ e ∈ evs, ∃ a, e = Event.srcGet a

/-- The ports of `t` come after those of `s` by transactions of either kind. -/
structure PortsMove (p q : Ports) : Prop where
  host : q.host = p.host
  sink : q.sink <:+ p.sink
  source : q.source <:+ p.source
  trace : ∃ evs, q.trace = p.trace ++ evs ∧
    ∀ e ∈ evs, (∃ a, e = Event.srcGet a) ∨ (∃ b a, e = Event.sinkPut b a)

theorem SinkMoves.refl (p : Ports) : SinkMoves p p :=
  ⟨rfl, rfl, List.suffix_rfl, [], by simp, by simp⟩

theorem SourceMoves.refl (p : Ports) : SourceMoves p p :=
  ⟨rfl, rfl, List.suffix_rfl, [], by simp, by simp⟩

theorem PortsMove.refl (p : Ports) : PortsMove p p :=
  ⟨rfl, List.suffix_rfl, List.suffix_rfl, [], by simp, by simp⟩

theorem SinkMoves.trans {p q r : Ports} (h : SinkMoves p q) (k : SinkMoves q r) : SinkMoves p r := by
  obtain ⟨h1, h2, h3, e, h4, h5⟩ := h
  obtain ⟨k1, k2, k3, f, k4, k5⟩ := k
  refine ⟨k1.trans h1, k2.trans h2, k3.trans h3, e ++ f, by rw [k4, h4, List.append_assoc], ?_⟩
  intro x hx
  rcases List.mem_append.1 hx with hx | hx
  · exact h5 x hx
  · exact k5 x hx

theorem SourceMoves.trans {p q r : Ports} (h : SourceMoves p q) (k : SourceMoves q r) : SourceMoves p r := by
  obtain ⟨h1, h2, h3, e, h4, h5⟩ := h
  obtain ⟨k1, k2, k3, f, k4, k5⟩ := k
  refine ⟨k1.trans h1, k2.trans h2, k3.trans h3, e ++ f, by rw [k4, h4, List.append_assoc], ?_⟩
  intro x hx
  rcases List.mem_append.1 hx with hx | hx
  · exact h5 x hx
  · exact k5 x hx

theorem PortsMove.trans {p q r : Ports} (h : PortsMove p q) (k : PortsMove q r) : PortsMove p r := by
  obtain ⟨h1, h2, h3, e, h4, h5⟩ := h
  obtain ⟨k1, k2, k3, f, k4, k5⟩ := k
  refine ⟨k1.trans h1, k2.trans h2, k3.trans h3, e ++ f, by rw [k4, h4, List.append_assoc], ?_⟩
  intro x hx
  rcases List.mem_append.1 hx with hx | hx
  · exact h5 x hx
  · exact k5 x hx

theorem SinkMoves.portsMove {p q : Ports} (h : SinkMoves p q) : PortsMove p q := by
  obtain ⟨h1, h2, h3, e, h4, h5⟩ := h
  exact ⟨h1, h3, h2 ▸ List.suffix_rfl, e, h4, fun x hx => .inr (h5 x hx)⟩

theorem SourceMoves.portsMove {p q : Ports} (h : SourceMoves p q) : PortsMove p q := by
  obtain ⟨h1, h2, h3, e, h4, h5⟩ := h
  exact ⟨h1, h2 ▸ List.suffix_rfl, h3, e, h4, fun x hx => .inl (h5 x hx)⟩

/-- Only the ports differ, and they have moved by sink transactions alone. -/
structure SinkStep (s t : State) : Prop where
  rest : t = { s with ports := t.ports }
  ports : SinkMoves s.ports t.ports

/-- Only the ports differ, and they have moved by source transactions alone. -/
structure SourceStep (s t : State) : Prop where
  rest : t = { s with ports := t.ports }
  ports : SourceMoves s.ports t.ports

theorem SinkStep.refl (s : State) : SinkStep s s := ⟨rfl, .refl _⟩

theorem SinkStep.trans {s t u : State} (h : SinkStep s t) (k : SinkStep t u) : SinkStep s u :=
  ⟨by rw [k.rest, h.rest], h.ports.trans k.ports⟩

theorem SourceStep.refl (s : State) : SourceStep s s := ⟨rfl, .refl _⟩

theorem SourceStep.trans {s t u : State} (h : SourceStep s t) (k : SourceStep t u) : SourceStep s u :=
  ⟨by rw [k.rest, h.rest], h.ports.trans k.ports⟩

/-- SinkPut moves the sink and raises only IO_SINK (20_memory.md R62). -/
theorem sinkPut_all (b : Byte) (s : State) : (sinkPut b s).All (SinkStep s) (· = .ioSink) := by
  unfold sinkPut
  split <;> simp only [Res.all_ok, Res.all_raise, Res.all_stuck, and_true, ne_eq, reduceCtorEq, not_false_eq_true]
  all_goals exact ⟨rfl, rfl, rfl, List.tail_suffix _, [_], rfl, by simp⟩

theorem sinkPutAll_all (bs : List Byte) (s : State) :
    (sinkPutAll bs s).All (SinkStep s) (· = .ioSink) := by
  induction bs generalizing s with
  | nil => exact .refl s
  | cons b bs ih => exact (sinkPut_all b s).seq .trans fun _ t _ => ih t

theorem putUInt_all (n v : Nat) (s : State) : (putUInt n v s).All (SinkStep s) (· = .ioSink) :=
  sinkPutAll_all _ s

/-- SrcGet moves the source and raises only IO_SOURCE (20_memory.md R61). -/
theorem srcGet_all (s : State) : (srcGet s).All (SourceStep s) (· = .ioSource) := by
  unfold srcGet
  split <;> simp only [Res.all_ok, Res.all_raise, Res.all_stuck, and_true, ne_eq, reduceCtorEq, not_false_eq_true]
  all_goals exact ⟨rfl, rfl, rfl, List.tail_suffix _, [_], rfl, by simp⟩

theorem getUIntFrom_all (n acc : Nat) (s : State) :
    (getUIntFrom n acc s).All (SourceStep s) (fun c => c = .ioSource ∨ c = .hdrTruncated) := by
  induction n generalizing acc s with
  | zero => exact .refl s
  | succ n ih =>
    refine ((srcGet_all s).mono (fun _ h => h) fun _ h => .inl h).seq .trans fun a t _ => ?_
    cases a with
    | none => exact ⟨.refl t, .inr rfl⟩
    | some b => exact ih _ t

theorem getUIntStrict_all (n : Nat) (s : State) :
    (getUIntStrict n s).All (SourceStep s) (fun c => c = .ioSource ∨ c = .hdrTruncated) :=
  getUIntFrom_all n 0 s

theorem SinkMoves.responses {s t : State} (h : SinkMoves s.ports t.ports) : t.responses = s.responses := by
  obtain ⟨_, _, _, evs, he, hs⟩ := h
  have : evs.filterMap Event.answer = [] := by
    rw [List.filterMap_eq_nil_iff]
    intro e hx
    obtain ⟨a, b, rfl⟩ := hs e hx
    rfl
  rw [State.responses, State.responses, he, List.filterMap_append, this, List.append_nil]

theorem SourceMoves.responses {s t : State} (h : SourceMoves s.ports t.ports) : t.responses = s.responses := by
  obtain ⟨_, _, _, evs, he, hs⟩ := h
  have : evs.filterMap Event.answer = [] := by
    rw [List.filterMap_eq_nil_iff]
    intro e hx
    obtain ⟨a, rfl⟩ := hs e hx
    rfl
  rw [State.responses, State.responses, he, List.filterMap_append, this, List.append_nil]

theorem SourceMoves.sinkBytes {s t : State} (h : SourceMoves s.ports t.ports) : t.sinkBytes = s.sinkBytes := by
  obtain ⟨_, _, _, evs, he, hs⟩ := h
  have : evs.filterMap Event.accepted = [] := by
    rw [List.filterMap_eq_nil_iff]
    intro e hx
    obtain ⟨a, rfl⟩ := hs e hx
    rfl
  rw [State.sinkBytes, State.sinkBytes, he, List.filterMap_append, this, List.append_nil]

@[simp] theorem respond_responses (c : RespCode) (d : Word64) (s : State) :
    (respond c d s).responses = s.responses ++ [⟨c, d⟩] := by
  simp [State.responses, Event.answer]

@[simp] theorem respond_sinkBytes (c : RespCode) (d : Word64) (s : State) :
    (respond c d s).sinkBytes = s.sinkBytes := by
  simp [State.sinkBytes, Event.accepted]

@[simp] theorem respond_writtenBits (c : RespCode) (d : Word64) (s : State) :
    writtenBits (respond c d s) = writtenBits s := by
  rw [writtenBits, respond_sinkBytes]; rfl

/-! ### What the byte operations answer -/

@[simp] theorem withSinkBytes_nil (s : State) : withSinkBytes s [] = s := by
  simp [withSinkBytes]

theorem withSinkBytes_append (s : State) (as bs : List Byte) :
    withSinkBytes (withSinkBytes s as) bs = withSinkBytes s (as ++ bs) := by
  simp [withSinkBytes]

@[simp] theorem withSinkBytes_rest (s : State) (bs : List Byte) :
    (withSinkBytes s bs).phase = s.phase ∧ (withSinkBytes s bs).fcause = s.fcause ∧
      (withSinkBytes s bs).ft = s.ft ∧ (withSinkBytes s bs).enc = s.enc ∧ (withSinkBytes s bs).dec = s.dec :=
  ⟨rfl, rfl, rfl, rfl, rfl⟩

theorem sinkBytes_withSinkBytes (s : State) (bs : List Byte) :
    (withSinkBytes s bs).sinkBytes = s.sinkBytes ++ bs := by
  simp [State.sinkBytes, withSinkBytes, Event.accepted, List.filterMap_map, Function.comp_def]

theorem responses_withSinkBytes (s : State) (bs : List Byte) :
    (withSinkBytes s bs).responses = s.responses := by
  simp [State.responses, withSinkBytes, Event.answer, List.filterMap_map, Function.comp_def]

theorem withSourceAnswers_append (s : State) (as bs r r' : List SrcAnswer) :
    withSourceAnswers (withSourceAnswers s as r) bs r' = withSourceAnswers s (as ++ bs) r' := by
  simp [withSourceAnswers]

theorem SinkOpen.withSinkBytes {s : State} (h : SinkOpen s) (bs : List Byte) :
    SinkOpen (withSinkBytes s bs) := fun a ha => h a (List.mem_of_mem_drop ha)

/-- A SinkPut whose scheduled answer, if any, is Ok. -/
theorem sinkPut_ok {s : State} (b : Byte) (h : s.sinkAnswer = .ok) :
    sinkPut b s = .ok () (withSinkBytes s [b]) := by
  simp [sinkPut, h, withSinkBytes, State.record, State.dropSink]

theorem sinkAnswer_of_take {s : State} {n : Nat} (h : ∀ a ∈ s.ports.sink.take (n + 1), a = .ok) :
    s.sinkAnswer = .ok := by
  unfold State.sinkAnswer
  cases hs : s.ports.sink with
  | nil => rfl
  | cons a as => exact h a (by simp [hs])

/-- SinkPuts of which the first `bs.length` answers are Ok (20_memory.md R62, R69). -/
theorem sinkPutAll_ok (bs : List Byte) (s : State) (h : ∀ a ∈ s.ports.sink.take bs.length, a = .ok) :
    sinkPutAll bs s = .ok () (withSinkBytes s bs) := by
  induction bs generalizing s with
  | nil => simp [sinkPutAll]
  | cons b bs ih =>
    rw [sinkPutAll, sinkPut_ok b (sinkAnswer_of_take h), Res.ok_andThen, ih, withSinkBytes_append]
    · rfl
    · intro a ha
      refine h a ?_
      cases hs : s.ports.sink with
      | nil => simp [withSinkBytes, hs] at ha
      | cons x xs =>
        simp only [withSinkBytes, hs, List.length_cons, List.length_nil, List.drop_succ_cons,
          List.drop_zero] at ha
        simp [ha]

/-- A completed SinkPut put its byte in the sink. -/
theorem sinkPut_inv {b : Byte} {s t : State} (h : sinkPut b s = .ok () t) : t = withSinkBytes s [b] := by
  unfold sinkPut at h
  split at h <;> simp only [Res.ok.injEq, reduceCtorEq, true_and] at h
  rw [← h]
  simp [withSinkBytes, State.record, State.dropSink]

/-- Completed SinkPuts put all their bytes in the sink. -/
theorem sinkPutAll_inv {bs : List Byte} {s t : State} (h : sinkPutAll bs s = .ok () t) :
    t = withSinkBytes s bs := by
  induction bs generalizing s with
  | nil =>
    obtain rfl : s = t := by simpa [sinkPutAll] using h
    simp
  | cons b bs ih =>
    obtain ⟨_, u, hu, ht⟩ := Res.andThen_eq_ok.1 h
    rw [ih ht, sinkPut_inv hu, withSinkBytes_append]
    rfl

theorem sinkPutAll_open (bs : List Byte) (s : State) (h : SinkOpen s) :
    sinkPutAll bs s = .ok () (withSinkBytes s bs) :=
  sinkPutAll_ok bs s fun a ha => h a (List.mem_of_mem_take ha)

/-- SinkPuts of which the `k`-th is refused: the bytes before it stay in the sink (20_memory.md R62, R69). -/
theorem sinkPutAll_err (bs : List Byte) (s : State) (k : Nat) (hk : k < bs.length)
    (h : ∀ a ∈ s.ports.sink.take k, a = .ok) (he : s.ports.sink[k]? = some .err) :
    sinkPutAll bs s = .raise .ioSink
      { s with
        ports :=
          { s.ports with
            sink := s.ports.sink.drop (k + 1)
            trace := s.ports.trace ++ (bs.take k).map (fun b => .sinkPut b .ok) ++ [.sinkPut bs[k] .err] } } := by
  induction bs generalizing s k with
  | nil => simp at hk
  | cons b bs ih =>
    cases hs : s.ports.sink with
    | nil => simp [hs] at he
    | cons x xs =>
      cases k with
      | zero =>
        simp only [hs, List.getElem?_cons_zero, Option.some.injEq] at he
        simp [sinkPutAll, sinkPut, State.sinkAnswer, hs, he, State.record, State.dropSink]
      | succ k =>
        have hx : x = .ok := h x (by simp [hs])
        rw [sinkPutAll, sinkPut_ok b (by simp [State.sinkAnswer, hs, hx]), Res.ok_andThen,
          ih _ k (by simpa using hk)]
        · simp [withSinkBytes, hs]
        · intro a ha
          simp only [withSinkBytes, hs, List.length_cons, List.length_nil, List.drop_succ_cons,
            List.drop_zero] at ha
          exact h a (by simp [hs, ha])
        · simpa [withSinkBytes, hs] using he

/-- SrcGet by the head of the source. -/
theorem srcGet_byte {s : State} {b : Byte} {rest : List SrcAnswer} (h : s.ports.source = .byte b :: rest) :
    srcGet s = .ok (some b) (withSourceAnswers s [.byte b] rest) := by
  simp [srcGet, State.sourceAnswer, h, withSourceAnswers, State.record, State.dropSource]

theorem srcGet_eos {s : State} (h : s.ports.source.head?.getD .eos = .eos) :
    srcGet s = .ok none (withSourceAnswers s [.eos] s.ports.source.tail) := by
  have h' : s.sourceAnswer = .eos := by
    rw [State.sourceAnswer, ← h]; cases s.ports.source <;> rfl
  simp [srcGet, h', withSourceAnswers, State.record, State.dropSource]

theorem srcGet_err {s : State} (h : s.ports.source.head? = some .err) :
    srcGet s = .raise .ioSource (withSourceAnswers s [.err] s.ports.source.tail) := by
  have h' : s.sourceAnswer = .err := by
    unfold State.sourceAnswer; cases hs : s.ports.source <;> simp_all
  simp [srcGet, h', withSourceAnswers, State.record, State.dropSource]

@[simp] theorem withSourceAnswers_rest (s : State) (as rest : List SrcAnswer) :
    (withSourceAnswers s as rest).phase = s.phase ∧ (withSourceAnswers s as rest).fcause = s.fcause ∧
      (withSourceAnswers s as rest).ft = s.ft ∧ (withSourceAnswers s as rest).enc = s.enc ∧
      (withSourceAnswers s as rest).dec = s.dec :=
  ⟨rfl, rfl, rfl, rfl, rfl⟩

@[simp] theorem withSourceAnswers_source (s : State) (as rest : List SrcAnswer) :
    (withSourceAnswers s as rest).ports.source = rest := rfl

theorem withSourceAnswers_nil {s : State} {rest : List SrcAnswer} (h : s.ports.source = rest) :
    withSourceAnswers s [] rest = s := by
  subst h; simp [withSourceAnswers]

/-- The loop of GetUIntStrict on bytes that are all there (20_memory.md R65). -/
theorem getUIntFrom_bytes (bs : List Byte) (acc : Nat) (s : State) (rest : List SrcAnswer)
    (h : s.ports.source = bs.map .byte ++ rest) :
    getUIntFrom bs.length acc s =
      .ok (acc * 2 ^ (8 * bs.length) + bigEndian bs) (withSourceAnswers s (bs.map .byte) rest) := by
  induction bs generalizing acc s with
  | nil => simp [getUIntFrom, bigEndian, withSourceAnswers_nil (by simpa using h)]
  | cons b bs ih =>
    rw [List.length_cons, getUIntFrom, srcGet_byte (by simpa using h), Res.ok_andThen]
    simp only
    rw [ih _ _ rfl, withSourceAnswers_append]
    simp only [bigEndian, List.map_cons, List.singleton_append, Res.ok.injEq, and_true]
    rw [show 8 * (bs.length + 1) = 8 * bs.length + 8 by ring, pow_add]
    ring

/-- GetUIntStrict on bytes that are all there (20_memory.md R65). -/
theorem getUIntStrict_bytes (bs : List Byte) (s : State) (rest : List SrcAnswer)
    (h : s.ports.source = bs.map .byte ++ rest) :
    getUIntStrict bs.length s = .ok (bigEndian bs) (withSourceAnswers s (bs.map .byte) rest) := by
  simpa [getUIntStrict] using getUIntFrom_bytes bs 0 s rest h

/-- The loop of GetUIntStrict when the source ends early (20_memory.md R65). -/
theorem getUIntFrom_eos (bs : List Byte) (n acc : Nat) (s : State) (rest : List SrcAnswer)
    (h : s.ports.source = bs.map .byte ++ rest) (hn : bs.length < n) (he : rest.head?.getD .eos = .eos) :
    getUIntFrom n acc s = .raise .hdrTruncated (withSourceAnswers s (bs.map .byte ++ [.eos]) rest.tail) := by
  induction bs generalizing n acc s with
  | nil =>
    obtain ⟨m, rfl⟩ : ∃ m, n = m + 1 := ⟨n - 1, by simp at hn; omega⟩
    have h' : s.ports.source = rest := by simpa using h
    rw [getUIntFrom, srcGet_eos (by rw [h', he])]
    simp [h']
  | cons b bs ih =>
    obtain ⟨m, rfl⟩ : ∃ m, n = m + 1 := ⟨n - 1, by simp at hn; omega⟩
    rw [getUIntFrom, srcGet_byte (by simpa using h), Res.ok_andThen]
    simp only
    rw [ih m _ _ rfl (by simpa using hn), withSourceAnswers_append]
    simp

/-- The loop of GetUIntStrict when the source fails early (20_memory.md R61, R65). -/
theorem getUIntFrom_err (bs : List Byte) (n acc : Nat) (s : State) (rest : List SrcAnswer)
    (h : s.ports.source = bs.map .byte ++ rest) (hn : bs.length < n) (he : rest.head? = some .err) :
    getUIntFrom n acc s = .raise .ioSource (withSourceAnswers s (bs.map .byte ++ [.err]) rest.tail) := by
  induction bs generalizing n acc s with
  | nil =>
    obtain ⟨m, rfl⟩ : ∃ m, n = m + 1 := ⟨n - 1, by simp at hn; omega⟩
    have h' : s.ports.source = rest := by simpa using h
    rw [getUIntFrom, srcGet_err (by rw [h', he])]
    simp [h']
  | cons b bs ih =>
    obtain ⟨m, rfl⟩ : ∃ m, n = m + 1 := ⟨n - 1, by simp at hn; omega⟩
    rw [getUIntFrom, srcGet_byte (by simpa using h), Res.ok_andThen]
    simp only
    rw [ih m _ _ rfl (by simpa using hn), withSourceAnswers_append]
    simp

end Sys2Proof.Machine
end

