-- ==== Sys2Proof/Laws/Bytes.lean ====
section
/-! SUPPORT. Byte order and bit order (20_memory.md R64 to R67): the bytes PutUInt puts, the bits of a byte and of a
word. -/

namespace Sys2Proof.Machine

@[simp] theorem length_beBytes (n v : Nat) : (beBytes n v).length = n := by simp [beBytes]

theorem beBytes_succ (n v : Nat) : beBytes (n + 1) v = BitVec.ofNat 8 (v >>> (8 * n)) :: beBytes n v := by
  simp only [beBytes, List.range_succ_eq_map, List.map_cons, List.map_map, List.cons.injEq]
  refine ⟨by simp, List.map_congr_left fun k _ => ?_⟩
  simp only [Function.comp_apply]
  congr 3
  omega

theorem bigEndian_beBytes_mod (n v : Nat) : bigEndian (beBytes n v) = v % 2 ^ (8 * n) := by
  induction n with
  | zero => simp [beBytes, bigEndian, Nat.mod_one]
  | succ n ih =>
    rw [beBytes_succ, bigEndian, ih, length_beBytes, BitVec.toNat_ofNat, Nat.shiftRight_eq_div_pow]
    rw [show 8 * (n + 1) = 8 * n + 8 by ring, pow_add, Nat.mod_mul]
    ring

/-- Read back big-endian, the bytes PutUInt puts are the number (20_memory.md R64, R65). -/
theorem bigEndian_beBytes {n v : Nat} (h : v < 2 ^ (8 * n)) : bigEndian (beBytes n v) = v := by
  rw [bigEndian_beBytes_mod, Nat.mod_eq_of_lt h]

theorem getElem_beBytes (n v k : Nat) (h : k < (beBytes n v).length) :
    (beBytes n v)[k].toNat = v / 2 ^ (8 * (n - 1 - k)) % 2 ^ 8 := by
  simp [beBytes, Nat.shiftRight_eq_div_pow]

theorem bigEndian_lt (bs : List Byte) : bigEndian bs < 2 ^ (8 * bs.length) := by
  induction bs with
  | nil => simp [bigEndian]
  | cons b bs ih =>
    rw [bigEndian, List.length_cons, show 8 * (bs.length + 1) = 8 * bs.length + 8 by ring, pow_add]
    have := b.isLt
    calc b.toNat * 2 ^ (8 * bs.length) + bigEndian bs < (b.toNat + 1) * 2 ^ (8 * bs.length) := by
          rw [add_mul, one_mul]; omega
      _ ≤ 2 ^ (8 * bs.length) * 2 ^ 8 := by rw [mul_comm]; exact Nat.mul_le_mul_left _ (by omega)

/-- Big-endian bytes are determined by their number and their length. -/
theorem bigEndian_injective {as bs : List Byte} (hl : as.length = bs.length) (h : bigEndian as = bigEndian bs) :
    as = bs := by
  induction as generalizing bs with
  | nil => exact (List.length_eq_zero_iff.1 hl.symm).symm
  | cons a as ih =>
    cases bs with
    | nil => simp at hl
    | cons b bs =>
      simp only [List.length_cons, Nat.add_right_cancel_iff] at hl
      simp only [bigEndian, hl] at h
      have h1 := bigEndian_lt as
      have h2 := bigEndian_lt bs
      rw [hl] at h1
      have hp : 0 < 2 ^ (8 * bs.length) := by positivity
      have hab : a.toNat = b.toNat := by
        have e1 : (a.toNat * 2 ^ (8 * bs.length) + bigEndian as) / 2 ^ (8 * bs.length) = a.toNat := by
          rw [Nat.mul_comm, Nat.mul_add_div hp, Nat.div_eq_of_lt h1, Nat.add_zero]
        have e2 : (b.toNat * 2 ^ (8 * bs.length) + bigEndian bs) / 2 ^ (8 * bs.length) = b.toNat := by
          rw [Nat.mul_comm, Nat.mul_add_div hp, Nat.div_eq_of_lt h2, Nat.add_zero]
        rw [← e1, ← e2, h]
      rw [hab] at h
      rw [BitVec.eq_of_toNat_eq hab, ih hl (by omega)]

/-- The bytes of a bit vector of 8n bits, as bit fields (20_memory.md R64). -/
theorem beBytes_toNat {m : Nat} (n : Nat) (v : BitVec m) :
    beBytes n v.toNat = (List.range n).map fun k => v.extractLsb' (8 * (n - 1 - k)) 8 := by
  refine List.map_congr_left fun k _ => ?_
  apply BitVec.eq_of_toNat_eq
  simp [Nat.shiftRight_eq_div_pow]

theorem beBytes_four (w : Word32) :
    beBytes 4 w.toNat =
      [w.extractLsb' 24 8, w.extractLsb' 16 8, w.extractLsb' 8 8, w.extractLsb' 0 8] := by
  rw [beBytes_toNat]; rfl

/-- The bits of a word's four bytes are the word's bits, most significant first (20_memory.md R67). -/
theorem byteBits_beBytes_four (w : Word32) :
    (beBytes 4 w.toNat).flatMap byteBits = (List.range 32).map fun i => w.getLsbD (31 - i) := by
  rw [beBytes_four]
  simp [byteBits, List.range_succ_eq_map, BitVec.getLsbD_extractLsb']

@[simp] theorem length_byteBits (b : Byte) : (byteBits b).length = 8 := by simp [byteBits]

end Sys2Proof.Machine
end

