-- ==== Sys2Proof/Laws/BitPacker.lean ====
section
/-! SUPPORT. The bit packer (40_bitpacker.md): what WriteBit, Flush, GetWordPadded and ReadBit answer, and what they
can change. -/

namespace Sys2Proof.Machine

/-! ### The write side: what can change -/

/-- Only WACC, WIDX and the ports differ, the ports by sink transactions alone. -/
structure WriteStep (s t : State) : Prop where
  rest : t = { s with enc := { s.enc with wacc := t.enc.wacc, widx := t.enc.widx }, ports := t.ports }
  ports : SinkMoves s.ports t.ports

theorem WriteStep.refl (s : State) : WriteStep s s := ⟨rfl, .refl _⟩

theorem WriteStep.trans {s t u : State} (h : WriteStep s t) (k : WriteStep t u) : WriteStep s u :=
  ⟨by rw [k.rest, h.rest], h.ports.trans k.ports⟩

theorem SinkStep.writeStep {s t : State} (h : SinkStep s t) : WriteStep s t :=
  ⟨by rw [h.rest], h.ports⟩

theorem WriteStep.setWriteBuffer (s : State) (a : Word32) (i : BitVec 5) : WriteStep s (s.setWriteBuffer a i) :=
  ⟨rfl, .refl _⟩

theorem WriteStep.pend {s t : State} (h : WriteStep s t) : t.enc.pend = s.enc.pend := by rw [h.rest]

theorem putWord_all (w : Word32) (s : State) : (putWord w s).All (SinkStep s) (· = .ioSink) :=
  putUInt_all 4 _ s

theorem writeBit_all (b : Bool) (s : State) : (writeBit b s).All (WriteStep s) (· = .ioSink) := by
  unfold writeBit
  dsimp only
  split
  · refine Res.All.seq .trans (((putWord_all _ _).mono ?_) fun _ h => h) fun _ t _ => .setWriteBuffer t _ _
    exact fun t h => (WriteStep.setWriteBuffer s _ _).trans h.writeStep
  · exact .setWriteBuffer s _ _

theorem flush_all (s : State) : (flush s).All (WriteStep s) (· = .ioSink) := by
  unfold flush
  split
  · exact Res.All.seq .trans ((putWord_all _ _).mono (fun _ h => h.writeStep) fun _ h => h)
      fun _ t _ => .setWriteBuffer t _ _
  · exact .refl s

/-! ### The write side: what is answered -/

theorem putWord_open (w : Word32) {s : State} (h : SinkOpen s) :
    putWord w s = .ok () (withSinkBytes s (beBytes 4 w.toNat)) :=
  sinkPutAll_open _ s h

/-- The low bits of WACC are 0, bit by bit (10_state.md R28). -/
theorem writeSideClean_iff (e : Encoder) :
    WriteSideClean e ↔ ∀ i ≤ e.widx.toNat, e.wacc.getLsbD i = false := by
  simp only [WriteSideClean, BitVec.getLsbD]
  constructor
  · intro h i hi
    have := congrArg (fun n => n.testBit i) h
    simpa [Nat.testBit_mod_two_pow, Nat.lt_succ_of_le hi] using this
  · intro h
    apply Nat.eq_of_testBit_eq
    intro i
    rw [Nat.testBit_mod_two_pow]
    by_cases hi : i < e.widx.toNat + 1
    · simp [h i (by omega)]
    · simp [hi]

theorem getLsbD_withBit (b : Bool) (acc : Word32) (idx : BitVec 5) (i : Nat) (hi : i < 32) :
    (withBit b acc idx).getLsbD i = (acc.getLsbD i || (b && decide (i = idx.toNat))) := by
  unfold withBit
  have hx := idx.isLt
  cases b
  · simp
  · simp only [if_true, BitVec.getLsbD_or, BitVec.getLsbD_shiftLeft, hi, decide_true, Bool.true_and]
    congr 1
    by_cases h : i = idx.toNat
    · subst h; simp
    · by_cases h' : i < idx.toNat
      · simp [h, h']
      · have : i - idx.toNat ≠ 0 := by omega
        simp [h, h', BitVec.getLsbD_one, this]

theorem waitingBits_empty (e : Encoder) : waitingBits { e with wacc := 0#32, widx := 31#5 } = [] := by
  simp [waitingBits]

theorem map_range_snoc {α : Type} (n : Nat) (f : Nat → α) :
    (List.range (n + 1)).map f = (List.range n).map f ++ [f n] := by
  simp [List.range_succ]

/-- Inside a word a bit joins the waiting bits (40_bitpacker.md R121, R124). -/
theorem waitingBits_writeBit (b : Bool) (e : Encoder) (hc : WriteSideClean e) (h0 : e.widx ≠ 0#5) :
    waitingBits { e with wacc := withBit b e.wacc e.widx, widx := e.widx - 1#5 } = waitingBits e ++ [b] ∧
      WriteSideClean { e with wacc := withBit b e.wacc e.widx, widx := e.widx - 1#5 } := by
  have hb : (e.widx - 1#5).toNat = e.widx.toNat - 1 := by bv_omega
  have hp : 0 < e.widx.toNat := by
    rcases Nat.eq_zero_or_pos e.widx.toNat with h | h
    · exact absurd (BitVec.eq_of_toNat_eq h) h0
    · exact h
  have hx : e.widx.toNat < 32 := e.widx.isLt
  rw [writeSideClean_iff] at hc ⊢
  constructor
  · simp only [waitingBits, hb]
    rw [show 31 - (e.widx.toNat - 1) = (31 - e.widx.toNat) + 1 by omega, map_range_snoc]
    congr 1
    · refine List.map_congr_left fun i hi => ?_
      rw [List.mem_range] at hi
      rw [getLsbD_withBit _ _ _ _ (by omega)]
      have : 31 - i ≠ e.widx.toNat := by omega
      simp [this]
    · rw [getLsbD_withBit _ _ _ _ (by omega)]
      have : 31 - (31 - e.widx.toNat) = e.widx.toNat := by omega
      simp [this, hc _ le_rfl]
  · intro i hi
    simp only [hb] at hi
    rw [getLsbD_withBit _ _ _ _ (by omega), hc i (by omega)]
    have : i ≠ e.widx.toNat := by omega
    simp [this]

/-- The word a bit fills: the bits that waited, then the bit (40_bitpacker.md R121, R124). -/
theorem wordBits_withBit (b : Bool) {e : Encoder} (hc : WriteSideClean e) (h0 : e.widx = 0#5) :
    wordBits (withBit b e.wacc e.widx) = waitingBits e ++ [b] := by
  rw [writeSideClean_iff] at hc
  rw [wordBits, show List.range 32 = List.range (31 + 1) from rfl, map_range_snoc]
  congr 1
  · simp only [waitingBits, h0]
    refine List.map_congr_left fun i hi => ?_
    have hi' : i < 31 := by simpa using hi
    rw [getLsbD_withBit _ _ _ _ (by omega)]
    have : 31 - i ≠ 0 := by omega
    simp [this]
  · rw [getLsbD_withBit _ _ _ _ (by omega)]
    simp only [Nat.sub_self, hc 0 (by simp), h0, Bool.false_or]
    simp

/-- The word in WACC: the bits that wait, then zeros (40_bitpacker.md R123; 10_state.md R28). -/
theorem wordBits_wacc {e : Encoder} (hc : WriteSideClean e) :
    waitingBits e ++ List.replicate (e.widx.toNat + 1) false = wordBits e.wacc := by
  rw [writeSideClean_iff] at hc
  have hx := e.widx.isLt
  have hr : List.range 32 = List.range ((31 - e.widx.toNat) + (e.widx.toNat + 1)) := by congr 1; omega
  rw [wordBits, hr, List.range_add, List.map_append, waitingBits]
  congr 1
  symm
  rw [List.map_map, List.eq_replicate_iff]
  refine ⟨by simp, fun x hx => ?_⟩
  obtain ⟨i, hi, rfl⟩ := List.mem_map.1 hx
  rw [List.mem_range] at hi
  exact hc _ (by dsimp only; omega)

/-- WriteBit keeps the low bits of WACC at 0 whenever it completes (10_state.md R28). -/
theorem writeBit_clean {b : Bool} {s t : State} (hc : WriteSideClean s.enc) (h : writeBit b s = .ok () t) :
    WriteSideClean t.enc := by
  unfold writeBit at h
  dsimp only at h
  split at h
  · obtain ⟨_, u, _, hu⟩ := Res.andThen_eq_ok.1 h
    obtain rfl : _ = t := by simpa using hu
    exact (writeSideClean_iff _).2 fun i _ => by simp
  · rename_i h0
    obtain rfl : _ = t := by simpa using h
    exact (waitingBits_writeBit b s.enc hc h0).2

/-- Flush keeps the low bits of WACC at 0 whenever it completes (40_bitpacker.md R123). -/
theorem flush_clean {s t : State} (hc : WriteSideClean s.enc) (h : flush s = .ok () t) :
    WriteSideClean t.enc := by
  unfold flush at h
  split at h
  · obtain ⟨_, u, _, hu⟩ := Res.andThen_eq_ok.1 h
    obtain rfl : _ = t := by simpa using hu
    exact (writeSideClean_iff _).2 fun i _ => by simp
  · obtain rfl : s = t := by simpa using h
    exact hc

/-- WriteBit as one state update, with a sink that refuses nothing (40_bitpacker.md R121). -/
theorem writeBit_open (b : Bool) {s : State} (h : SinkOpen s) :
    writeBit b s = .ok ()
      (if s.enc.widx = 0#5 then
        (withSinkBytes s (beBytes 4 (withBit b s.enc.wacc s.enc.widx).toNat)).setWriteBuffer 0#32 31#5
      else s.setWriteBuffer (withBit b s.enc.wacc s.enc.widx) (s.enc.widx - 1#5)) := by
  unfold writeBit
  dsimp only
  split
  · have h' : SinkOpen (s.setWriteBuffer (withBit b s.enc.wacc s.enc.widx) 0#5) := h
    rw [putWord_open _ h']
    rfl
  · rfl

/-- WriteBit appends one bit to the bits written so far (40_bitpacker.md R124; 20_memory.md R67). -/
theorem writeBit_writes (b : Bool) {s : State} (hc : WriteSideClean s.enc) (h : SinkOpen s) :
    ∃ t, writeBit b s = .ok () t ∧ writtenBits t = writtenBits s ++ [b] ∧ WriteSideClean t.enc ∧ SinkOpen t ∧
      t = { s with enc := { s.enc with wacc := t.enc.wacc, widx := t.enc.widx }, ports := t.ports } := by
  rw [writeBit_open b h]
  refine ⟨_, rfl, ?_⟩
  by_cases h0 : s.enc.widx = 0#5
  · rw [if_pos h0]
    refine ⟨?_, (writeSideClean_iff _).2 fun i _ => by simp, h.withSinkBytes _, rfl⟩
    have e1 : waitingBits ((withSinkBytes s (beBytes 4 (withBit b s.enc.wacc s.enc.widx).toNat)).setWriteBuffer
        0#32 31#5).enc = [] := waitingBits_empty _
    rw [writtenBits, e1, List.append_nil]
    show (withSinkBytes s _).sinkBytes.flatMap byteBits = _
    rw [sinkBytes_withSinkBytes, List.flatMap_append, byteBits_beBytes_four, writtenBits, List.append_assoc,
      ← wordBits_withBit b hc h0]
    rfl
  · rw [if_neg h0]
    obtain ⟨h1, h2⟩ := waitingBits_writeBit b s.enc hc h0
    refine ⟨?_, h2, h, rfl⟩
    show s.sinkBytes.flatMap byteBits ++ waitingBits _ = _
    rw [State.setWriteBuffer_enc, h1, writtenBits, List.append_assoc]

/-- Flush as one state update, with a sink that refuses nothing (40_bitpacker.md R123). -/
theorem flush_open {s : State} (h : SinkOpen s) :
    flush s = .ok ()
      (if s.enc.widx.toNat < 31 then (withSinkBytes s (beBytes 4 s.enc.wacc.toNat)).setWriteBuffer 0#32 31#5
      else s) := by
  unfold flush
  split
  · rw [putWord_open _ h]; rfl
  · rfl

theorem widx_full {i : BitVec 5} (h : ¬ i.toNat < 31) : i = 31#5 := by bv_omega

/-- Flush completes the last word with zero bits (40_bitpacker.md R123, R124). -/
theorem writtenBits_flush {s t : State} (hc : WriteSideClean s.enc) (h : SinkOpen s) (hf : flush s = .ok () t) :
    writtenBits t = writtenBits s ++
      List.replicate (if s.enc.widx.toNat < 31 then s.enc.widx.toNat + 1 else 0) false := by
  rw [flush_open h] at hf
  obtain rfl : _ = t := by simpa using hf
  split
  · rename_i hw
    have e1 : waitingBits ((withSinkBytes s (beBytes 4 s.enc.wacc.toNat)).setWriteBuffer 0#32 31#5).enc = [] :=
      waitingBits_empty _
    rw [writtenBits, e1, List.append_nil]
    show (withSinkBytes s _).sinkBytes.flatMap byteBits = _
    rw [sinkBytes_withSinkBytes, List.flatMap_append, byteBits_beBytes_four, writtenBits, List.append_assoc]
    rw [wordBits_wacc hc]
    rfl
  · simp

/-- A completed WriteBit put no bytes or the four of a word in the sink (20_memory.md R63). -/
theorem writeBit_words {b : Bool} {s t : State} (h : writeBit b s = .ok () t) :
    t.sinkBytes.length % 4 = s.sinkBytes.length % 4 := by
  unfold writeBit at h
  dsimp only at h
  split at h
  · obtain ⟨_, u, hu, ht⟩ := Res.andThen_eq_ok.1 h
    obtain rfl : _ = t := by simpa using ht
    rw [sinkPutAll_inv hu]
    show (withSinkBytes _ _).sinkBytes.length % 4 = _
    rw [sinkBytes_withSinkBytes, List.length_append, length_beBytes]
    show (s.sinkBytes.length + 4) % 4 = _
    omega
  · obtain rfl : _ = t := by simpa using h
    rfl

theorem length_flatMap_byteBits (bs : List Byte) : (bs.flatMap byteBits).length = 8 * bs.length := by
  induction bs with
  | nil => rfl
  | cons b bs ih => rw [List.flatMap_cons, List.length_append, ih, length_byteBits, List.length_cons]; omega

/-- How many bits have been written. -/
theorem length_writtenBits (s : State) :
    (writtenBits s).length = 8 * s.sinkBytes.length + (31 - s.enc.widx.toNat) := by
  rw [writtenBits, List.length_append, length_flatMap_byteBits, waitingBits, List.length_map, List.length_range]

/-! ### The read side: what can change -/

/-- Only RBUF, RIDX, SRC_EOS and the ports differ, the ports by source transactions alone. -/
structure ReadStep (s t : State) : Prop where
  rest : t = { s with
    dec := { s.dec with rbuf := t.dec.rbuf, ridx := t.dec.ridx, srcEos := t.dec.srcEos }, ports := t.ports }
  ports : SourceMoves s.ports t.ports

theorem ReadStep.refl (s : State) : ReadStep s s := ⟨rfl, .refl _⟩

theorem ReadStep.trans {s t u : State} (h : ReadStep s t) (k : ReadStep t u) : ReadStep s u :=
  ⟨by rw [k.rest, h.rest], h.ports.trans k.ports⟩

/-- Only SRC_EOS and the ports differ, the ports by source transactions alone. -/
structure PadStep (s t : State) : Prop where
  rest : t = { s with dec := { s.dec with srcEos := t.dec.srcEos }, ports := t.ports }
  ports : SourceMoves s.ports t.ports

theorem PadStep.refl (s : State) : PadStep s s := ⟨rfl, .refl _⟩

theorem PadStep.trans {s t u : State} (h : PadStep s t) (k : PadStep t u) : PadStep s u :=
  ⟨by rw [k.rest, h.rest], h.ports.trans k.ports⟩

theorem PadStep.readStep {s t : State} (h : PadStep s t) : ReadStep s t := ⟨by rw [h.rest], h.ports⟩

theorem PadStep.ridx {s t : State} (h : PadStep s t) : t.dec.ridx = s.dec.ridx := by rw [h.rest]

theorem getBytePadded_all (s : State) : (getBytePadded s).All (PadStep s) (· = .ioSource) := by
  unfold getBytePadded
  split
  · exact .refl s
  · refine ((srcGet_all s).mono (fun _ h => ⟨by rw [h.rest], h.ports⟩) fun _ h => h).seq .trans fun a t _ => ?_
    cases a with
    | some b => exact .refl t
    | none => exact ⟨rfl, .refl _⟩

theorem getWordFrom_all (n : Nat) (w : Word32) (s : State) :
    (getWordFrom n w s).All (PadStep s) (· = .ioSource) := by
  induction n generalizing w s with
  | zero => exact .refl s
  | succ n ih => exact (getBytePadded_all s).seq .trans fun b t _ => ih _ t

theorem getWordPadded_all (s : State) : (getWordPadded s).All (PadStep s) (· = .ioSource) :=
  getWordFrom_all 4 _ s

theorem refill_all (s : State) : (refill s).All (ReadStep s) (· = .ioSource) := by
  unfold refill
  split
  · exact Res.All.seq .trans ((getWordPadded_all s).mono (fun _ h => h.readStep) fun _ h => h)
      fun _ _ _ => ⟨rfl, .refl _⟩
  · exact .refl s

theorem readBit_all (s : State) : (readBit s).All (ReadStep s) (· = .ioSource) :=
  (refill_all s).seq .trans fun _ _ _ => ⟨rfl, .refl _⟩

end Sys2Proof.Machine
end

