-- ==== Sys2Proof/Laws/Table.lean ====
section
/-! SUPPORT. What the table invariant of 10_state.md R38 gives: the ranges tile [0, TOTAL), so each search finds the
one entry it should (41_frequency_table.md R150 to R152). -/

namespace Sys2Proof.Machine

/-- Entry i below TAB_N, as an element of the table's list. -/
theorem entries_getElem? (f : FreqTable) (i : Nat) (hi : i < f.tabN.toNat) (hn : f.tabN.toNat ≤ 256) :
    f.entries[i]? = some (f.entry i) := by
  have h256 : i < 256 := by omega
  simp [FreqTable.entries, FreqTable.firstEntries, FreqTable.entry, hi, h256]

theorem length_entries (f : FreqTable) (hn : f.tabN.toNat ≤ 256) : f.entries.length = f.tabN.toNat := by
  simp [FreqTable.entries, FreqTable.firstEntries, hn]

theorem mem_entries_iff {f : FreqTable} (hn : f.tabN.toNat ≤ 256) {e : TabEntry} :
    e ∈ f.entries ↔ ∃ i < f.tabN.toNat, f.entry i = e := by
  rw [List.mem_iff_getElem?]
  constructor
  · rintro ⟨i, hi⟩
    have hlt : i < f.tabN.toNat := by
      rw [← length_entries f hn]; exact (List.getElem?_eq_some_iff.1 hi).1
    rw [entries_getElem? f i hlt hn] at hi
    exact ⟨i, hlt, by simpa using hi⟩
  · rintro ⟨i, hi, rfl⟩
    exact ⟨i, entries_getElem? f i hi hn⟩

section
variable {f : FreqTable} (h : TablePartition f)
include h

theorem TablePartition.tabN_le : f.tabN.toNat ≤ 256 := h.1

theorem TablePartition.low_lt_high {i : Nat} (hi : i < f.tabN.toNat) :
    (f.entry i).low.toNat < (f.entry i).high.toNat := by
  obtain ⟨_, _, h3, _, _, _, h7, _⟩ := h
  have := h3 i hi
  have := h7 i hi
  omega

/-- A later entry begins where an earlier one ended, or later. -/
theorem TablePartition.high_le_low {i j : Nat} (hij : i < j) (hj : j < f.tabN.toNat) :
    (f.entry i).high.toNat ≤ (f.entry j).low.toNat := by
  induction j with
  | zero => omega
  | succ j ih =>
    have hl : (f.entry j).high = (f.entry (j + 1)).low := h.2.2.2.1 j (by omega) hj
    rw [← hl]
    rcases Nat.lt_succ_iff_lt_or_eq.1 hij with hlt | rfl
    · exact (ih hlt (by omega)).trans (h.low_lt_high (by omega)).le
    · exact le_rfl

theorem TablePartition.high_le_total {i : Nat} (hi : i < f.tabN.toNat) :
    (f.entry i).high.toNat ≤ f.total.toNat := by
  have hlast := h.2.2.2.2.1 (by omega)
  rw [← hlast]
  rcases Nat.lt_or_ge i (f.tabN.toNat - 1) with hlt | hge
  · exact (h.high_le_low hlt (by omega)).trans (h.low_lt_high (by omega)).le
  · rw [show i = f.tabN.toNat - 1 by omega]

theorem TablePartition.mem {e : TabEntry} (he : e ∈ f.entries) :
    e.low.toNat < e.high.toNat ∧ e.high.toNat ≤ f.total.toNat := by
  obtain ⟨i, hi, rfl⟩ := (mem_entries_iff h.tabN_le).1 he
  exact ⟨h.low_lt_high hi, h.high_le_total hi⟩

/-- The ranges cover [0, TOTAL). -/
theorem TablePartition.covers {g : Nat} (hg : g < f.total.toNat) :
    ∃ e ∈ f.entries, e.low.toNat ≤ g ∧ g < e.high.toNat := by
  have hn : 0 < f.tabN.toNat := by
    rcases Nat.eq_zero_or_pos f.tabN.toNat with h0 | h0
    · rw [h.2.2.2.2.2.1 h0] at hg; simp at hg
    · exact h0
  suffices H : ∀ k, k < f.tabN.toNat → (∃ e ∈ f.entries, e.low.toNat ≤ g ∧ g < e.high.toNat) ∨
      (f.entry k).high.toNat ≤ g by
    rcases H (f.tabN.toNat - 1) (by omega) with hh | hh
    · exact hh
    · rw [h.2.2.2.2.1 hn] at hh; omega
  intro k
  induction k with
  | zero =>
    intro hk
    by_cases hh : g < (f.entry 0).high.toNat
    · exact .inl ⟨_, (mem_entries_iff h.tabN_le).2 ⟨0, hk, rfl⟩, by rw [h.2.1 hn]; simp, hh⟩
    · exact .inr (by omega)
  | succ k ih =>
    intro hk
    rcases ih (by omega) with hh | hh
    · exact .inl hh
    · by_cases h2 : g < (f.entry (k + 1)).high.toNat
      · exact .inl ⟨_, (mem_entries_iff h.tabN_le).2 ⟨_, hk, rfl⟩, by
          rw [← h.2.2.2.1 k (by omega) hk]; exact hh, h2⟩
      · exact .inr (by omega)

/-- Two entries that hold a common number are one. -/
theorem TablePartition.unique {e e' : TabEntry} (he : e ∈ f.entries) (he' : e' ∈ f.entries) {g : Nat}
    (h1 : e.low.toNat ≤ g) (h2 : g < e.high.toNat) (h3 : e'.low.toNat ≤ g) (h4 : g < e'.high.toNat) :
    e = e' := by
  obtain ⟨i, hi, rfl⟩ := (mem_entries_iff h.tabN_le).1 he
  obtain ⟨j, hj, rfl⟩ := (mem_entries_iff h.tabN_le).1 he'
  rcases Nat.lt_trichotomy i j with hij | rfl | hij
  · have := h.high_le_low hij hj; omega
  · rfl
  · have := h.high_le_low hij hi; omega

/-- LookupTarget finds the entry that holds the target (41_frequency_table.md R151). -/
theorem TablePartition.lookupTarget_eq {e : TabEntry} (he : e ∈ f.entries) {g : Nat}
    (h1 : e.low.toNat ≤ g) (h2 : g < e.high.toNat) : f.lookupTarget g = some e := by
  unfold FreqTable.lookupTarget
  cases hf : f.entries.find? fun e => decide (e.low.toNat ≤ g) && decide (g < e.high.toNat) with
  | none =>
    have := List.find?_eq_none.1 hf e he
    simp [h1, h2] at this
  | some e' =>
    have hp := List.find?_some hf
    simp only [Bool.and_eq_true, decide_eq_true_eq] at hp
    rw [h.unique (List.mem_of_find?_eq_some hf) he hp.1 hp.2 h1 h2]

theorem TablePartition.lookupTarget_some {g : Nat} (hg : g < f.total.toNat) :
    ∃ e ∈ f.entries, f.lookupTarget g = some e ∧ e.low.toNat ≤ g ∧ g < e.high.toNat := by
  obtain ⟨e, he, h1, h2⟩ := h.covers hg
  exact ⟨e, he, h.lookupTarget_eq he h1 h2, h1, h2⟩

/-- At or beyond TOTAL no entry is found (41_frequency_table.md R151). -/
theorem TablePartition.lookupTarget_none {g : Nat} (hg : f.total.toNat ≤ g) : f.lookupTarget g = none := by
  unfold FreqTable.lookupTarget
  rw [List.find?_eq_none]
  intro e he
  have := (h.mem he).2
  simp only [Bool.and_eq_true, decide_eq_true_eq, not_and, not_lt]
  intro _
  omega

/-- LookupSym finds the entry of a symbol that is in the table (41_frequency_table.md R150). -/
theorem TablePartition.lookupSym_eq {e : TabEntry} (he : e ∈ f.entries) : f.lookupSym e.sym = some e := by
  unfold FreqTable.lookupSym
  cases hf : f.entries.find? fun x => x.sym == e.sym with
  | none =>
    have := List.find?_eq_none.1 hf e he
    simp at this
  | some e' =>
    have hp := List.find?_some hf
    simp only [beq_iff_eq] at hp
    obtain ⟨i, hi, rfl⟩ := (mem_entries_iff h.tabN_le).1 he
    obtain ⟨j, hj, rfl⟩ := (mem_entries_iff h.tabN_le).1 (List.mem_of_find?_eq_some hf)
    rcases Nat.lt_trichotomy i j with hij | rfl | hij
    · exact absurd hp (h.2.2.2.2.2.2.2 j hj i hij)
    · rfl
    · exact absurd hp.symm (h.2.2.2.2.2.2.2 i hi j hij)

end

theorem lookupSym_none {f : FreqTable} {sym : Byte} (h : ∀ e ∈ f.entries, e.sym ≠ sym) :
    f.lookupSym sym = none := by
  unfold FreqTable.lookupSym
  rw [List.find?_eq_none]
  intro e he
  simpa using h e he

theorem lookupSym_some {f : FreqTable} {sym : Byte} {e : TabEntry} (h : f.lookupSym sym = some e) :
    e ∈ f.entries ∧ e.sym = sym :=
  ⟨List.mem_of_find?_eq_some h, by simpa using List.find?_some h⟩

end Sys2Proof.Machine
end

