-- ==== Sys2Proof/Laws/Build.lean ====
section
/-! SUPPORT. Counting and building (41_frequency_table.md R142 to R145): what FT_COUNT keeps, the table order, the
entries FT_BUILD writes, and that they partition the total (R152). -/

namespace Sys2Proof.Machine

/-! ### Writing entries -/

theorem entry_setEntry (f : FreqTable) (i : Nat) (e : TabEntry) (j : Nat) :
    (f.setEntry i e).entry j = if i = j ∧ i < 256 then e else f.entry j := by
  by_cases hij : i = j
  · subst hij
    by_cases h : i < 256
    · simp [FreqTable.entry, FreqTable.setEntry, h]
    · simp [FreqTable.entry, FreqTable.setEntry, h]
  · simp only [FreqTable.entry, FreqTable.setEntry, hij, false_and, if_false]
    rw [Vector.getElem?_setIfInBounds_ne hij]

@[simp] theorem setEntry_cnt (f : FreqTable) (i : Nat) (e : TabEntry) : (f.setEntry i e).cnt = f.cnt := rfl
@[simp] theorem setEntry_ord (f : FreqTable) (i : Nat) (e : TabEntry) : (f.setEntry i e).ord = f.ord := rfl
@[simp] theorem setEntry_nseen (f : FreqTable) (i : Nat) (e : TabEntry) : (f.setEntry i e).nseen = f.nseen := rfl
@[simp] theorem setEntry_total (f : FreqTable) (i : Nat) (e : TabEntry) : (f.setEntry i e).total = f.total := rfl
@[simp] theorem setEntry_tabN (f : FreqTable) (i : Nat) (e : TabEntry) : (f.setEntry i e).tabN = f.tabN := rfl
@[simp] theorem setEntry_tabValid (f : FreqTable) (i : Nat) (e : TabEntry) :
    (f.setEntry i e).tabValid = f.tabValid := rfl

@[simp] theorem setEntry_count (f : FreqTable) (i : Nat) (e : TabEntry) (b : Byte) :
    (f.setEntry i e).count b = f.count b := rfl

/-! ### A partition under construction -/

/-- Entries 0 to n - 1 tile [0, acc) with distinct symbols and counts of at least 1. -/
structure PrefixPartition (f : FreqTable) (n acc : Nat) : Prop where
  first : 0 < n → (f.entry 0).low.toNat = 0
  width : ∀ i < n, (f.entry i).high.toNat = (f.entry i).low.toNat + (f.entry i).cnt.toNat
  joined : ∀ i, i + 1 < n → (f.entry i).high.toNat = (f.entry (i + 1)).low.toNat
  last : 0 < n → (f.entry (n - 1)).high.toNat = acc
  empty : n = 0 → acc = 0
  positive : ∀ i < n, 1 ≤ (f.entry i).cnt.toNat
  distinct : ∀ i < n, ∀ j < i, (f.entry i).sym ≠ (f.entry j).sym

theorem PrefixPartition.nil (f : FreqTable) : PrefixPartition f 0 0 := by
  constructor <;> intros <;> first | rfl | omega

/-- One more entry at the end. -/
theorem PrefixPartition.snoc {f : FreqTable} {n acc : Nat} (h : PrefixPartition f n acc) {sym : Byte} {c : Nat}
    (hn : n < 256) (hc : 1 ≤ c) (hs : ∀ i < n, (f.entry i).sym ≠ sym) (hlt : acc + c < 2 ^ 64) :
    PrefixPartition
      (f.setEntry n ⟨sym, BitVec.ofNat 64 c, BitVec.ofNat 64 acc, BitVec.ofNat 64 (acc + c)⟩) (n + 1)
      (acc + c) := by
  have e0 : ∀ i < n, (f.setEntry n ⟨sym, BitVec.ofNat 64 c, BitVec.ofNat 64 acc,
      BitVec.ofNat 64 (acc + c)⟩).entry i = f.entry i := by
    intro i hi; rw [entry_setEntry, if_neg (by omega)]
  have e1 : (f.setEntry n ⟨sym, BitVec.ofNat 64 c, BitVec.ofNat 64 acc,
      BitVec.ofNat 64 (acc + c)⟩).entry n =
      ⟨sym, BitVec.ofNat 64 c, BitVec.ofNat 64 acc, BitVec.ofNat 64 (acc + c)⟩ := by
    rw [entry_setEntry, if_pos ⟨rfl, hn⟩]
  have t1 : (BitVec.ofNat 64 c).toNat = c := by
    rw [BitVec.toNat_ofNat, Nat.mod_eq_of_lt (by omega)]
  have t2 : (BitVec.ofNat 64 acc).toNat = acc := by
    rw [BitVec.toNat_ofNat, Nat.mod_eq_of_lt (by omega)]
  have t3 : (BitVec.ofNat 64 (acc + c)).toNat = acc + c := by
    rw [BitVec.toNat_ofNat, Nat.mod_eq_of_lt (by omega)]
  have split : ∀ i < n + 1, i < n ∨ i = n := fun i hi => by omega
  constructor
  · intro _
    rcases split 0 (by omega) with hi | hi
    · rw [e0 0 hi]; exact h.first hi
    · have h0 := h.empty hi.symm
      subst hi; rw [e1, t2]; exact h0
  · intro i hi
    rcases split i hi with hi | rfl
    · rw [e0 i hi]; exact h.width i hi
    · rw [e1]; simp only [t1, t2, t3]
  · intro i hi
    rw [e0 i (by omega)]
    rcases split (i + 1) hi with hi' | hi'
    · rw [e0 _ hi']; exact h.joined i hi'
    · rw [hi', e1]
      simp only [t2]
      rw [← h.last (by omega), show n - 1 = i by omega]
  · intro _
    rw [Nat.add_sub_cancel, e1]
    simp only [t3]
  · intro h0; omega
  · intro i hi
    rcases split i hi with hi | rfl
    · rw [e0 i hi]; exact h.positive i hi
    · rw [e1]; simp only [t1]; exact hc
  · intro i hi j hj
    rw [e0 j (by omega)]
    rcases split i hi with hi | rfl
    · rw [e0 i hi]; exact h.distinct i hi j hj
    · rw [e1]; exact (hs j hj).symm

/-- A finished construction is the table invariant (10_state.md R38). -/
theorem PrefixPartition.table {f : FreqTable} (hn : f.tabN.toNat ≤ 256)
    (h : PrefixPartition f f.tabN.toNat f.total.toNat) : TablePartition f :=
  ⟨hn, fun h0 => BitVec.eq_of_toNat_eq (by simpa using h.first h0), h.width,
    fun i _ h1 => BitVec.eq_of_toNat_eq (h.joined i h1), fun h0 => BitVec.eq_of_toNat_eq (h.last h0),
    fun h0 => BitVec.eq_of_toNat_eq (by simpa using h.empty h0), h.positive, h.distinct⟩

theorem PrefixPartition.congr {f g : FreqTable} {n acc : Nat} (h : PrefixPartition f n acc)
    (ht : g.tab = f.tab) : PrefixPartition g n acc := by
  have e : ∀ i, g.entry i = f.entry i := fun i => by rw [FreqTable.entry, ht]; rfl
  refine ⟨?_, ?_, ?_, ?_, h.empty, ?_, ?_⟩ <;> simp only [e]
  · exact h.first
  · exact h.width
  · exact h.joined
  · exact h.last
  · exact h.positive
  · exact h.distinct

/-! ### The table order (41_frequency_table.md R144) -/

theorem tableOrder_perm (f : FreqTable) : f.tableOrder.Perm f.firstSeen := List.perm_insertionSort _ _

theorem tableOrder_descending (f : FreqTable) :
    f.tableOrder.Pairwise fun a b => (f.count b).toNat ≤ (f.count a).toNat := by
  have : Std.Total fun a b : Byte => (f.count b).toNat ≤ (f.count a).toNat := ⟨fun a b => by omega⟩
  have : IsTrans Byte fun a b => (f.count b).toNat ≤ (f.count a).toNat := ⟨fun a b c h k => by omega⟩
  exact List.pairwise_insertionSort _ _

/-- The sort is stable: symbols of one count stay in first-seen order. -/
theorem tableOrder_stable (f : FreqTable) (c : Word64) :
    f.tableOrder.filter (fun b => f.count b == c) = f.firstSeen.filter (fun b => f.count b == c) := by
  have : Std.Total fun a b : Byte => (f.count b).toNat ≤ (f.count a).toNat := ⟨fun a b => by omega⟩
  have : IsTrans Byte fun a b => (f.count b).toNat ≤ (f.count a).toNat := ⟨fun a b c h k => by omega⟩
  have hsub : (f.firstSeen.filter (fun b => f.count b == c)).Sublist f.tableOrder := by
    refine List.sublist_insertionSort ?_ List.filter_sublist
    rw [List.pairwise_filter]
    refine List.pairwise_of_forall fun a b ha hb => ?_
    rw [beq_iff_eq.1 ha, beq_iff_eq.1 hb]
  have h2 : (f.firstSeen.filter fun b => f.count b == c).Sublist (f.tableOrder.filter fun b => f.count b == c) := by
    have := hsub.filter (fun b => f.count b == c)
    simpa [List.filter_filter] using this
  exact (h2.eq_of_length ((tableOrder_perm f).filter _).length_eq.symm).symm

/-! ### The entries FT_BUILD writes -/

/-- The running sum of the counts of a list of symbols. -/
theorem fillTable_rest (l : List Byte) (i : Nat) (acc : Word64) (f : FreqTable) :
    (fillTable l i acc f).cnt = f.cnt ∧ (fillTable l i acc f).ord = f.ord ∧
      (fillTable l i acc f).nseen = f.nseen ∧ (fillTable l i acc f).total = f.total := by
  induction l generalizing i acc f with
  | nil => exact ⟨rfl, rfl, rfl, rfl⟩
  | cons b l ih => exact ih _ _ _

theorem fillTable_entry_lt (l : List Byte) (i : Nat) (acc : Word64) (f : FreqTable) {j : Nat} (hj : j < i) :
    (fillTable l i acc f).entry j = f.entry j := by
  induction l generalizing i acc f with
  | nil => rfl
  | cons b l ih =>
    rw [fillTable, ih (i + 1) _ _ (by omega), entry_setEntry, if_neg (by omega)]

theorem fillTable_entry_ge (l : List Byte) (i : Nat) (acc : Word64) (f : FreqTable) {j : Nat}
    (hj : i + l.length ≤ j) : (fillTable l i acc f).entry j = f.entry j := by
  induction l generalizing i acc f with
  | nil => rfl
  | cons b l ih =>
    rw [List.length_cons] at hj
    rw [fillTable, ih (i + 1) _ _ (by omega), entry_setEntry, if_neg (by omega)]

/-- Entry i + k after the loop: symbol k of the list, its count, the running sums (41_frequency_table.md R144). -/
theorem fillTable_entry (l : List Byte) (i : Nat) (acc : Word64) (f : FreqTable) (k : Nat) (hk : k < l.length)
    (hn : i + l.length ≤ 256) :
    (fillTable l i acc f).entry (i + k) =
      ⟨l[k], f.count l[k],
        acc + BitVec.ofNat 64 ((l.take k).map fun b => (f.count b).toNat).sum,
        acc + BitVec.ofNat 64 ((l.take (k + 1)).map fun b => (f.count b).toNat).sum⟩ := by
  induction l generalizing i acc f k with
  | nil => simp at hk
  | cons b l ih =>
    rw [List.length_cons] at hn hk
    rw [fillTable]
    cases k with
    | zero =>
      rw [fillTable_entry_lt _ _ _ _ (by omega), entry_setEntry, if_pos ⟨by omega, by omega⟩]
      simp
    | succ k =>
      rw [show i + (k + 1) = i + 1 + k by omega, ih (i + 1) _ _ k (by omega) (by omega)]
      simp only [setEntry_count, List.getElem_cons_succ, List.take_succ_cons, List.map_cons, List.sum_cons,
        BitVec.ofNat_add, BitVec.ofNat_toNat, BitVec.setWidth_eq, BitVec.add_assoc]

/-- The loop extends a partition. -/
theorem fillTable_partition (l : List Byte) (i : Nat) (acc : Word64) (f : FreqTable)
    (h : PrefixPartition f i acc.toNat) (hn : i + l.length ≤ 256) (hd : l.Nodup)
    (hs : ∀ j < i, (f.entry j).sym ∉ l) (hc : ∀ b ∈ l, 1 ≤ (f.count b).toNat)
    (hlt : acc.toNat + (l.map fun b => (f.count b).toNat).sum < 2 ^ 64) :
    PrefixPartition (fillTable l i acc f) (i + l.length)
      (acc.toNat + (l.map fun b => (f.count b).toNat).sum) := by
  induction l generalizing i acc f with
  | nil => exact h
  | cons b l ih =>
    simp only [List.length_cons, List.map_cons, List.sum_cons, List.nodup_cons, List.mem_cons, not_or] at *
    have ha : (acc + f.count b).toNat = acc.toNat + (f.count b).toNat := by
      rw [BitVec.toNat_add, Nat.mod_eq_of_lt (by omega)]
    have hsn := h.snoc (sym := b) (c := (f.count b).toNat) (by omega) (hc b (.inl rfl)) (fun j hj => (hs j hj).1)
      (by omega)
    rw [← ha] at hsn
    simp only [BitVec.ofNat_toNat, BitVec.setWidth_eq] at hsn
    rw [fillTable, show i + (l.length + 1) = i + 1 + l.length by omega, ← Nat.add_assoc, ← ha]
    refine ih (i + 1) _ _ hsn (by omega) hd.2 (fun j hj => ?_) (fun x hx => hc x (.inr hx)) (by
      simp only [setEntry_count]; omega)
    rw [entry_setEntry]
    split
    · exact hd.1
    · rename_i hne
      exact (hs j (by omega)).2

/-! ### Counting (41_frequency_table.md R143) -/

theorem count_setCount (f : FreqTable) (a b : Byte) (v : Word64) :
    (f.setCount a v).count b = if b = a then v else f.count b := by
  by_cases h : b = a
  · subst h; simp [FreqTable.count, FreqTable.setCount]
  · have hne : a.toNat ≠ b.toNat := fun e => h (BitVec.eq_of_toNat_eq e.symm)
    simp [FreqTable.count, FreqTable.setCount, h, Vector.getElem_set_ne _ _ hne]

@[simp] theorem noteFirstSeen_cnt (f : FreqTable) (b : Byte) : (f.noteFirstSeen b).cnt = f.cnt := by
  unfold FreqTable.noteFirstSeen; split <;> rfl

theorem countSymbol_count (f : FreqTable) (a b : Byte) :
    (f.countSymbol a).count b = if b = a then f.count b + 1#64 else f.count b := by
  have h : ∀ x, (f.noteFirstSeen a).count x = f.count x := fun x => by
    unfold FreqTable.noteFirstSeen; split <;> rfl
  show ((f.noteFirstSeen a).setCount a _).count b = _
  rw [count_setCount, h]
  split
  · rename_i e; rw [e]
  · rfl

theorem mem_firstSeen_count {f : FreqTable} (h : CountsAgree f) (b : Byte) : f.count b ≠ 0#64 ↔ b ∈ f.firstSeen := by
  have := h.2.2.1 b.toNat b.isLt
  simpa using this

theorem length_firstSeen {f : FreqTable} (h : f.nseen.toNat ≤ 256) : f.firstSeen.length = f.nseen.toNat := by
  simp [FreqTable.firstSeen, h]

/-- Distinct bytes, none of them `b`: fewer than 256. -/
theorem length_lt_of_not_mem {l : List Byte} (hd : l.Nodup) {b : Byte} (hb : b ∉ l) : l.length < 256 := by
  have hnd : (b :: l).Nodup := List.nodup_cons.2 ⟨hb, hd⟩
  have := (hnd.map (f := BitVec.toFin) (fun _ _ h => BitVec.eq_of_toFin_eq h)).length_le_card
  simpa using this

/-- FT_COUNT keeps the counting invariant while TOTAL is below its limit. -/
theorem CountsAgree.countSymbol {f : FreqTable} (h : CountsAgree f) (ht : f.total.toNat < 2 ^ 64 - 1) (a : Byte) :
    CountsAgree (f.countSymbol a) := by
  have hmem := mem_firstSeen_count h
  obtain ⟨h1, h2, _, h4⟩ := h
  have htot : (f.countSymbol a).total.toNat = f.total.toNat + 1 := by
    show (f.total + 1#64).toNat = _
    rw [BitVec.toNat_add]; simp only [BitVec.toNat_ofNat]; omega
  have hle : ∀ b ∈ f.firstSeen, (f.count b).toNat ≤ f.total.toNat := by
    intro b hb
    rw [← h4]
    exact List.single_le_sum (by simp) _ (List.mem_map.2 ⟨b, hb, rfl⟩)
  have hinc : ∀ b, (f.count b).toNat ≤ f.total.toNat → (f.count b + 1#64).toNat = (f.count b).toNat + 1 := by
    intro b hb
    rw [BitVec.toNat_add]; simp only [BitVec.toNat_ofNat]; omega
  have hne : ∀ b, (f.count b).toNat ≤ f.total.toNat → f.count b + 1#64 ≠ 0#64 := by
    intro b hb e
    have := hinc b hb
    rw [e] at this
    simp at this
  by_cases hz : f.count a = 0#64
  · have hna : a ∉ f.firstSeen := fun hc => (hmem a).2 hc hz
    have hlt : f.nseen.toNat < 256 := by
      rw [← length_firstSeen h1]; exact length_lt_of_not_mem h2 hna
    have hns : (f.countSymbol a).nseen.toNat = f.nseen.toNat + 1 := by
      have : (f.countSymbol a).nseen = f.nseen + 1#9 := by
        show (f.noteFirstSeen a).nseen = _
        rw [FreqTable.noteFirstSeen, if_pos hz]
      rw [this, BitVec.toNat_add]; simp only [BitVec.toNat_ofNat]; omega
    have hfs : (f.countSymbol a).firstSeen = f.firstSeen ++ [a] := by
      have ho : (f.countSymbol a).ord = f.ord.setIfInBounds f.nseen.toNat a := by
        show (f.noteFirstSeen a).ord = _
        rw [FreqTable.noteFirstSeen, if_pos hz]
        rfl
      rw [FreqTable.firstSeen, hns, ho, FreqTable.firstSeen]
      apply List.ext_getElem?
      intro i
      have hl : f.nseen.toNat < f.ord.toList.length := by simp [hlt]
      rcases Nat.lt_trichotomy i f.nseen.toNat with hi | rfl | hi
      · rw [List.getElem?_take_of_lt (by omega), List.getElem?_append_left (by simp; omega),
          List.getElem?_take_of_lt hi]
        simp [Vector.toList_setIfInBounds, Nat.ne_of_gt hi]
      · rw [List.getElem?_take_of_lt (by omega), List.getElem?_append_right (by simp)]
        simp [Nat.min_eq_left (Nat.le_of_lt hlt), hlt]
      · rw [List.getElem?_take_eq_none (by omega), List.getElem?_append_right (by simp; omega)]
        simp; omega
    refine ⟨by rw [hns]; exact hlt, ?_, fun k hk => ?_, ?_⟩
    · rw [hfs]
      exact List.nodup_append.2 ⟨h2, by simp, by rintro x hx y hy rfl; simp at hy; exact hna (hy ▸ hx)⟩
    · rw [hfs, countSymbol_count, List.mem_append, List.mem_singleton]
      by_cases e : BitVec.ofNat 8 k = a
      · rw [if_pos e]
        simp only [e, or_true, iff_true]
        exact hne a (by rw [hz]; simp)
      · rw [if_neg e]
        simp only [e, or_false]
        exact hmem _
    · rw [hfs, htot, List.map_append, List.sum_append, ← h4]
      congr 1
      · refine congrArg _ (List.map_congr_left fun b hb => ?_)
        rw [countSymbol_count, if_neg (fun e : b = a => hna (e ▸ hb))]
      · simp [countSymbol_count, hz]
  · have hna : a ∈ f.firstSeen := (hmem a).1 hz
    have hnf : f.noteFirstSeen a = f := by rw [FreqTable.noteFirstSeen, if_neg hz]
    have hfs : (f.countSymbol a).firstSeen = f.firstSeen := by
      rw [FreqTable.firstSeen, FreqTable.countSymbol, hnf]; rfl
    have hns : (f.countSymbol a).nseen = f.nseen := by
      rw [FreqTable.countSymbol, hnf]; rfl
    refine ⟨by rw [hns]; exact h1, by rw [hfs]; exact h2, fun k hk => ?_, ?_⟩
    · rw [hfs, countSymbol_count, ← hmem]
      split
      · rename_i e
        rw [e]
        exact ⟨fun _ => hz, fun _ => hne a (hle a hna)⟩
      · rfl
    · rw [hfs, htot, ← h4]
      obtain ⟨l1, l2, hl⟩ := List.append_of_mem hna
      have hd := h2
      rw [hl, List.nodup_append, List.nodup_cons] at hd
      have e1 : ∀ b ∈ l1, (f.countSymbol a).count b = f.count b := fun b hb => by
        rw [countSymbol_count, if_neg (fun e => hd.2.2 b hb a (by simp) e)]
      have e2 : ∀ b ∈ l2, (f.countSymbol a).count b = f.count b := fun b hb => by
        rw [countSymbol_count, if_neg (fun e : b = a => hd.2.1.1 (e ▸ hb))]
      rw [hl, List.map_append, List.map_append, List.map_cons, List.map_cons, List.sum_append, List.sum_append,
        List.sum_cons, List.sum_cons, List.map_congr_left (fun b hb => congrArg BitVec.toNat (e1 b hb)),
        List.map_congr_left (fun b hb => congrArg BitVec.toNat (e2 b hb)), countSymbol_count, if_pos rfl,
        hinc a (hle a hna)]
      omega

/-- FT_BUILD gives a table that partitions the total (41_frequency_table.md R152). -/
theorem buildTable_partition {s : State} (h : CountsAgree s.ft) : TablePartition (buildTable s).ft := by
  have hmem := mem_firstSeen_count h
  have hp := tableOrder_perm s.ft
  have hlen : s.ft.tableOrder.length = s.ft.nseen.toNat := by
    rw [hp.length_eq, length_firstSeen h.1]
  have hsum : (s.ft.tableOrder.map fun b => (s.ft.count b).toNat).sum = s.ft.total.toNat := by
    rw [← h.2.2.2]; exact (hp.map _).sum_eq
  have hn : s.ft.nseen.toNat ≤ 256 := h.1
  have := fillTable_partition s.ft.tableOrder 0 0#64 s.ft (.nil _) (by omega) (hp.nodup_iff.2 h.2.1)
    (fun j hj => by omega)
    (fun b hb => by
      have := (hmem b).2 (hp.mem_iff.1 hb)
      have hz : (s.ft.count b).toNat ≠ 0 := fun e => this (BitVec.eq_of_toNat_eq e)
      omega)
    (by rw [hsum]; have := s.ft.total.isLt; simpa using this)
  rw [hsum, hlen] at this
  simp only [BitVec.toNat_ofNat, Nat.zero_mod, Nat.zero_add] at this
  have ht : (buildTable s).ft.total = s.ft.total := (fillTable_rest _ _ _ _).2.2.2
  refine PrefixPartition.table hn (PrefixPartition.congr (f := fillTable s.ft.tableOrder 0 0#64 s.ft) ?_ rfl)
  rw [ht]
  exact this

end Sys2Proof.Machine
end

