-- ==== Sys2Proof/Laws/Interval.lean ====
section
/-! SUPPORT. The interval arithmetic (42_interval.md): Narrow, Classify, Rescale and the number of passes. -/

namespace Sys2Proof.Machine

theorem offsetOf_eq_scaled (r : Word32) (b t : Word64) : offsetOf r b t = scaled r b t := rfl

theorem scaled_mono (r : Word32) (total : Word64) {a b : Word64} (h : a.toNat ≤ b.toNat) :
    scaled r a total ≤ scaled r b total :=
  Nat.div_le_div_right (Nat.mul_le_mul_left _ h)

theorem scaled_le (r : Word32) {b total : Word64} (h : b.toNat ≤ total.toNat) : scaled r b total ≤ r.toNat :=
  Nat.div_le_of_le_mul (by rw [Nat.mul_comm total.toNat]; exact Nat.mul_le_mul_left _ h)

theorem scaled_total (r : Word32) {total : Word64} (h : 0 < total.toNat) : scaled r total total = r.toNat :=
  Nat.mul_div_cancel _ h

@[simp] theorem scaled_zero (r : Word32) (total : Word64) : scaled r 0#64 total = 0 := by
  simp [scaled]

theorem narrow_eq (l r : Word32) (low high total : Word64) :
    narrow l r low high total =
      if scaled r high total - scaled r low total = 0 then none
      else some (BitVec.ofNat 32 (l.toNat + scaled r low total),
        BitVec.ofNat 32 (scaled r high total - scaled r low total)) := rfl

theorem narrow_eq_none_iff {l r : Word32} {low high total : Word64} :
    narrow l r low high total = none ↔ scaled r high total - scaled r low total = 0 := by
  simp [narrow_eq]

/-- What a successful Narrow gives (42_interval.md R173), exactly, without a bound on the table. -/
theorem narrow_eq_some {l r l' r' : Word32} {low high total : Word64}
    (h : narrow l r low high total = some (l', r')) :
    0 < scaled r high total - scaled r low total ∧
      l' = BitVec.ofNat 32 (l.toNat + scaled r low total) ∧
      r' = BitVec.ofNat 32 (scaled r high total - scaled r low total) := by
  rw [narrow_eq] at h
  split at h
  · simp at h
  · simp only [Option.some.injEq, Prod.mk.injEq] at h
    exact ⟨by omega, h.1.symm, h.2.symm⟩

theorem narrow_of_pos {l r : Word32} {low high total : Word64}
    (h : 0 < scaled r high total - scaled r low total) :
    narrow l r low high total =
      some (BitVec.ofNat 32 (l.toNat + scaled r low total),
        BitVec.ofNat 32 (scaled r high total - scaled r low total)) := by
  rw [narrow_eq, if_neg (by omega)]

/-- The narrowed interval lies inside the old one (42_interval.md R173). -/
theorem narrow_inside {l r l' r' : Word32} {low high total : Word64} (hlh : low.toNat ≤ high.toNat)
    (hht : high.toNat ≤ total.toNat) (hi : IntervalOk l r)
    (h : narrow l r low high total = some (l', r')) :
    l'.toNat = l.toNat + scaled r low total ∧
      r'.toNat = scaled r high total - scaled r low total ∧ IntervalOk l' r' ∧
      l'.toNat + r'.toNat = l.toNat + scaled r high total := by
  obtain ⟨hp, rfl, rfl⟩ := narrow_eq_some h
  have h1 := scaled_mono r total hlh
  have h2 := scaled_le r hht
  obtain ⟨i1, i2, i3⟩ := hi
  simp only [Config.halfMax, Config.fullMax, IntervalOk, BitVec.toNat_ofNat] at *
  rw [Nat.mod_eq_of_lt (by omega), Nat.mod_eq_of_lt (by omega)]
  omega

/-- No entry is squeezed to nothing while TOTAL <= Range (42_interval.md R179). -/
theorem scaled_strict {r : Word32} {low high total : Word64} (hlh : low.toNat < high.toNat)
    (ht : 0 < total.toNat) (hr : total.toNat ≤ r.toNat) : scaled r low total < scaled r high total := by
  unfold scaled
  rw [Nat.div_lt_iff_lt_mul ht]
  have h1 : r.toNat * low.toNat + total.toNat ≤ r.toNat * high.toNat := by
    calc r.toNat * low.toNat + total.toNat ≤ r.toNat * low.toNat + r.toNat := by omega
      _ = r.toNat * (low.toNat + 1) := by ring
      _ ≤ r.toNat * high.toNat := Nat.mul_le_mul_left _ hlh
  have h2 := Nat.div_add_mod (r.toNat * high.toNat) total.toNat
  have h3 := Nat.mod_lt (r.toNat * high.toNat) ht
  rw [Nat.mul_comm (r.toNat * high.toNat / total.toNat)]
  omega

/-! ### Classify and Rescale -/

theorem classify_eq_caseOf (l r : Word32) : classify l r = caseOf l.toNat r.toNat := rfl

theorem offset_toNat (c : IntervalCase) : c.offset.toNat = offsetValue c := by cases c <;> rfl

/-- The offset a case subtracts is at most Lower, and what is left doubles without overflow (42_interval.md
R175). -/
theorem caseOf_bounds {l r : Nat} (hr : r ≤ 2 ^ 30) (hs : l + r ≤ 2 ^ 32) :
    offsetValue (caseOf l r) ≤ l ∧ 2 * (l - offsetValue (caseOf l r)) + 2 * r ≤ 2 ^ 32 := by
  unfold caseOf
  split
  · simp only [offsetValue]; omega
  · split <;> simp only [offsetValue] <;> omega

theorem caseOf_e3 {l r : Nat} (h : caseOf l r = .e3) : 2 ^ 31 < l + r ∧ l < 2 ^ 31 := by
  unfold caseOf at h
  split at h
  · simp at h
  · split at h
    · simp at h
    · omega

theorem rescale_exact {l r : Word32} (hr : r.toNat ≤ 2 ^ 30) (h1 : 1 ≤ r.toNat)
    (hs : l.toNat + r.toNat ≤ 2 ^ 32) :
    (rescaleLower (classify l r) l).toNat = 2 * (l.toNat - offsetValue (caseOf l.toNat r.toNat)) ∧
      (rescaleRange r).toNat = 2 * r.toNat := by
  obtain ⟨b1, b2⟩ := caseOf_bounds hr hs
  have ho := offset_toNat (classify l r)
  rw [classify_eq_caseOf] at ho
  constructor
  · rw [rescaleLower, classify_eq_caseOf, BitVec.toNat_mul, BitVec.toNat_sub, ho]
    simp only [BitVec.toNat_ofNat]
    omega
  · rw [rescaleRange, BitVec.toNat_mul]
    simp only [BitVec.toNat_ofNat]
    omega

theorem needsPass_iff (r : Word32) : needsPass r = true ↔ r.toNat ≤ 2 ^ 30 := by
  simp [needsPass]

/-- One pass keeps the interval inside 2^32 (42_interval.md R177). -/
theorem rescale_intervalOk {l r : Word32} (hr : r.toNat ≤ 2 ^ 30) (hi : IntervalOk l r) :
    IntervalOk (rescaleLower (classify l r) l) (rescaleRange r) := by
  obtain ⟨i1, i2, i3⟩ := hi
  have hs : l.toNat + r.toNat ≤ 2 ^ 32 := by simpa using i3
  obtain ⟨e1, e2⟩ := rescale_exact hr i1 hs
  obtain ⟨b1, b2⟩ := caseOf_bounds hr hs
  refine ⟨by omega, ?_, ?_⟩
  · rw [e2]; show _ ≤ 2147483648; omega
  · rw [e1, e2]; show _ ≤ 4294967296; omega

theorem IntervalSettled.ok {l r : Word32} (h : IntervalSettled l r) : IntervalOk l r :=
  ⟨by have := h.1; omega, h.2⟩

/-! ### The loop over natural numbers (42_interval.md R176) -/

theorem renorm_succ_of_le {n l r : Nat} (h : r ≤ 2 ^ 30) :
    renorm (n + 1) l r =
      (caseOf l r :: (renorm n (2 * (l - offsetValue (caseOf l r))) (2 * r)).1,
        (renorm n (2 * (l - offsetValue (caseOf l r))) (2 * r)).2) := by
  rw [renorm, if_pos h]

theorem renorm_of_lt {n l r : Nat} (h : 2 ^ 30 < r) : renorm n l r = ([], l, r) := by
  cases n with
  | zero => rfl
  | succ n => rw [renorm, if_neg (by omega)]

theorem renorm_length_le (n l r : Nat) : (renorm n l r).1.length ≤ n := by
  induction n generalizing l r with
  | zero => exact le_rfl
  | succ n ih =>
    rw [renorm]
    split
    · rw [List.length_cons]; exact Nat.succ_le_succ (ih _ _)
    · exact Nat.zero_le _

/-- The number of passes is the least k with R * 2^k > 2^30 (42_interval.md R176). -/
theorem renorm_passes {n l r : Nat} (h1 : 1 ≤ r) (hn : 2 ^ 30 < r * 2 ^ n) :
    ∃ k ≤ n, (renorm n l r).1.length = k ∧ (renorm n l r).2.2 = r * 2 ^ k ∧ 2 ^ 30 < r * 2 ^ k ∧
      ∀ j < k, r * 2 ^ j ≤ 2 ^ 30 := by
  induction n generalizing l r with
  | zero => exact ⟨0, le_rfl, rfl, by simp [renorm], hn, by simp⟩
  | succ n ih =>
    by_cases hr : r ≤ 2 ^ 30
    · obtain ⟨k, k1, k2, k3, k4, k5⟩ :=
        ih (l := 2 * (l - offsetValue (caseOf l r))) (r := 2 * r) (by omega)
          (by rw [show r * 2 ^ (n + 1) = 2 * r * 2 ^ n by ring] at hn; exact hn)
      refine ⟨k + 1, by omega, ?_, ?_, ?_, ?_⟩
      · rw [renorm_succ_of_le hr, List.length_cons, k2]
      · rw [renorm_succ_of_le hr, k3, pow_succ]; ring
      · rw [show r * 2 ^ (k + 1) = 2 * r * 2 ^ k by ring]; exact k4
      · intro j hj
        cases j with
        | zero => simpa using hr
        | succ j => rw [show r * 2 ^ (j + 1) = 2 * r * 2 ^ j by ring]; exact k5 j (by omega)
    · rw [renorm_of_lt (by omega)]
      exact ⟨0, by omega, rfl, by simp, by omega, by simp⟩

end Sys2Proof.Machine
end

