-- ==== Sys2Proof/Laws/Payload.lean ====
section
/-! SUPPORT. The payload as the read side sees it (40_bitpacker.md R125 to R128): the bytes a source still gives,
extended with zeros, and the bits ReadBit takes from them in order. -/

namespace Sys2Proof.Machine

/-! ### The padded bytes -/

@[simp] theorem length_paddedBytes (n : Nat) (e : Bool) (as : List SrcAnswer) :
    (paddedBytes n e as).length = n := by
  fun_induction paddedBytes n e as <;> simp_all

theorem paddedBytes_true (n : Nat) (as : List SrcAnswer) : paddedBytes n true as = List.replicate n 0#8 := by
  induction n with
  | zero => rfl
  | succ n ih => rw [paddedBytes, ih, List.replicate_succ]

/-- A shorter list of padded bytes begins a longer one. -/
theorem paddedBytes_take (n m : Nat) (e : Bool) (as : List SrcAnswer) :
    (paddedBytes (n + m) e as).take n = paddedBytes n e as := by
  induction n generalizing e as with
  | zero => simp [paddedBytes]
  | succ n ih =>
    rw [show n + 1 + m = (n + m) + 1 by omega]
    cases e with
    | true => simp [paddedBytes, ih]
    | false =>
      cases as with
      | nil => simp [paddedBytes, ih]
      | cons a as => cases a <;> simp [paddedBytes, ih]

/-- Byte q of the payload does not depend on how many bytes are listed. -/
theorem paddedBytes_getD {n q : Nat} (hq : q < n) (e : Bool) (as : List SrcAnswer) :
    (paddedBytes n e as).getD q 0#8 = (paddedBytes (q + 1) e as).getD q 0#8 := by
  obtain ⟨m, rfl⟩ : ∃ m, n = q + 1 + m := ⟨n - (q + 1), by omega⟩
  rw [← paddedBytes_take (q + 1) m]
  simp only [List.getD_eq_getElem?_getD]
  rw [List.getElem?_take_of_lt (by omega)]

/-! ### GetWordPadded -/

/-- Only SRC_EOS and the ports differ; the source refuses nothing; the next `n` payload bytes were `bs`. -/
structure Padded (bs : List Byte) (s t : State) : Prop where
  rest : t = { s with dec := { s.dec with srcEos := t.dec.srcEos }, ports := t.ports }
  ports : SourceMoves s.ports t.ports
  isOpen : SourceOpen t
  bytes : ∀ m, paddedBytes (bs.length + m) s.dec.srcEos s.ports.source =
    bs ++ paddedBytes m t.dec.srcEos t.ports.source

theorem Padded.refl {s : State} (h : SourceOpen s) : Padded [] s s :=
  ⟨rfl, .refl _, h, fun m => by simp⟩

theorem Padded.trans {as bs : List Byte} {s t u : State} (h : Padded as s t) (k : Padded bs t u) :
    Padded (as ++ bs) s u := by
  refine ⟨by rw [k.rest, h.rest], h.ports.trans k.ports, k.isOpen, fun m => ?_⟩
  rw [List.length_append, Nat.add_assoc, h.bytes, k.bytes, List.append_assoc]

/-- One payload byte, from a source that neither fails nor falls silent (40_bitpacker.md R125). -/
theorem getBytePadded_open {s : State} (h : SourceOpen s) :
    ∃ b t, getBytePadded s = .ok b t ∧ Padded [b] s t := by
  unfold getBytePadded
  by_cases he : s.dec.srcEos = true
  · rw [if_pos he]
    exact ⟨_, _, rfl, rfl, .refl _, h, fun m => by
      rw [he, show [0#8].length + m = m + 1 from Nat.add_comm 1 m, paddedBytes]; rfl⟩
  · rw [if_neg he]
    simp only [Bool.not_eq_true] at he
    cases hs : s.ports.source with
    | nil =>
      rw [srcGet_eos (by simp [hs])]
      refine ⟨_, _, rfl, rfl, ⟨rfl, rfl, List.tail_suffix _, ⟨_, rfl, by simp⟩⟩,
        by simp [hs, SourceOpen], fun m => ?_⟩
      rw [he, hs, show [0#8].length + m = m + 1 from Nat.add_comm 1 m, paddedBytes]
      · simp
      · simp
    | cons a as =>
      have ho : ∀ x ∈ as, x ≠ SrcAnswer.err ∧ x ≠ SrcAnswer.never := fun x hx => h x (by simp [hs, hx])
      have ha := h a (by simp [hs])
      cases a with
      | byte b =>
        rw [srcGet_byte hs]
        refine ⟨_, _, rfl, rfl, ⟨rfl, rfl, by simp [hs], ⟨_, rfl, by simp⟩⟩, ho, fun m => ?_⟩
        rw [he, hs, show [b].length + m = m + 1 from Nat.add_comm 1 m, paddedBytes]
        simp [withSourceAnswers, he]
      | eos =>
        rw [srcGet_eos (by simp [hs])]
        refine ⟨_, _, rfl, rfl, ⟨rfl, rfl, by simp [hs], ⟨_, rfl, by simp⟩⟩, by simpa [hs, SourceOpen] using ho,
          fun m => ?_⟩
        rw [he, hs, show [0#8].length + m = m + 1 from Nat.add_comm 1 m, paddedBytes]
        · simp [paddedBytes_true]
        · simp
      | err => exact absurd rfl ha.1
      | never => exact absurd rfl ha.2

/-- A byte shifted in below a word (40_bitpacker.md R125). -/
theorem shiftIn_byte_toNat (w : Word32) (b : Byte) :
    ((w <<< 8) ||| b.setWidth 32).toNat = (w.toNat * 2 ^ 8 + b.toNat) % 2 ^ 32 := by
  have e : (w <<< 8) ||| b.setWidth 32 = w <<< 8 + b.setWidth 32 := by
    rw [BitVec.add_eq_or_of_and_eq_zero]
    ext i hi
    simp only [BitVec.getElem_and, BitVec.getElem_zero, Bool.and_eq_false_iff]
    by_cases h8 : i < 8
    · left; simp [h8]
    · right; simp [BitVec.getElem_setWidth, BitVec.getLsbD_of_ge b i (by omega)]
  rw [e]
  simp only [BitVec.toNat_add, BitVec.toNat_shiftLeft, BitVec.toNat_setWidth, Nat.shiftLeft_eq]
  have := b.isLt
  omega

/-- One byte and then n more (40_bitpacker.md R125), modulo 2^32. -/
theorem shiftIn_byte_step (w : Word32) (b : Byte) (n r : Nat) :
    (((w <<< 8) ||| b.setWidth 32).toNat * 2 ^ (8 * n) + r) % 2 ^ 32 =
      (w.toNat * 2 ^ (8 * (n + 1)) + (b.toNat * 2 ^ (8 * n) + r)) % 2 ^ 32 := by
  rw [shiftIn_byte_toNat]
  have e : ((w.toNat * 2 ^ 8 + b.toNat) % 2 ^ 32 * 2 ^ (8 * n) + r) % 2 ^ 32 =
      ((w.toNat * 2 ^ 8 + b.toNat) * 2 ^ (8 * n) + r) % 2 ^ 32 :=
    ((Nat.mod_modEq _ _).mul_right _).add_right _
  rw [e, show 8 * (n + 1) = 8 + 8 * n by ring, pow_add]
  congr 1
  ring

theorem getBytePadded_byte {s : State} {b : Byte} {rest : List SrcAnswer} (he : s.dec.srcEos = false)
    (h : s.ports.source = .byte b :: rest) : getBytePadded s = .ok b (withSourceAnswers s [.byte b] rest) := by
  simp [getBytePadded, he, srcGet_byte h]

/-- Once SRC_EOS is 1 the bytes are zeros, without a transaction (40_bitpacker.md R125). -/
theorem getWordFrom_eos (n : Nat) (w : Word32) {s : State} (he : s.dec.srcEos = true) :
    getWordFrom n w s = .ok (BitVec.ofNat 32 (w.toNat * 2 ^ (8 * n))) s := by
  induction n generalizing w with
  | zero => simp [getWordFrom]
  | succ n ih =>
    rw [getWordFrom, getBytePadded, if_pos he, Res.ok_andThen, ih]
    congr 1
    apply BitVec.eq_of_toNat_eq
    simp only [BitVec.toNat_ofNat]
    simpa using shiftIn_byte_step w 0#8 n 0

/-- Bytes that are there are shifted in (40_bitpacker.md R125). -/
theorem getWordFrom_bytes (bs : List Byte) (n : Nat) (w : Word32) {s : State} {rest : List SrcAnswer}
    (he : s.dec.srcEos = false) (h : s.ports.source = bs.map .byte ++ rest) :
    getWordFrom (bs.length + n) w s =
      getWordFrom n (BitVec.ofNat 32 (w.toNat * 2 ^ (8 * bs.length) + bigEndian bs))
        (withSourceAnswers s (bs.map .byte) rest) := by
  induction bs generalizing w s with
  | nil => simp [bigEndian, withSourceAnswers_nil (by simpa using h)]
  | cons b bs ih =>
    rw [List.length_cons, show bs.length + 1 + n = (bs.length + n) + 1 by omega, getWordFrom,
      getBytePadded_byte he (by simpa using h), Res.ok_andThen,
      ih (s := withSourceAnswers s [.byte b] _) _ he rfl, withSourceAnswers_append]
    simp only [List.map_cons, List.singleton_append]
    congr 1
    apply BitVec.eq_of_toNat_eq
    simp only [BitVec.toNat_ofNat, bigEndian]
    exact shiftIn_byte_step w b bs.length _

/-- A source that fails before the word is read (40_bitpacker.md R125; 20_memory.md R61). -/
theorem getWordFrom_err (bs : List Byte) {n : Nat} (w : Word32) {s : State} {rest : List SrcAnswer}
    (he : s.dec.srcEos = false) (hn : bs.length < n) (h : s.ports.source = bs.map .byte ++ .err :: rest) :
    getWordFrom n w s = .raise .ioSource (withSourceAnswers s (bs.map .byte ++ [.err]) rest) := by
  obtain ⟨m, rfl⟩ : ∃ m, n = bs.length + (m + 1) := ⟨n - bs.length - 1, by omega⟩
  rw [getWordFrom_bytes bs _ w he h, getWordFrom, getBytePadded, if_neg (by simp [he]), srcGet_err rfl]
  simp [withSourceAnswers_append]

theorem getWordFrom_open (n : Nat) (w : Word32) {s : State} (h : SourceOpen s) :
    ∃ v bs t, getWordFrom n w s = .ok v t ∧ bs.length = n ∧ Padded bs s t ∧
      v.toNat = (w.toNat * 2 ^ (8 * n) + bigEndian bs) % 2 ^ 32 := by
  induction n generalizing w s with
  | zero => exact ⟨w, [], s, rfl, rfl, .refl h, by simp [bigEndian, Nat.mod_eq_of_lt w.isLt]⟩
  | succ n ih =>
    obtain ⟨b, u, hu, hp⟩ := getBytePadded_open h
    obtain ⟨v, bs, t, ht, hl, hpt, hv⟩ := ih ((w <<< 8) ||| b.setWidth 32) hp.isOpen
    refine ⟨v, b :: bs, t, by rw [getWordFrom, hu]; exact ht, by simp [hl], hp.trans hpt, ?_⟩
    rw [hv, bigEndian, hl]
    exact shiftIn_byte_step w b n _

/-- GetWordPadded gives the next four payload bytes, big-endian (40_bitpacker.md R125). -/
theorem getWordPadded_open {s : State} (h : SourceOpen s) :
    ∃ w bs t, getWordPadded s = .ok w t ∧ bs.length = 4 ∧ Padded bs s t ∧ w.toNat = bigEndian bs := by
  obtain ⟨w, bs, t, ht, hl, hp, hw⟩ := getWordFrom_open 4 0#32 h
  refine ⟨w, bs, t, ht, hl, hp, ?_⟩
  have := bigEndian_lt bs
  rw [hl] at this
  rw [hw, BitVec.toNat_ofNat, Nat.zero_mod, Nat.zero_mul, Nat.zero_add, Nat.mod_eq_of_lt (by omega)]

/-- The bits of a word, by its four bytes (20_memory.md R67). -/
theorem getLsbD_word {w : Word32} {bs : List Byte} (hl : bs.length = 4) (hw : w.toNat = bigEndian bs) {i : Nat}
    (hi : i < 32) : w.getLsbD (31 - i) = (bs.getD (i / 8) 0#8).getLsbD (7 - i % 8) := by
  have e : bs = beBytes 4 w.toNat :=
    bigEndian_injective (by simp [hl]) (by rw [bigEndian_beBytes (by have := w.isLt; omega), hw])
  rw [e, beBytes_toNat]
  have hq : i / 8 < 4 := by omega
  simp only [List.getD_eq_getElem?_getD, List.getElem?_map, List.getElem?_range hq, Option.map_some,
    Option.getD_some, BitVec.getLsbD_extractLsb']
  have h1 : 7 - i % 8 < 8 := by omega
  simp only [h1, decide_true, Bool.true_and]
  congr 1
  omega

/-! ### ReadBit -/

theorem bitsLeft_of_ne {d : Decoder} (h : d.ridx ≠ 31#5) : bitsLeft d = d.ridx.toNat + 1 := by
  rw [bitsLeft, if_neg h]

theorem ridx_lt {i : BitVec 5} (h : i ≠ 31#5) : i.toNat < 31 := by bv_omega

/-- ReadBit inside a buffered word. -/
theorem readBit_buffered {s : State} (h : s.dec.ridx ≠ 31#5) :
    readBit s = .ok (s.dec.rbuf.getLsbD s.dec.ridx.toNat)
      (s.setReadBuffer s.dec.rbuf (nextIndex s.dec.ridx)) := by
  rw [readBit, refill, if_neg h]; rfl

/-- The bits left after a buffered ReadBit. -/
theorem bitsLeft_next (d : Decoder) :
    bitsLeft { d with ridx := nextIndex d.ridx } = d.ridx.toNat ∧
      ∀ k < d.ridx.toNat, (nextIndex d.ridx).toNat - k = d.ridx.toNat - (k + 1) := by
  by_cases h0 : d.ridx = 0#5
  · simp [bitsLeft, nextIndex, h0]
  · have hn : (d.ridx - 1#5).toNat = d.ridx.toNat - 1 := by bv_omega
    have hp : 0 < d.ridx.toNat := by bv_omega
    simp only [bitsLeft, nextIndex, h0, if_false, hn]
    rw [if_neg (by bv_omega)]
    exact ⟨by omega, fun k _ => by omega⟩

/-- ReadBit inside a buffered word gives the next bit, and the bits after it come after it (40_bitpacker.md R128). -/
theorem readBit_buffered_upcoming {s : State} (h : s.dec.ridx ≠ 31#5) :
    readBit s = .ok (upcomingBit s 0) (s.setReadBuffer s.dec.rbuf (nextIndex s.dec.ridx)) ∧
      ∀ j, upcomingBit (s.setReadBuffer s.dec.rbuf (nextIndex s.dec.ridx)) j = upcomingBit s (j + 1) := by
  have hb := bitsLeft_of_ne h
  refine ⟨?_, fun j => ?_⟩
  · rw [readBit_buffered h]
    congr 1
    rw [upcomingBit, hb, if_pos (by omega)]
    rfl
  · have ht : bitsLeft (s.setReadBuffer s.dec.rbuf (nextIndex s.dec.ridx)).dec = s.dec.ridx.toNat :=
      (bitsLeft_next s.dec).1
    rw [upcomingBit, upcomingBit, ht, hb]
    by_cases hj : j < s.dec.ridx.toNat
    · rw [if_pos hj, if_pos (by omega)]
      simp only [State.setReadBuffer_dec, (bitsLeft_next s.dec).2 j hj]
    · rw [if_neg hj, if_neg (by omega), Nat.add_sub_add_right]
      rfl

/-- ReadBit that needs a word from a source that fails before the word is read (40_bitpacker.md R126): RBUF and RIDX
kept. -/
theorem readBit_err {bs : List Byte} {s : State} {rest : List SrcAnswer} (h : s.dec.ridx = 31#5)
    (he : s.dec.srcEos = false) (hn : bs.length < 4) (hs : s.ports.source = bs.map .byte ++ .err :: rest) :
    readBit s = .raise .ioSource (withSourceAnswers s (bs.map .byte ++ [.err]) rest) := by
  rw [readBit, refill, if_pos h, getWordPadded, getWordFrom_err bs 0#32 he hn hs]
  rfl

/-- ReadBit when no buffered word remains. -/
theorem readBit_fetch {s t : State} {w : Word32} (h : s.dec.ridx = 31#5) (hw : getWordPadded s = .ok w t)
    (ht : t.dec.ridx = s.dec.ridx) :
    readBit s = .ok (w.getLsbD 31) (t.setReadBuffer w 30#5) := by
  rw [readBit, refill, if_pos h, hw]
  simp only [Res.ok_andThen, State.setReadBuffer_dec, ht, h]
  rfl

/-- The bits ReadBit gives are the payload's, in order (40_bitpacker.md R128). -/
theorem readBit_upcoming {s : State} (h : SourceOpen s) :
    ∃ t, readBit s = .ok (upcomingBit s 0) t ∧ (∀ j, upcomingBit t j = upcomingBit s (j + 1)) ∧
      SourceOpen t ∧ ReadStep s t := by
  by_cases hi : s.dec.ridx = 31#5
  · obtain ⟨w, bs, t, ht, hl, hp, hw⟩ := getWordPadded_open h
    have hr : t.dec.ridx = s.dec.ridx := by rw [hp.rest]
    have hb0 : bitsLeft s.dec = 0 := by simp [bitsLeft, hi]
    have hbit : ∀ i < 32, w.getLsbD (31 - i) = upcomingBit s i := by
      intro i h32
      have hq : i / 8 < 4 := by omega
      rw [getLsbD_word hl hw h32, upcomingBit, hb0, if_neg (by omega)]
      dsimp only
      rw [Nat.sub_zero, ← paddedBytes_getD (n := 4 + 0) hq, ← hl, hp.bytes]
      simp [List.getD_eq_getElem?_getD, hl, hq, paddedBytes]
    refine ⟨t.setReadBuffer w 30#5, ?_, fun j => ?_, hp.isOpen, ?_⟩
    · rw [readBit_fetch hi ht hr]
      congr 1
      exact hbit 0 (by omega)
    · have hb : bitsLeft (t.setReadBuffer w 30#5).dec = 31 := rfl
      by_cases hj : j < 31
      · rw [← hbit (j + 1) (by omega), upcomingBit, hb, if_pos hj]
        simp only [State.setReadBuffer_dec]
        congr 1
        show 30 - j = 31 - (j + 1)
        omega
      · rw [upcomingBit, hb, if_neg hj, upcomingBit, hb0, if_neg (by omega)]
        dsimp only
        obtain ⟨k, rfl⟩ : ∃ k, j = k + 31 := ⟨j - 31, by omega⟩
        have e1 : (k + 31 + 1 - 0) / 8 = k / 8 + 4 := by omega
        have e2 : (k + 31 + 1 - 0) % 8 = k % 8 := by omega
        rw [e1, e2, Nat.add_sub_cancel, show k / 8 + 4 + 1 = bs.length + (k / 8 + 1) by omega, hp.bytes]
        have e3 : ∀ xs : List Byte, (bs ++ xs).getD (k / 8 + 4) 0#8 = xs.getD (k / 8) 0#8 := by
          intro xs
          simp only [List.getD_eq_getElem?_getD]
          rw [List.getElem?_append_right (by omega), hl, Nat.add_sub_cancel]
        rw [e3]
        rfl
    · refine ⟨?_, hp.ports⟩
      rw [hp.rest]; rfl
  · obtain ⟨h1, h2⟩ := readBit_buffered_upcoming hi
    exact ⟨_, h1, h2, h, rfl, .refl _⟩

end Sys2Proof.Machine
end

