-- ==== Sys2Proof/Laws/Dec.lean ====
section
/-! SUPPORT. The decoder (44_decoder.md): what the renormalisation loop can change, the interval and the Value it
leaves, and the entry a Value selects. -/

namespace Sys2Proof.Machine

/-! ### The loop -/

/-- DEC_COUNT and everything outside the decoder are as before, but for the ports, which have moved by source
transactions alone; the interval stays inside 2^32 if it was. -/
structure DecPassStep (s t : State) : Prop where
  rest : t = { s with dec := { t.dec with count := s.dec.count }, ports := t.ports }
  ports : SourceMoves s.ports t.ports
  interval : IntervalOk s.dec.lower s.dec.range → IntervalOk t.dec.lower t.dec.range

theorem DecPassStep.refl (s : State) : DecPassStep s s := ⟨rfl, .refl _, id⟩

theorem DecPassStep.trans {s t u : State} (h : DecPassStep s t) (k : DecPassStep t u) : DecPassStep s u :=
  ⟨by rw [k.rest, h.rest], h.ports.trans k.ports, k.interval ∘ h.interval⟩

theorem decPass_all (s : State) (hn : needsPass s.dec.range = true) :
    (decPass s).All (DecPassStep s) (· = .ioSource) := by
  unfold decPass
  refine Res.All.andThen (P := DecPassStep s) ((readBit_all _).mono (fun t h => ?_) fun _ h => h)
    fun _ t _ hst => ⟨by rw [hst.rest]; rfl, hst.ports, hst.interval⟩
  refine ⟨by rw [h.rest]; rfl, h.ports, fun hi => ?_⟩
  rw [h.rest]
  exact rescale_intervalOk ((needsPass_iff _).1 hn) hi

theorem decLoop_all (n : Nat) (s : State) : (decLoop n s).All (DecPassStep s) (· = .ioSource) := by
  induction n generalizing s with
  | zero => exact .refl s
  | succ n ih =>
    rw [decLoop]
    split
    · rename_i hn
      exact Res.All.seq .trans (decPass_all s hn) fun _ t _ => ih t
    · exact .refl s

/-- What a completed pass leaves of the interval (44_decoder.md R212). -/
theorem decPass_ok {s t : State} (hn : s.dec.range.toNat ≤ 2 ^ 30) (hi : IntervalOk s.dec.lower s.dec.range)
    (h : decPass s = .ok () t) :
    t.dec.lower.toNat =
        2 * (s.dec.lower.toNat - offsetValue (caseOf s.dec.lower.toNat s.dec.range.toNat)) ∧
      t.dec.range.toNat = 2 * s.dec.range.toNat := by
  obtain ⟨_, u, hu, ht⟩ := Res.andThen_eq_ok.1 h
  have hr := readBit_all (s.setDecInterval (rescaleLower (classify s.dec.lower s.dec.range) s.dec.lower)
    (rescaleRange s.dec.range))
  rw [hu, Res.all_ok] at hr
  obtain rfl : _ = t := by simpa using ht
  rw [State.setValue_dec, hr.rest]
  exact rescale_exact hn hi.1 (by simpa using hi.2.2)

/-- A completed loop leaves the interval of the rule's loop over natural numbers (42_interval.md R176). -/
theorem decLoop_ok {n : Nat} {s t : State} (hi : IntervalOk s.dec.lower s.dec.range)
    (h : decLoop n s = .ok () t) :
    (renorm n s.dec.lower.toNat s.dec.range.toNat).2 = (t.dec.lower.toNat, t.dec.range.toNat) := by
  induction n generalizing s with
  | zero =>
    obtain rfl : s = t := by simpa [decLoop] using h
    rfl
  | succ n ih =>
    rw [decLoop] at h
    split at h
    · rename_i hn
      have hn' := (needsPass_iff _).1 hn
      obtain ⟨_, u, hu, ht⟩ := Res.andThen_eq_ok.1 h
      obtain ⟨a1, a2⟩ := decPass_ok hn' hi hu
      have hp := decPass_all s hn
      rw [hu, Res.all_ok] at hp
      rw [renorm_succ_of_le hn', ← a1, ← a2]
      exact ih (hp.interval hi) ht
    · rename_i hn
      obtain rfl : s = t := by simpa using h
      rw [renorm_of_lt]
      by_contra hc
      exact hn ((needsPass_iff _).2 (by omega))

/-- After a completed loop of 31 passes the interval is settled (42_interval.md R176, R177). -/
theorem decLoop_settled {s t : State} (hi : IntervalOk s.dec.lower s.dec.range)
    (h : decLoop 31 s = .ok () t) : IntervalSettled t.dec.lower t.dec.range := by
  have hp := decLoop_all 31 s
  rw [h, Res.all_ok] at hp
  obtain ⟨h1, h2, h3⟩ := hp.interval hi
  refine ⟨?_, h2, h3⟩
  obtain ⟨k, _, _, k3, k4, _⟩ := renorm_passes (n := 31) (l := s.dec.lower.toNat) hi.1
    (by have := hi.1; omega)
  rw [decLoop_ok hi h] at k3
  simp only at k3
  rw [k3]
  exact k4

/-! ### Value -/

/-- One pass takes Value exactly while it lies in the interval, and it lies in the new one (44_decoder.md R213,
R215). -/
theorem shiftValue_inside {l r v : Word32} (bit : Bool) (hn : r.toNat ≤ 2 ^ 30) (hi : IntervalOk l r)
    (h1 : l.toNat ≤ v.toNat) (h2 : v.toNat < l.toNat + r.toNat) :
    (shiftValue v (classify l r).offset bit).toNat =
        2 * (v.toNat - offsetValue (caseOf l.toNat r.toNat)) + (if bit then 1 else 0) ∧
      (rescaleLower (classify l r) l).toNat ≤ (shiftValue v (classify l r).offset bit).toNat ∧
      (shiftValue v (classify l r).offset bit).toNat <
        (rescaleLower (classify l r) l).toNat + (rescaleRange r).toNat := by
  have hs : l.toNat + r.toNat ≤ 2 ^ 32 := by simpa using hi.2.2
  obtain ⟨e1, e2⟩ := rescale_exact hn hi.1 hs
  obtain ⟨b1, b2⟩ := caseOf_bounds hn hs
  have ho := offset_toNat (classify l r)
  rw [classify_eq_caseOf] at ho
  have hb : ((BitVec.ofBool bit).setWidth 32).toNat = if bit then 1 else 0 := by cases bit <;> rfl
  have hle : (if bit then 1 else 0 : Nat) ≤ 1 := by split <;> omega
  have hv : (shiftValue v (classify l r).offset bit).toNat =
      2 * (v.toNat - offsetValue (caseOf l.toNat r.toNat)) + (if bit then 1 else 0) := by
    rw [shiftValue, classify_eq_caseOf, BitVec.toNat_add, BitVec.toNat_mul, BitVec.toNat_sub, ho, hb]
    simp only [BitVec.toNat_ofNat]
    omega
  refine ⟨hv, ?_, ?_⟩
  · rw [hv, e1]; omega
  · rw [hv, e1, e2]; omega

/-- The loop with Value inside and a source that refuses nothing (44_decoder.md R212, R213, R215). -/
theorem decLoop_open {n : Nat} {s : State} (hi : IntervalOk s.dec.lower s.dec.range) (hv : ValueInside s.dec)
    (h : SourceOpen s) :
    ∃ t, decLoop n s = .ok () t ∧ ValueInside t.dec ∧ SourceOpen t ∧
      t.dec.value.toNat =
        shiftIn (renorm n s.dec.lower.toNat s.dec.range.toNat).1 (upcomingBit s) s.dec.value.toNat ∧
      (∀ j, upcomingBit t j =
        upcomingBit s (j + (renorm n s.dec.lower.toNat s.dec.range.toNat).1.length)) := by
  induction n generalizing s with
  | zero => exact ⟨s, rfl, hv, h, rfl, fun j => rfl⟩
  | succ n ih =>
    by_cases hn : needsPass s.dec.range = true
    · have hn' := (needsPass_iff _).1 hn
      obtain ⟨u, hu, hju, hou, hru⟩ :=
        readBit_upcoming (s := s.setDecInterval (rescaleLower (classify s.dec.lower s.dec.range) s.dec.lower)
          (rescaleRange s.dec.range)) h
      have hup : ∀ j, upcomingBit (s.setDecInterval (rescaleLower (classify s.dec.lower s.dec.range) s.dec.lower)
          (rescaleRange s.dec.range)) j = upcomingBit s j := fun j => rfl
      rw [hup] at hu
      simp only [hup] at hju
      obtain ⟨v1, v2, v3⟩ := shiftValue_inside (upcomingBit s 0) hn' hi hv.1 hv.2
      have hpass : decPass s = .ok () (u.setValue (shiftValue s.dec.value
          (classify s.dec.lower s.dec.range).offset (upcomingBit s 0))) := by
        have e : u.dec.value = s.dec.value := by rw [hru.rest]; rfl
        rw [decPass, hu, ← e]; rfl
      obtain ⟨a1, a2⟩ := decPass_ok hn' hi hpass
      have hp := decPass_all s hn
      rw [hpass, Res.all_ok] at hp
      have el : u.dec.lower = rescaleLower (classify s.dec.lower s.dec.range) s.dec.lower := by
        rw [hru.rest]; rfl
      have er : u.dec.range = rescaleRange s.dec.range := by rw [hru.rest]; rfl
      obtain ⟨t, ht, hvt, hot, htv, htj⟩ := ih (hp.interval hi)
        (by
          simp only [ValueInside, State.setValue_dec, el, er]
          exact ⟨v2, v3⟩)
        (show SourceOpen (u.setValue _) from hou)
      have hju' : ∀ j, upcomingBit (u.setValue (shiftValue s.dec.value
          (classify s.dec.lower s.dec.range).offset (upcomingBit s 0))) j = upcomingBit s (j + 1) := hju
      refine ⟨t, by rw [decLoop, if_pos hn, hpass]; exact ht, hvt, hot, ?_, fun j => ?_⟩
      · rw [htv, a1, a2, renorm_succ_of_le hn']
        simp only [shiftIn, State.setValue_dec]
        rw [v1, funext hju']
      · rw [htj, hju', a1, a2, renorm_succ_of_le hn', List.length_cons, Nat.add_assoc]
    · have hn' : 2 ^ 30 < s.dec.range.toNat := by
        by_contra hc; exact hn ((needsPass_iff _).2 (by omega))
      rw [renorm_of_lt hn']
      exact ⟨s, by rw [decLoop, if_neg hn], hv, h, rfl, fun j => rfl⟩

/-- The loop with Value inside and a source that fails before the next word is read (44_decoder.md R212; 40_bitpacker.md
R126): the pass after the buffered bits raises, its interval rescaled, its bit not taken. -/
theorem decLoop_err {n : Nat} {s : State} {bs : List Byte} {rest : List SrcAnswer}
    (hi : IntervalOk s.dec.lower s.dec.range) (hv : ValueInside s.dec) (he : s.dec.srcEos = false)
    (hb : bs.length < 4) (hs : s.ports.source = bs.map .byte ++ .err :: rest)
    (hn : bitsLeft s.dec < (renorm n s.dec.lower.toNat s.dec.range.toNat).1.length) :
    ∃ d : Decoder, decLoop n s =
        .raise .ioSource (withSourceAnswers { s with dec := d } (bs.map .byte ++ [.err]) rest) ∧
      d = { s.dec with lower := d.lower, range := d.range, value := d.value, ridx := 31#5 } ∧
      (renorm (bitsLeft s.dec + 1) s.dec.lower.toNat s.dec.range.toNat).2 = (d.lower.toNat, d.range.toNat) ∧
      d.value.toNat = shiftIn ((renorm n s.dec.lower.toNat s.dec.range.toNat).1.take (bitsLeft s.dec))
        (upcomingBit s) s.dec.value.toNat := by
  induction n generalizing s with
  | zero => simp [renorm] at hn
  | succ n ih =>
    by_cases hr : needsPass s.dec.range = true
    · have hr' := (needsPass_iff _).1 hr
      obtain ⟨e1, e2⟩ := rescale_exact hr' hi.1 (by simpa using hi.2.2)
      rw [renorm_succ_of_le (n := n) hr'] at hn ⊢
      obtain ⟨u, hu⟩ : ∃ u, u = s.setDecInterval (rescaleLower (classify s.dec.lower s.dec.range) s.dec.lower)
        (rescaleRange s.dec.range) := ⟨_, rfl⟩
      have hd : decPass s = (readBit u).andThen fun bit t =>
          .ok () (t.setValue (shiftValue t.dec.value (classify s.dec.lower s.dec.range).offset bit)) := by
        rw [hu]; rfl
      have hup : upcomingBit u = upcomingBit s := by rw [hu]; rfl
      have hur : u.dec.ridx = s.dec.ridx := by rw [hu]; rfl
      by_cases h31 : s.dec.ridx = 31#5
      · have h0 : bitsLeft s.dec = 0 := by rw [bitsLeft, if_pos h31]
        have hue := readBit_err (s := u) (by rw [hur, h31]) (by rw [hu]; exact he) hb (by rw [hu]; exact hs)
        refine ⟨u.dec, ?_, ?_, ?_, ?_⟩
        · rw [decLoop, if_pos hr, hd, hue, hu]; rfl
        · rw [← h31, hu]; rfl
        · rw [h0, renorm_succ_of_le hr', hu]
          exact Prod.ext e1.symm e2.symm
        · rw [h0, hu]; rfl
      · obtain ⟨hb1, hb2⟩ := readBit_buffered_upcoming (s := u) (by rw [hur]; exact h31)
        have hl : bitsLeft s.dec = s.dec.ridx.toNat + 1 := bitsLeft_of_ne h31
        obtain ⟨v1, v2, v3⟩ := shiftValue_inside (upcomingBit s 0) hr' hi hv.1 hv.2
        obtain ⟨w, hw⟩ : ∃ w, w = (u.setReadBuffer u.dec.rbuf (nextIndex u.dec.ridx)).setValue
            (shiftValue u.dec.value (classify s.dec.lower s.dec.range).offset (upcomingBit s 0)) := ⟨_, rfl⟩
        have hpass : decPass s = .ok () w := by rw [hd, hb1, hup, hw]; rfl
        have hp := decPass_all s hr
        obtain ⟨a1, a2⟩ := decPass_ok hr' hi hpass
        rw [hpass, Res.all_ok] at hp
        have hlt : bitsLeft w.dec = s.dec.ridx.toNat := by rw [hw, hu]; exact (bitsLeft_next s.dec).1
        have hjw : upcomingBit w = fun j => upcomingBit s (j + 1) := by
          rw [hw, ← hup]; exact funext hb2
        have hwv : w.dec.value.toNat = 2 * (s.dec.value.toNat -
            offsetValue (caseOf s.dec.lower.toNat s.dec.range.toNat)) + (if upcomingBit s 0 then 1 else 0) := by
          rw [hw, hu]; exact v1
        obtain ⟨d, h1, h2, h3, h4⟩ := ih (s := w) (hp.interval hi) (by rw [hw, hu]; exact ⟨v2, v3⟩)
          (by rw [hw, hu]; exact he) (by rw [hw, hu]; exact hs)
          (by rw [hlt, a1, a2]; rw [hl, List.length_cons] at hn; omega)
        rw [hlt, a1, a2] at h3
        rw [hlt, a1, a2, hjw, hwv] at h4
        refine ⟨d, ?_, ?_, ?_, ?_⟩
        · rw [decLoop, if_pos hr, hpass, Res.ok_andThen, h1, hw, hu]; rfl
        · rw [h2, hw, hu]; rfl
        · rw [hl, renorm_succ_of_le hr']; exact h3
        · rw [hl, List.take_succ_cons]; exact h4
    · rw [renorm_of_lt (by by_contra hc; exact hr ((needsPass_iff _).2 (by omega)))] at hn
      simp at hn

/-! ### The selected entry -/

/-- The exact comparison behind the target: for v = V - L, a boundary is at or below the target when its scaled
offset is at or below v (44_decoder.md R214). -/
theorem le_target_iff {r v t b : Nat} (hr : 0 < r) (ht : 0 < t) :
    b ≤ ((v + 1) * t - 1) / r ↔ r * b / t ≤ v := by
  rw [Nat.le_div_iff_mul_le hr]
  have h1 : r * b / t ≤ v ↔ r * b < (v + 1) * t := by
    rw [← Nat.lt_succ_iff, Nat.succ_eq_add_one, Nat.div_lt_iff_lt_mul ht]
  rw [h1, Nat.mul_comm b r]
  have : 0 < (v + 1) * t := by positivity
  omega

/-- Target with Value inside the interval (44_decoder.md R211, R214). -/
theorem target_inside {l r v : Word32} {total : Word64} (hi : 1 ≤ r.toNat) (ht : 0 < total.toNat)
    (h1 : l.toNat ≤ v.toNat) (h2 : v.toNat < l.toNat + r.toNat) :
    ∃ g, target v l r total = some g ∧ g < total.toNat ∧
      ∀ b : Word64, b.toNat ≤ g ↔ l.toNat + scaled r b total ≤ v.toNat := by
  refine ⟨((v.toNat - l.toNat + 1) * total.toNat - 1) / r.toNat, by rw [target, if_neg (by omega)], ?_, ?_⟩
  · have := le_target_iff (r := r.toNat) (v := v.toNat - l.toNat) (t := total.toNat) (b := total.toNat) hi ht
    rw [Nat.mul_div_cancel _ ht] at this
    omega
  · intro b
    rw [le_target_iff hi ht]
    unfold scaled
    omega

/-- With Value inside the interval, an entry is selected, it is one of the table, and its sub-interval holds
Value (44_decoder.md R214). -/
theorem selectEntry_inside {s : State} (hp : TablePartition s.ft) (ht : 0 < s.ft.total.toNat)
    (hi : IntervalOk s.dec.lower s.dec.range) (hv : ValueInside s.dec) :
    ∃ e, selectEntry s = some e ∧ e ∈ s.ft.entries ∧
      s.dec.lower.toNat + scaled s.dec.range e.low s.ft.total ≤ s.dec.value.toNat ∧
      s.dec.value.toNat < s.dec.lower.toNat + scaled s.dec.range e.high s.ft.total := by
  obtain ⟨g, hg, hlt, hb⟩ := target_inside hi.1 ht hv.1 hv.2
  obtain ⟨e, he, hl, h1, h2⟩ := hp.lookupTarget_some hlt
  refine ⟨e, by rw [selectEntry, hg]; exact hl, he, (hb _).1 h1, ?_⟩
  have := (hb e.high).not
  omega

/-- The entry whose sub-interval holds Value is the one selected (44_decoder.md R214). -/
theorem selectEntry_eq {s : State} (hp : TablePartition s.ft) (hi : IntervalOk s.dec.lower s.dec.range)
    {e : TabEntry} (he : e ∈ s.ft.entries)
    (h1 : s.dec.lower.toNat + scaled s.dec.range e.low s.ft.total ≤ s.dec.value.toNat)
    (h2 : s.dec.value.toNat < s.dec.lower.toNat + scaled s.dec.range e.high s.ft.total) :
    selectEntry s = some e := by
  obtain ⟨m1, m2⟩ := hp.mem he
  have hle := scaled_le s.dec.range m2
  obtain ⟨g, hg, _, hb⟩ := target_inside (v := s.dec.value) (total := s.ft.total) (l := s.dec.lower) hi.1
    (by omega) (by omega) (by omega)
  rw [selectEntry, hg]
  have := (hb e.high).not
  exact hp.lookupTarget_eq he ((hb _).2 h1) (by omega)

/-- Whatever Value is, an entry that is selected is one of the table and its sub-interval holds Value
(44_decoder.md R214). -/
theorem selectEntry_some {s : State} (hp : TablePartition s.ft) (hi : IntervalOk s.dec.lower s.dec.range)
    {e : TabEntry} (h : selectEntry s = some e) :
    e ∈ s.ft.entries ∧ s.dec.lower.toNat + scaled s.dec.range e.low s.ft.total ≤ s.dec.value.toNat ∧
      s.dec.value.toNat < s.dec.lower.toNat + scaled s.dec.range e.high s.ft.total := by
  unfold selectEntry target at h
  by_cases hl : s.dec.value.toNat < s.dec.lower.toNat
  · rw [if_pos hl] at h; simp at h
  rw [if_neg hl, Option.bind_some] at h
  have hm := List.mem_of_find?_eq_some h
  have hf := List.find?_some h
  simp only [Bool.and_eq_true, decide_eq_true_eq] at hf
  obtain ⟨m1, m2⟩ := hp.mem hm
  have hr := hi.1
  have h1 := (le_target_iff (v := s.dec.value.toNat - s.dec.lower.toNat) (b := e.low.toNat) hr
    (show 0 < s.ft.total.toNat by omega)).1 hf.1
  have h2 := (le_target_iff (v := s.dec.value.toNat - s.dec.lower.toNat) (b := e.high.toNat) hr
    (show 0 < s.ft.total.toNat by omega)).not.1 (by omega)
  refine ⟨hm, ?_, ?_⟩
  · unfold scaled; omega
  · unfold scaled; omega

/-- With Value outside the interval nothing is selected (44_decoder.md R211). -/
theorem selectEntry_outside {s : State} (hp : TablePartition s.ft) (hi : IntervalOk s.dec.lower s.dec.range)
    (ht : 0 < s.ft.total.toNat) (hv : ¬ ValueInside s.dec) : selectEntry s = none := by
  by_cases hl : s.dec.value.toNat < s.dec.lower.toNat
  · rw [selectEntry, target, if_pos hl]; rfl
  · rw [selectEntry, target, if_neg hl]
    apply hp.lookupTarget_none
    rw [le_target_iff (by have := hi.1; omega) ht, Nat.mul_div_cancel _ ht]
    simp only [ValueInside, not_and, not_lt] at hv
    have := hv (by omega)
    omega

/-- Narrow on an entry whose sub-interval holds Value (44_decoder.md R214, R215). -/
theorem narrow_holds_value {l r v : Word32} {low high total : Word64} (hlh : low.toNat ≤ high.toNat)
    (hht : high.toNat ≤ total.toNat) (hi : IntervalOk l r)
    (h1 : l.toNat + scaled r low total ≤ v.toNat) (h2 : v.toNat < l.toNat + scaled r high total) :
    ∃ l' r', narrow l r low high total = some (l', r') ∧ IntervalOk l' r' ∧
      l'.toNat = l.toNat + scaled r low total ∧ r'.toNat = scaled r high total - scaled r low total ∧
      l'.toNat ≤ v.toNat ∧ v.toNat < l'.toNat + r'.toNat := by
  have hn := narrow_of_pos (l := l) (r := r) (low := low) (high := high) (total := total) (by omega)
  obtain ⟨e1, e2, e3, e4⟩ := narrow_inside hlh hht hi hn
  exact ⟨_, _, hn, e3, e1, e2, by omega, by omega⟩

end Sys2Proof.Machine
end

