-- ==== Sys2Proof/Laws/Enc.lean ====
section
/-! SUPPORT. The encoder (43_encoder.md): what Emit and the renormalisation loop can change, the interval they leave,
and the bits they write. -/

namespace Sys2Proof.Machine

/-! ### What can change -/

/-- Only ENC_PEND, WACC, WIDX and the ports differ, the ports by sink transactions alone. -/
structure BitsStep (s t : State) : Prop where
  rest : t = { s with
    enc := { s.enc with pend := t.enc.pend, wacc := t.enc.wacc, widx := t.enc.widx }, ports := t.ports }
  ports : SinkMoves s.ports t.ports

theorem BitsStep.refl (s : State) : BitsStep s s := ⟨rfl, .refl _⟩

theorem BitsStep.trans {s t u : State} (h : BitsStep s t) (k : BitsStep t u) : BitsStep s u :=
  ⟨by rw [k.rest, h.rest], h.ports.trans k.ports⟩

theorem WriteStep.bitsStep {s t : State} (h : WriteStep s t) : BitsStep s t :=
  ⟨by rw [h.rest], h.ports⟩

theorem BitsStep.setPend (s : State) (v : Word64) : BitsStep s (s.setPend v) := ⟨rfl, .refl _⟩

theorem BitsStep.lower {s t : State} (h : BitsStep s t) : t.enc.lower = s.enc.lower := by rw [h.rest]

theorem BitsStep.range {s t : State} (h : BitsStep s t) : t.enc.range = s.enc.range := by rw [h.rest]

theorem followBits_all (b : Bool) (n : Nat) (s : State) :
    (followBits b n s).All (BitsStep s) (· = .ioSink) := by
  induction n generalizing s with
  | zero => exact .refl s
  | succ n ih =>
    refine Res.All.seq .trans ((writeBit_all b s).mono (fun _ h => h.bitsStep) fun _ h => h) fun _ t _ => ?_
    exact (ih _).mono (fun _ h => (BitsStep.setPend t _).trans h) fun _ h => h

theorem emit_all (b : Bool) (s : State) : (emit b s).All (BitsStep s) (· = .ioSink) :=
  Res.All.seq .trans ((writeBit_all b s).mono (fun _ h => h.bitsStep) fun _ h => h)
    fun _ t _ => followBits_all _ _ t

theorem emitAll_all (bs : List Bool) (s : State) : (emitAll bs s).All (BitsStep s) (· = .ioSink) := by
  induction bs generalizing s with
  | nil => exact .refl s
  | cons b bs ih => exact Res.All.seq .trans (emit_all b s) fun _ t _ => ih t

theorem emitCase_all (c : IntervalCase) (s : State) :
    (emitCase c s).All (BitsStep s) (fun x => x = .ioSink ∨ x = .counterOverflow) := by
  cases c with
  | e1 => exact (emit_all _ s).mono (fun _ h => h) fun _ h => .inl h
  | e2 => exact (emit_all _ s).mono (fun _ h => h) fun _ h => .inl h
  | e3 =>
    by_cases hp : s.enc.pend.toNat = Config.counterMax
    · simp only [emitCase, addPending, hp, if_true]
      exact ⟨.refl s, .inr rfl⟩
    · simp only [emitCase, addPending, hp, if_false]
      exact .setPend s _

/-- ENC_COUNT and everything outside the encoder are as before, but for the ports, which have moved by sink
transactions alone; the interval stays inside 2^32 if it was. -/
structure PassStep (s t : State) : Prop where
  rest : t = { s with enc := { t.enc with count := s.enc.count }, ports := t.ports }
  ports : SinkMoves s.ports t.ports
  interval : IntervalOk s.enc.lower s.enc.range → IntervalOk t.enc.lower t.enc.range

theorem PassStep.refl (s : State) : PassStep s s := ⟨rfl, .refl _, id⟩

theorem PassStep.trans {s t u : State} (h : PassStep s t) (k : PassStep t u) : PassStep s u :=
  ⟨by rw [k.rest, h.rest], h.ports.trans k.ports, k.interval ∘ h.interval⟩

theorem BitsStep.passStep {s t : State} (h : BitsStep s t) : PassStep s t :=
  ⟨by rw [h.rest], h.ports, by rw [h.lower, h.range]; exact id⟩

theorem encPass_all (s : State) (hn : needsPass s.enc.range = true) :
    (encPass s).All (PassStep s) (fun x => x = .ioSink ∨ x = .counterOverflow) := by
  unfold encPass
  refine Res.All.andThen (P := PassStep s)
    ((emitCase_all (classify s.enc.lower s.enc.range) s).mono (fun _ h => h.passStep) fun _ h => h)
    fun _ t ht hst => ?_
  have hb : BitsStep s t := by
    have := emitCase_all (classify s.enc.lower s.enc.range) s
    rw [ht] at this
    exact this
  refine ⟨by rw [hb.rest]; rfl, hb.ports, fun hi => ?_⟩
  show IntervalOk (rescaleLower _ t.enc.lower) (rescaleRange t.enc.range)
  rw [hb.lower, hb.range]
  exact rescale_intervalOk ((needsPass_iff _).1 hn) hi

theorem encLoop_all (n : Nat) (s : State) :
    (encLoop n s).All (PassStep s) (fun x => x = .ioSink ∨ x = .counterOverflow) := by
  induction n generalizing s with
  | zero => exact .refl s
  | succ n ih =>
    rw [encLoop]
    split
    · rename_i hn
      exact Res.All.seq .trans (encPass_all s hn) fun _ t _ => ih t
    · exact .refl s

/-! ### What a completed loop leaves -/

theorem followBits_pend {b : Bool} {n : Nat} {s t : State} (hn : n ≤ s.enc.pend.toNat)
    (h : followBits b n s = .ok () t) : t.enc.pend.toNat = s.enc.pend.toNat - n := by
  induction n generalizing s with
  | zero =>
    obtain rfl : s = t := by simpa [followBits] using h
    rfl
  | succ n ih =>
    obtain ⟨_, u, hu, ht⟩ := Res.andThen_eq_ok.1 h
    have hw : WriteStep s u := by
      have := writeBit_all b s; rw [hu] at this; exact this
    have hp : (u.enc.pend - 1#64).toNat = s.enc.pend.toNat - 1 := by rw [hw.pend]; bv_omega
    have := ih (s := u.setPend (u.enc.pend - 1#64)) (by simp only [State.setPend_enc, hp]; omega) ht
    simp only [State.setPend_enc, hp] at this
    omega

/-- Emit clears the outstanding-bit counter (43_encoder.md R191). -/
theorem emit_pend {b : Bool} {s t : State} (h : emit b s = .ok () t) : t.enc.pend = 0#64 := by
  obtain ⟨_, u, _, ht⟩ := Res.andThen_eq_ok.1 h
  have := followBits_pend le_rfl ht
  exact BitVec.eq_of_toNat_eq (by simpa using this)

theorem followBits_clean {b : Bool} {n : Nat} {s t : State} (hc : WriteSideClean s.enc)
    (h : followBits b n s = .ok () t) : WriteSideClean t.enc := by
  induction n generalizing s with
  | zero =>
    obtain rfl : s = t := by simpa [followBits] using h
    exact hc
  | succ n ih =>
    obtain ⟨_, u, hu, ht⟩ := Res.andThen_eq_ok.1 h
    have hcu := writeBit_clean hc hu
    exact ih (s := u.setPend (u.enc.pend - 1#64)) hcu ht

theorem emit_clean {b : Bool} {s t : State} (hc : WriteSideClean s.enc) (h : emit b s = .ok () t) :
    WriteSideClean t.enc := by
  obtain ⟨_, u, hu, ht⟩ := Res.andThen_eq_ok.1 h
  exact followBits_clean (writeBit_clean hc hu) ht

theorem emitAll_clean {bs : List Bool} {s t : State} (hc : WriteSideClean s.enc) (h : emitAll bs s = .ok () t) :
    WriteSideClean t.enc := by
  induction bs generalizing s with
  | nil =>
    obtain rfl : s = t := by simpa [emitAll] using h
    exact hc
  | cons b bs ih =>
    obtain ⟨_, u, hu, ht⟩ := Res.andThen_eq_ok.1 h
    exact ih (emit_clean hc hu) ht

/-- What a completed emitCase leaves in the counter (43_encoder.md R192, R194). -/
theorem emitCase_pend {c : IntervalCase} {s t : State} (h : emitCase c s = .ok () t) :
    t.enc.pend.toNat = (passBits [c] s.enc.pend.toNat).2 := by
  cases c with
  | e1 => rw [emit_pend h]; rfl
  | e2 => rw [emit_pend h]; rfl
  | e3 =>
    simp only [emitCase, addPending] at h
    split at h
    · simp at h
    · rename_i hp
      obtain rfl : _ = t := by simpa using h
      simp only [State.setPend_enc, passBits]
      have := s.enc.pend.isLt
      simp only [Config.counterMax] at hp
      rw [BitVec.toNat_add]
      simp only [BitVec.toNat_ofNat]
      omega

theorem emitCase_clean {c : IntervalCase} {s t : State} (hc : WriteSideClean s.enc)
    (h : emitCase c s = .ok () t) : WriteSideClean t.enc := by
  cases c with
  | e1 => exact emit_clean hc h
  | e2 => exact emit_clean hc h
  | e3 =>
    simp only [emitCase, addPending] at h
    split at h
    · simp at h
    · obtain rfl : _ = t := by simpa using h
      exact hc

/-- What a completed pass leaves (43_encoder.md R192). -/
theorem encPass_ok {s t : State} (hn : s.enc.range.toNat ≤ 2 ^ 30) (hi : IntervalOk s.enc.lower s.enc.range)
    (h : encPass s = .ok () t) :
    t.enc.lower.toNat =
        2 * (s.enc.lower.toNat - offsetValue (caseOf s.enc.lower.toNat s.enc.range.toNat)) ∧
      t.enc.range.toNat = 2 * s.enc.range.toNat ∧
      t.enc.pend.toNat =
        (passBits [caseOf s.enc.lower.toNat s.enc.range.toNat] s.enc.pend.toNat).2 ∧
      (WriteSideClean s.enc → WriteSideClean t.enc) := by
  obtain ⟨_, u, hu, ht⟩ := Res.andThen_eq_ok.1 h
  have hb : BitsStep s u := by
    have := emitCase_all (classify s.enc.lower s.enc.range) s
    rw [hu] at this
    exact this
  obtain rfl : _ = t := by simpa using ht
  obtain ⟨e1, e2⟩ := rescale_exact hn hi.1 (by simpa using hi.2.2)
  have h3 := emitCase_pend hu
  have h4 : WriteSideClean s.enc → WriteSideClean u.enc := fun hc => emitCase_clean hc hu
  refine ⟨?_, ?_, h3, h4⟩
  · rw [State.setEncInterval_enc, hb.lower]; exact e1
  · rw [State.setEncInterval_enc, hb.range]; exact e2

theorem passBits_cons (c : IntervalCase) (cs : List IntervalCase) (k : Nat) :
    passBits (c :: cs) k =
      ((passBits [c] k).1 ++ (passBits cs (passBits [c] k).2).1, (passBits cs (passBits [c] k).2).2) := by
  cases c <;> simp [passBits]

/-- What a completed loop leaves: the interval of the rule's loop over natural numbers, the counter of its cases
(43_encoder.md R192). -/
theorem encLoop_ok {n : Nat} {s t : State} (hi : IntervalOk s.enc.lower s.enc.range)
    (h : encLoop n s = .ok () t) :
    (renorm n s.enc.lower.toNat s.enc.range.toNat).2 = (t.enc.lower.toNat, t.enc.range.toNat) ∧
      t.enc.pend.toNat =
        (passBits (renorm n s.enc.lower.toNat s.enc.range.toNat).1 s.enc.pend.toNat).2 ∧
      (WriteSideClean s.enc → WriteSideClean t.enc) := by
  induction n generalizing s with
  | zero =>
    obtain rfl : s = t := by simpa [encLoop] using h
    exact ⟨rfl, rfl, id⟩
  | succ n ih =>
    rw [encLoop] at h
    split at h
    · rename_i hn
      have hn' := (needsPass_iff _).1 hn
      obtain ⟨_, u, hu, ht⟩ := Res.andThen_eq_ok.1 h
      obtain ⟨a1, a2, a3, a4⟩ := encPass_ok hn' hi hu
      have hp : PassStep s u := by
        have := encPass_all s hn; rw [hu] at this; exact this
      obtain ⟨b1, b2, b3⟩ := ih (hp.interval hi) ht
      rw [renorm_succ_of_le hn', passBits_cons, ← a1, ← a2, ← a3]
      exact ⟨b1, b2, b3 ∘ a4⟩
    · rename_i hn
      obtain rfl : s = t := by simpa using h
      have hn' : 2 ^ 30 < s.enc.range.toNat := by
        by_contra hc; exact hn ((needsPass_iff _).2 (by omega))
      rw [renorm_of_lt hn']
      exact ⟨rfl, rfl, id⟩

/-- After a completed loop of 31 passes the interval is settled (42_interval.md R176, R177). -/
theorem encLoop_settled {s t : State} (hi : IntervalOk s.enc.lower s.enc.range)
    (h : encLoop 31 s = .ok () t) : IntervalSettled t.enc.lower t.enc.range := by
  have hp : PassStep s t := by
    have := encLoop_all 31 s; rw [h] at this; exact this
  obtain ⟨h1, h2, h3⟩ := hp.interval hi
  refine ⟨?_, h2, h3⟩
  obtain ⟨k, _, _, k3, k4, _⟩ := renorm_passes (n := 31) (l := s.enc.lower.toNat) hi.1
    (by have := hi.1; omega)
  have := (encLoop_ok hi h).1
  rw [this] at k3
  simp only at k3
  rw [k3]
  exact k4

/-- E1 doubling keeps a positive Lower positive and E3 leaves one, so Lower = 0 means nothing is outstanding
(43_encoder.md R198 (b)). -/
theorem encLoop_pend_zero {n : Nat} {s t : State} (hi : IntervalOk s.enc.lower s.enc.range)
    (hz : s.enc.lower = 0#32 → s.enc.pend = 0#64) (h : encLoop n s = .ok () t) :
    t.enc.lower = 0#32 → t.enc.pend = 0#64 := by
  induction n generalizing s with
  | zero =>
    obtain rfl : s = t := by simpa [encLoop] using h
    exact hz
  | succ n ih =>
    rw [encLoop] at h
    split at h
    · rename_i hn
      have hn' := (needsPass_iff _).1 hn
      obtain ⟨_, u, hu, ht⟩ := Res.andThen_eq_ok.1 h
      obtain ⟨a1, a2, a3, _⟩ := encPass_ok hn' hi hu
      have hp : PassStep s u := by
        have := encPass_all s hn; rw [hu] at this; exact this
      refine ih (hp.interval hi) (fun hl => ?_) ht
      rw [hl] at a1
      apply BitVec.eq_of_toNat_eq
      rw [a3]
      have h3 : caseOf s.enc.lower.toNat s.enc.range.toNat ≠ .e3 := by
        intro hc
        rw [hc] at a1
        have := caseOf_e3 hc
        simp only [offsetValue, BitVec.toNat_ofNat, Nat.zero_mod] at a1
        have := hi.1
        omega
      cases hc : caseOf s.enc.lower.toNat s.enc.range.toNat with
      | e1 => rfl
      | e2 => rfl
      | e3 => exact absurd hc h3
    · obtain rfl : s = t := by simpa using h
      exact hz

/-- Emit puts whole words in the sink (20_memory.md R63). -/
theorem emit_words {b : Bool} {s t : State} (h : emit b s = .ok () t) :
    t.sinkBytes.length % 4 = s.sinkBytes.length % 4 := by
  obtain ⟨_, u, hu, ht⟩ := Res.andThen_eq_ok.1 h
  rw [← writeBit_words hu]
  clear hu h
  generalize u.enc.pend.toNat = n at ht
  induction n generalizing u with
  | zero =>
    obtain rfl : u = t := by simpa [followBits] using ht
    rfl
  | succ n ih =>
    obtain ⟨_, v, hv, ht⟩ := Res.andThen_eq_ok.1 ht
    have h1 := writeBit_words hv
    have h2 := ih _ ht
    exact h2.trans h1

theorem emitAll_words {bs : List Bool} {s t : State} (h : emitAll bs s = .ok () t) :
    t.sinkBytes.length % 4 = s.sinkBytes.length % 4 := by
  induction bs generalizing s with
  | nil =>
    obtain rfl : s = t := by simpa [emitAll] using h
    rfl
  | cons b bs ih =>
    obtain ⟨_, u, hu, ht⟩ := Res.andThen_eq_ok.1 h
    rw [ih ht, emit_words hu]

/-! ### The trailer -/

/-- P = m * 2^30 (43_encoder.md R195). -/
theorem codePoint_eq (l : Word32) : codePoint l = quarterCeil l * 2 ^ 30 := by
  have e : Config.quarterMax = 2 ^ 30 := by norm_num
  unfold codePoint quarterCeil
  rw [e, Nat.shiftLeft_eq, Nat.shiftRight_eq_div_pow]

/-- m <= 3 once the interval is settled (43_encoder.md R196). -/
theorem quarterCeil_le {l r : Word32} (h : IntervalSettled l r) : quarterCeil l ≤ 3 := by
  obtain ⟨h1, _, h3⟩ := h
  simp only [Config.quarterMax, Config.fullMax] at h1 h3
  unfold quarterCeil
  omega

theorem testBit_mul_pow (m i k : Nat) : (m * 2 ^ k).testBit i = (decide (k ≤ i) && m.testBit (i - k)) := by
  rw [Nat.mul_comm, Nat.testBit_two_pow_mul]

theorem testBit_codePoint (l : Word32) (i : Nat) :
    (codePoint l).testBit (31 - i) = (decide (30 ≤ 31 - i) && (quarterCeil l).testBit (31 - i - 30)) := by
  rw [codePoint_eq, testBit_mul_pow]

theorem trailer_of_quarter (m : Nat) :
    ((List.range 8).map fun i => (decide (30 ≤ 31 - i) && m.testBit (31 - i - 30))) =
      m.testBit 1 :: m.testBit 0 :: List.replicate 6 false := rfl

/-- The eight trailer bits: the two of m, then six zeros (43_encoder.md R195). -/
theorem trailer_eq (l : Word32) :
    trailer l = (quarterCeil l).testBit 1 :: (quarterCeil l).testBit 0 :: List.replicate 6 false := by
  unfold trailer
  exact (List.map_congr_left fun i _ => testBit_codePoint l i).trans (trailer_of_quarter _)

/-! ### The bits written -/

/-- The follow bits (43_encoder.md R191), with a sink that refuses nothing. -/
theorem followBits_writes (b : Bool) (n : Nat) {s : State} (hc : WriteSideClean s.enc) (h : SinkOpen s) :
    ∃ t, followBits b n s = .ok () t ∧ writtenBits t = writtenBits s ++ List.replicate n b ∧ SinkOpen t := by
  induction n generalizing s with
  | zero => exact ⟨s, rfl, by simp, h⟩
  | succ n ih =>
    obtain ⟨u, hu, hw, hcu, hou, _⟩ := writeBit_writes b hc h
    obtain ⟨t, ht, hwt, hot⟩ := ih (s := u.setPend (u.enc.pend - 1#64)) hcu hou
    refine ⟨t, by rw [followBits, hu]; exact ht, ?_, hot⟩
    rw [hwt]
    show writtenBits u ++ _ = _
    rw [hw, List.append_assoc, List.replicate_succ]
    rfl

/-- Emit writes the resolved bit and the follow bits (43_encoder.md R191), with a sink that refuses nothing. -/
theorem emit_writes (b : Bool) {s : State} (hc : WriteSideClean s.enc) (h : SinkOpen s) :
    ∃ t, emit b s = .ok () t ∧ writtenBits t = writtenBits s ++ resolvedBits s.enc.pend.toNat b ∧
      SinkOpen t := by
  obtain ⟨u, hu, hw, hcu, hou, hr⟩ := writeBit_writes b hc h
  obtain ⟨t, ht, hwt, hot⟩ := followBits_writes (!b) u.enc.pend.toNat hcu hou
  refine ⟨t, by rw [emit, hu]; exact ht, ?_, hot⟩
  have hp : u.enc.pend = s.enc.pend := by rw [hr]
  rw [hwt, hw, hp, List.append_assoc]
  rfl

/-- Emit for a list of bits after the counter is clear: the bits themselves. -/
theorem emitAll_writes (bs : List Bool) {s : State} (hc : WriteSideClean s.enc) (h : SinkOpen s)
    (hp : s.enc.pend = 0#64) :
    ∃ t, emitAll bs s = .ok () t ∧ writtenBits t = writtenBits s ++ bs ∧ SinkOpen t ∧ t.enc.pend = 0#64 := by
  induction bs generalizing s with
  | nil => exact ⟨s, rfl, by simp, h, hp⟩
  | cons b bs ih =>
    obtain ⟨u, hu, hw, ho⟩ := emit_writes b hc h
    obtain ⟨t, ht, hwt, hot, hpt⟩ := ih (emit_clean hc hu) ho (emit_pend hu)
    refine ⟨t, by rw [emitAll, hu]; exact ht, ?_, hot, hpt⟩
    rw [hwt, hw, hp]
    simp [resolvedBits]

/-- Passes whose leading E3 run fits the counter: the first fits, and so do the others after it (43_encoder.md R193,
R194). -/
theorem leadingE3_cons {c : IntervalCase} {cs : List IntervalCase} {k : Nat} (hl : cs.length < 2 ^ 64)
    (h : k + ((c :: cs).takeWhile (· == .e3)).length < 2 ^ 64) :
    (c = .e3 → k < 2 ^ 64 - 1) ∧ (passBits [c] k).2 + (cs.takeWhile (· == .e3)).length < 2 ^ 64 := by
  have := (List.takeWhile_prefix (l := cs) (· == IntervalCase.e3)).length_le
  cases c <;> simp [passBits] at h ⊢ <;> omega

/-- emitCase completes and writes the bits of its case (43_encoder.md R192, R193). -/
theorem emitCase_writes (c : IntervalCase) {s : State} (hc : WriteSideClean s.enc) (h : SinkOpen s)
    (hp : c = .e3 → s.enc.pend.toNat < 2 ^ 64 - 1) :
    ∃ t, emitCase c s = .ok () t ∧ writtenBits t = writtenBits s ++ (passBits [c] s.enc.pend.toNat).1 ∧
      SinkOpen t := by
  cases c with
  | e1 => simpa [emitCase, passBits] using emit_writes false hc h
  | e2 => simpa [emitCase, passBits] using emit_writes true hc h
  | e3 =>
    have := hp rfl
    refine ⟨s.setPend (s.enc.pend + 1#64),
      by rw [emitCase, addPending, if_neg (by simp only [Config.counterMax]; omega)], ?_, h⟩
    simp only [passBits, List.append_nil]
    rfl

/-- The loop completes and writes the bits of its passes (43_encoder.md R192), with a sink that refuses nothing and a
counter that the leading E3 passes fit. -/
theorem encLoop_writes {n : Nat} {s : State} (hn : n ≤ 31) (hi : IntervalOk s.enc.lower s.enc.range)
    (hc : WriteSideClean s.enc) (h : SinkOpen s)
    (hp : s.enc.pend.toNat +
      ((renorm n s.enc.lower.toNat s.enc.range.toNat).1.takeWhile (· == .e3)).length < 2 ^ 64) :
    ∃ t, encLoop n s = .ok () t ∧
      writtenBits t = writtenBits s ++
        (passBits (renorm n s.enc.lower.toNat s.enc.range.toNat).1 s.enc.pend.toNat).1 ∧ SinkOpen t := by
  induction n generalizing s with
  | zero => exact ⟨s, rfl, by simp [renorm, passBits], h⟩
  | succ n ih =>
    by_cases hr : needsPass s.enc.range = true
    · have hr' := (needsPass_iff _).1 hr
      rw [renorm_succ_of_le hr'] at hp ⊢
      have hl := renorm_length_le n
        (2 * (s.enc.lower.toNat - offsetValue (caseOf s.enc.lower.toNat s.enc.range.toNat)))
        (2 * s.enc.range.toNat)
      obtain ⟨f1, f2⟩ := leadingE3_cons (by omega) hp
      obtain ⟨v, hv, hwv, hov⟩ := emitCase_writes (classify s.enc.lower s.enc.range) hc h f1
      have hu : encPass s = .ok () (v.setEncInterval
          (rescaleLower (classify s.enc.lower s.enc.range) v.enc.lower) (rescaleRange v.enc.range)) := by
        rw [encPass, hv]; rfl
      obtain ⟨a1, a2, a3, a4⟩ := encPass_ok hr' hi hu
      have hps := encPass_all s hr
      rw [hu, Res.all_ok] at hps
      rw [← a1, ← a2, ← a3] at f2
      obtain ⟨t, ht, hwt, hot⟩ := ih (by omega) (hps.interval hi) (a4 hc) hov f2
      refine ⟨t, by rw [encLoop, if_pos hr, hu]; exact ht, ?_, hot⟩
      rw [hwt, a1, a2, a3, passBits_cons (caseOf _ _) (renorm n _ _).1]
      have hw2 : writtenBits (v.setEncInterval
          (rescaleLower (classify s.enc.lower s.enc.range) v.enc.lower) (rescaleRange v.enc.range)) =
          writtenBits v := rfl
      rw [hw2, hwv, classify_eq_caseOf, List.append_assoc]
    · have hr' : 2 ^ 30 < s.enc.range.toNat := by
        by_contra hc; exact hr ((needsPass_iff _).2 (by omega))
      exact ⟨s, by rw [encLoop, if_neg hr], by rw [renorm_of_lt hr']; simp [passBits], h⟩

/-- The loop when its leading E3 passes do not fit the counter (43_encoder.md R194; 60_exceptions.md R251): it raises
with the counter full and the interval rescaled through the passes before the one that overflows it. -/
theorem encLoop_overflow {n : Nat} {s : State} (hi : IntervalOk s.enc.lower s.enc.range)
    (h : 2 ^ 64 ≤ s.enc.pend.toNat +
      ((renorm n s.enc.lower.toNat s.enc.range.toNat).1.takeWhile (· == .e3)).length) :
    ∃ l r, encLoop n s = .raise .counterOverflow ((s.setEncInterval l r).setPend (BitVec.ofNat 64 (2 ^ 64 - 1))) ∧
      (renorm (2 ^ 64 - 1 - s.enc.pend.toNat) s.enc.lower.toNat s.enc.range.toNat).2 = (l.toNat, r.toNat) := by
  induction n generalizing s with
  | zero => simp [renorm] at h; have := s.enc.pend.isLt; omega
  | succ n ih =>
    by_cases hr : needsPass s.enc.range = true
    · have hr' := (needsPass_iff _).1 hr
      rw [renorm_succ_of_le hr'] at h
      have hc : caseOf s.enc.lower.toNat s.enc.range.toNat = .e3 := by
        cases hc : caseOf s.enc.lower.toNat s.enc.range.toNat with
        | e3 => rfl
        | e1 => rw [hc] at h; simp at h; have := s.enc.pend.isLt; omega
        | e2 => rw [hc] at h; simp at h; have := s.enc.pend.isLt; omega
      by_cases hp : s.enc.pend.toNat = 2 ^ 64 - 1
      · refine ⟨s.enc.lower, s.enc.range, ?_, by rw [hp]; rfl⟩
        have e : (s.setEncInterval s.enc.lower s.enc.range).setPend (BitVec.ofNat 64 (2 ^ 64 - 1)) = s := by
          rw [show BitVec.ofNat 64 (2 ^ 64 - 1) = s.enc.pend from BitVec.eq_of_toNat_eq (by rw [hp]; rfl)]
          rfl
        rw [e, encLoop, if_pos hr, encPass, classify_eq_caseOf, hc, emitCase, addPending,
          if_pos (by rw [hp]; rfl)]
        rfl
      · have hu : encPass s = .ok () ((s.setPend (s.enc.pend + 1#64)).setEncInterval
            (rescaleLower .e3 s.enc.lower) (rescaleRange s.enc.range)) := by
          rw [encPass, classify_eq_caseOf, hc, emitCase, addPending,
            if_neg (by simp only [Config.counterMax]; omega)]
          rfl
        obtain ⟨a1, a2, a3, a4⟩ := encPass_ok hr' hi hu
        have hps := encPass_all s hr
        rw [hu, Res.all_ok] at hps
        rw [hc] at h a1 a3
        rw [passBits, passBits] at a3
        have hlt := s.enc.pend.isLt
        obtain ⟨l, r, hl, hrn⟩ := ih (hps.interval hi) (by rw [a1, a2, a3]; simp at h ⊢; omega)
        refine ⟨l, r, by rw [encLoop, if_pos hr, hu]; exact hl, ?_⟩
        rw [a1, a2, a3] at hrn
        rw [show 2 ^ 64 - 1 - s.enc.pend.toNat = (2 ^ 64 - 1 - (s.enc.pend.toNat + 1)) + 1 by omega,
          renorm_succ_of_le hr', hc]
        exact hrn
    · have hr' : 2 ^ 30 < s.enc.range.toNat := by
        by_contra hc; exact hr ((needsPass_iff _).2 (by omega))
      rw [renorm_of_lt hr'] at h
      simp at h
      have := s.enc.pend.isLt
      omega

end Sys2Proof.Machine
end

