-- ==== Sys2Proof/Laws/Header.lean ====
section
/-! SUPPORT. The header (30_encoding.md R101, R102): what FT_SER puts (41_frequency_table.md R146) and what FT_DES
reads, checks and writes (R148). -/

namespace Sys2Proof.Machine

/-! ### The header as bytes -/

theorem pairBytes_eq (p : Byte × Word64) : pairBytes p = p.1 :: beBytes 8 p.2.toNat := by
  rw [beBytes_toNat, pairBytes]

theorem headerStart_eq (total : Word64) (n : BitVec 16) (pairs : List (Byte × Word64)) :
    headerStart total n pairs = beBytes 8 total.toNat ++ (beBytes 2 n.toNat ++ pairs.flatMap pairBytes) := by
  rw [beBytes_toNat, beBytes_toNat, headerStart, totalBytes, List.append_assoc]

theorem headerOf_eq (total : Word64) (pairs : List (Byte × Word64)) :
    headerOf total pairs =
      beBytes 8 total.toNat ++ (beBytes 2 (BitVec.ofNat 16 pairs.length).toNat ++ pairs.flatMap pairBytes) :=
  headerStart_eq _ _ _

theorem headerStart_append (total : Word64) (n : BitVec 16) (ps qs : List (Byte × Word64)) :
    headerStart total n (ps ++ qs) = headerStart total n ps ++ qs.flatMap pairBytes := by
  rw [headerStart, headerStart, List.flatMap_append, ← List.append_assoc]

theorem length_flatMap_pairBytes (pairs : List (Byte × Word64)) :
    (pairs.flatMap pairBytes).length = 9 * pairs.length := by
  induction pairs with
  | nil => rfl
  | cons p ps ih => simp [pairBytes_eq, ih]; omega

theorem length_headerOf (total : Word64) (pairs : List (Byte × Word64)) :
    (headerOf total pairs).length = 10 + 9 * pairs.length := by
  rw [headerOf_eq, List.length_append, List.length_append, length_beBytes, length_beBytes,
    length_flatMap_pairBytes]
  omega

/-! ### FT_SER -/

theorem sinkPutAll_append (as bs : List Byte) (s : State) :
    sinkPutAll (as ++ bs) s = (sinkPutAll as s).andThen fun _ t => sinkPutAll bs t := by
  induction as generalizing s with
  | nil => rfl
  | cons a as ih =>
    rw [List.cons_append, sinkPutAll, sinkPutAll]
    cases sinkPut a s with
    | ok _ t => exact ih t
    | raise c t => rfl
    | stuck e => rfl

theorem putEntries_eq (es : List TabEntry) (s : State) :
    putEntries es s = sinkPutAll (es.flatMap TabEntry.headerBytes) s := by
  induction es generalizing s with
  | nil => rfl
  | cons e es ih =>
    rw [putEntries, List.flatMap_cons, sinkPutAll_append]
    cases sinkPutAll e.headerBytes s with
    | ok _ t => exact ih t
    | raise c t => rfl
    | stuck e => rfl

/-- FT_SER puts the header of the table and enters HDR_OUT (41_frequency_table.md R146). -/
theorem serialiseBody_eq {s : State} (hn : s.ft.tabN.toNat ≤ 256) :
    serialiseBody s =
      (sinkPutAll (headerOf s.ft.total (s.ft.entries.map fun e => (e.sym, e.cnt))) s).andThen
        fun _ t => .ok () { t with phase := .hdrOut } := by
  have hlen : (BitVec.ofNat 16 (s.ft.entries.map fun e => (e.sym, e.cnt)).length).toNat = s.ft.tabN.toNat := by
    rw [List.length_map, length_entries _ hn, BitVec.toNat_ofNat, Nat.mod_eq_of_lt (by omega)]
  have hpairs : (s.ft.entries.map fun e => (e.sym, e.cnt)).flatMap pairBytes =
      s.ft.entries.flatMap TabEntry.headerBytes := by
    rw [List.flatMap_map]
    congr 1
  rw [headerOf_eq, hlen, hpairs, sinkPutAll_append, serialiseBody, putUInt]
  have h1 := sinkPutAll_all (beBytes 8 s.ft.total.toNat) s
  cases hr : sinkPutAll (beBytes 8 s.ft.total.toNat) s with
  | raise c t => rfl
  | stuck e => rfl
  | ok _ t =>
    rw [hr, Res.all_ok] at h1
    have f1 : t.ft = s.ft := by rw [h1.rest]
    simp only [Res.ok_andThen]
    rw [sinkPutAll_append, putUInt, f1]
    have h2 := sinkPutAll_all (beBytes 2 s.ft.tabN.toNat) t
    cases hr2 : sinkPutAll (beBytes 2 s.ft.tabN.toNat) t with
    | raise c u => rfl
    | stuck e => rfl
    | ok _ u =>
      rw [hr2, Res.all_ok] at h2
      have f2 : u.ft = s.ft := by rw [h2.rest]; exact f1
      simp only [Res.ok_andThen]
      rw [putEntries_eq, f2]

/-- Only PHASE and the ports differ, the ports by sink transactions alone. -/
structure SerStep (s t : State) : Prop where
  rest : t = { s with phase := t.phase, ports := t.ports }
  ports : SinkMoves s.ports t.ports

theorem SerStep.trans {s t u : State} (h : SerStep s t) (k : SerStep t u) : SerStep s u :=
  ⟨by rw [k.rest, h.rest], h.ports.trans k.ports⟩

theorem SinkStep.serStep {s t : State} (h : SinkStep s t) : SerStep s t := ⟨by rw [h.rest], h.ports⟩

theorem serialiseBody_all (s : State) : (serialiseBody s).All (SerStep s) (· = .ioSink) := by
  unfold serialiseBody
  refine Res.All.seq .trans ((putUInt_all _ _ s).mono (fun _ h => h.serStep) fun _ h => h) fun _ t _ => ?_
  refine Res.All.seq .trans ((putUInt_all _ _ t).mono (fun _ h => h.serStep) fun _ h => h) fun _ u _ => ?_
  rw [putEntries_eq]
  exact Res.All.seq .trans ((sinkPutAll_all _ u).mono (fun _ h => h.serStep) fun _ h => h)
    fun _ _ _ => ⟨rfl, .refl _⟩

theorem serialiseBody_phase {s t : State} (h : serialiseBody s = .ok () t) : t.phase = .hdrOut := by
  obtain ⟨_, _, _, h⟩ := Res.andThen_eq_ok.1 h
  obtain ⟨_, _, _, h⟩ := Res.andThen_eq_ok.1 h
  obtain ⟨_, _, _, h⟩ := Res.andThen_eq_ok.1 h
  obtain rfl : _ = t := by simpa using h
  rfl

/-! ### FT_DES: what can change -/

/-- The causes FT_DES can raise. -/
abbrev HeaderCause (c : Cause) : Prop :=
  c = .hdrTruncated ∨ c = .hdrAlphaRange ∨ c = .hdrZeroCount ∨ c = .hdrDupSymbol ∨ c = .hdrSumMismatch

/-- Only TOTAL, the table, TAB_N, TAB_VALID, SRC_EOS, PHASE and the ports differ, the ports by source transactions
alone. -/
structure DesStep (s t : State) : Prop where
  rest : t = { s with
    phase := t.phase
    ft := { s.ft with total := t.ft.total, tabN := t.ft.tabN, tab := t.ft.tab, tabValid := t.ft.tabValid }
    dec := { s.dec with srcEos := t.dec.srcEos }
    ports := t.ports }
  ports : SourceMoves s.ports t.ports

theorem DesStep.refl (s : State) : DesStep s s := ⟨rfl, .refl _⟩

theorem DesStep.trans {s t u : State} (h : DesStep s t) (k : DesStep t u) : DesStep s u :=
  ⟨by rw [k.rest, h.rest], h.ports.trans k.ports⟩

theorem SourceStep.desStep {s t : State} (h : SourceStep s t) : DesStep s t := ⟨by rw [h.rest], h.ports⟩

theorem getUIntStrict_des (n : Nat) (s : State) :
    (getUIntStrict n s).All (DesStep s) (fun c => HeaderCause c ∨ c = .ioSource) :=
  (getUIntStrict_all n s).mono (fun _ h => h.desStep) fun c h => by
    rcases h with rfl | rfl <;> simp [HeaderCause]

theorem loadPair_des (i acc total : Nat) (sym : Byte) (c : Nat) (s : State) :
    (loadPair i acc total sym c s).All (DesStep s) (fun c => HeaderCause c ∨ c = .ioSource) := by
  unfold loadPair
  split
  · exact ⟨.refl s, by simp [HeaderCause]⟩
  split
  · exact ⟨.refl s, by simp [HeaderCause]⟩
  split
  · exact ⟨.refl s, by simp [HeaderCause]⟩
  · exact ⟨rfl, .refl _⟩

theorem loadPairs_des (n i acc total : Nat) (s : State) :
    (loadPairs n i acc total s).All (DesStep s) (fun c => HeaderCause c ∨ c = .ioSource) := by
  induction n generalizing i acc s with
  | zero => exact .refl s
  | succ n ih =>
    rw [loadPairs]
    refine Res.All.seq .trans (getUIntStrict_des 1 s) fun sym t _ => ?_
    refine Res.All.seq .trans (getUIntStrict_des 8 t) fun c u _ => ?_
    exact Res.All.seq .trans (loadPair_des _ _ _ _ _ u) fun acc' v _ => ih _ _ v

theorem deserialiseBody_des (s : State) :
    (deserialiseBody s).All (DesStep s) (fun c => HeaderCause c ∨ c = .ioSource) := by
  unfold deserialiseBody
  refine Res.All.seq .trans ((getUIntStrict_des 8 _).mono (fun t h => ?_) fun _ h => h) fun tot t _ => ?_
  · exact DesStep.trans (t := (s.setSrcEos false).setTabValid false) ⟨rfl, .refl _⟩ h
  refine Res.All.seq .trans ((getUIntStrict_des 2 _).mono (fun u h => ?_) fun _ h => h) fun n u _ => ?_
  · exact DesStep.trans (t := t.setTotal (BitVec.ofNat 64 tot)) ⟨rfl, .refl _⟩ h
  split
  · exact ⟨.refl u, by simp [HeaderCause]⟩
  · refine Res.All.seq .trans (loadPairs_des _ _ _ _ u) fun acc v _ => ?_
    split
    · exact ⟨rfl, .refl _⟩
    · exact ⟨.refl v, by simp [HeaderCause]⟩

/-- The pairs loop writes table entries and nothing else of the frequency unit. -/
theorem loadPairs_ft (n i acc total : Nat) (s : State) :
    (loadPairs n i acc total s).All (fun t => t.ft = { s.ft with tab := t.ft.tab }) (fun _ => True) := by
  have keep : ∀ {s : State} (k : Nat), (getUIntStrict k s).All (fun t => t.ft = s.ft) (fun _ => True) :=
    fun k => (getUIntStrict_all k _).mono (fun t h => by rw [h.rest]) fun _ _ => trivial
  have tr : ∀ {a b c : State}, a.ft = b.ft → b.ft = { c.ft with tab := b.ft.tab } →
      a.ft = { c.ft with tab := a.ft.tab } := fun h k => by rw [h]; exact k
  induction n generalizing i acc s with
  | zero => exact rfl
  | succ n ih =>
    rw [loadPairs]
    refine (keep 1).mono (fun t h => show t.ft = { s.ft with tab := t.ft.tab } by rw [h]) (fun _ h => h) |>.andThen
      fun sym t _ ht => ?_
    refine (keep 8).mono (fun u h => tr h ht) (fun _ h => h) |>.andThen fun c u _ hu => ?_
    refine Res.All.andThen (P := fun v => v.ft = { s.ft with tab := v.ft.tab }) ?_ fun acc' v _ hv => ?_
    · unfold loadPair
      split
      · exact ⟨hu, trivial⟩
      split
      · exact ⟨hu, trivial⟩
      split
      · exact ⟨hu, trivial⟩
      · show (u.setEntry _ _).ft = _
        rw [State.setEntry_ft, hu]
        rfl
    · refine (ih _ _ v).mono (fun w h => ?_) fun _ h => h
      rw [h, hv]

/-- An FT_DES that faults leaves TAB_VALID 0 and TAB_N as it was (41_frequency_table.md R149). -/
theorem deserialiseBody_raise {s t : State} {c : Cause} (h : deserialiseBody s = .raise c t) :
    t.ft.tabValid = false ∧ t.ft.tabN = s.ft.tabN ∧ t.ft.nseen = s.ft.nseen := by
  have keep : ∀ (k : Nat) (s : State), (getUIntStrict k s).All (fun t => t.ft = s.ft) (fun _ => True) :=
    fun k s => (getUIntStrict_all k s).mono (fun t h => by rw [h.rest]) fun _ _ => trivial
  unfold deserialiseBody at h
  rcases Res.andThen_eq_raise.1 h with h | ⟨tot, s1, h1, h⟩
  · have := keep 8 ((s.setSrcEos false).setTabValid false)
    rw [h, Res.all_raise] at this
    rw [this.1]
    exact ⟨rfl, rfl, rfl⟩
  have k1 := keep 8 ((s.setSrcEos false).setTabValid false)
  rw [h1, Res.all_ok] at k1
  have f1 : (s1.setTotal (BitVec.ofNat 64 tot)).ft =
      { s.ft with tabValid := false, total := BitVec.ofNat 64 tot } := by
    rw [State.setTotal_ft, k1]; rfl
  have k2 := keep 2 (s1.setTotal (BitVec.ofNat 64 tot))
  rcases Res.andThen_eq_raise.1 h with h | ⟨n, s2, h2, h⟩
  · rw [h, Res.all_raise, f1] at k2
    rw [k2.1]
    exact ⟨rfl, rfl, rfl⟩
  rw [h2, Res.all_ok, f1] at k2
  split at h
  · simp only [Res.raise.injEq] at h
    rw [← h.2, k2]
    exact ⟨rfl, rfl, rfl⟩
  · have k3 := loadPairs_ft n 0 0 tot s2
    rcases Res.andThen_eq_raise.1 h with h | ⟨acc, s3, h3, h⟩
    · rw [h, Res.all_raise, k2] at k3
      rw [k3.1]
      exact ⟨rfl, rfl, rfl⟩
    · rw [h3, Res.all_ok, k2] at k3
      split at h
      · simp at h
      · simp only [Res.raise.injEq] at h
        rw [← h.2, k3]
        exact ⟨rfl, rfl, rfl⟩

/-! ### FT_DES: what is read -/

/-- A completed GetUIntStrict read its bytes from the front of the source (20_memory.md R65). -/
theorem getUIntFrom_inv {n acc v : Nat} {s t : State} (h : getUIntFrom n acc s = .ok v t) :
    ∃ bs : List Byte, bs.length = n ∧ s.ports.source = bs.map .byte ++ t.ports.source ∧
      v = acc * 2 ^ (8 * n) + bigEndian bs := by
  induction n generalizing acc s with
  | zero =>
    simp only [getUIntFrom, Res.ok.injEq] at h
    exact ⟨[], rfl, by simp [h.2], by simp [bigEndian, h.1]⟩
  | succ n ih =>
    obtain ⟨a, u, hu, h⟩ := Res.andThen_eq_ok.1 h
    cases a with
    | none => simp at h
    | some b =>
      obtain ⟨bs, hl, hs, hv⟩ := ih h
      have hb : s.ports.source = .byte b :: u.ports.source := by
        unfold srcGet at hu
        split at hu <;> simp only [Res.ok.injEq, Option.some.injEq, reduceCtorEq, false_and] at hu
        rename_i b' hb'
        obtain ⟨rfl, rfl⟩ := hu
        unfold State.sourceAnswer at hb'
        cases hs' : s.ports.source with
        | nil => simp [hs'] at hb'
        | cons x xs =>
          simp only [hs', List.headD_cons] at hb'
          subst hb'
          simp [hs']
      refine ⟨b :: bs, by simp [hl], by rw [hb, hs]; rfl, ?_⟩
      rw [hv, bigEndian, hl, show 8 * (n + 1) = 8 + 8 * n by ring, pow_add]
      ring

theorem getUIntStrict_inv {n v : Nat} {s t : State} (h : getUIntStrict n s = .ok v t) :
    ∃ bs : List Byte, bs.length = n ∧ s.ports.source = bs.map .byte ++ t.ports.source ∧ v = bigEndian bs := by
  simpa using getUIntFrom_inv h

/-- On a source that neither fails nor falls silent GetUIntStrict completes or finds the end. -/
theorem getUIntFrom_open (n acc : Nat) {s : State} (h : SourceOpen s) :
    (∃ v t, getUIntFrom n acc s = .ok v t ∧ SourceOpen t) ∨ ∃ t, getUIntFrom n acc s = .raise .hdrTruncated t := by
  induction n generalizing acc s with
  | zero => exact .inl ⟨_, _, rfl, h⟩
  | succ n ih =>
    rw [getUIntFrom]
    cases hs : s.ports.source with
    | nil => exact .inr ⟨_, by rw [srcGet_eos (by simp [hs])]; rfl⟩
    | cons a as =>
      have ha := h a (by simp [hs])
      cases a with
      | byte b =>
        rw [srcGet_byte hs]
        exact ih _ (fun x hx => h x (by rw [hs]; exact List.mem_cons_of_mem _ hx))
      | eos => exact .inr ⟨_, by rw [srcGet_eos (by simp [hs])]; rfl⟩
      | err => exact absurd rfl ha.1
      | never => exact absurd rfl ha.2

/-! ### FT_DES: the pairs -/

theorem any_firstEntries_eq_false {f : FreqTable} {i : Nat} (hi : i ≤ 256) (sym : Byte) :
    (f.firstEntries i).any (fun e => e.sym == sym) = false ↔ ∀ j < i, (f.entry j).sym ≠ sym := by
  have e : ∀ j < i, (f.firstEntries i)[j]? = some (f.entry j) := by
    intro j hj
    have h256 : j < 256 := by omega
    simp [FreqTable.firstEntries, FreqTable.entry, hj, h256]
  have hl : (f.firstEntries i).length = i := by simp [FreqTable.firstEntries, hi]
  rw [List.any_eq_false]
  constructor
  · intro h j hj
    simpa using h _ (List.mem_iff_getElem?.2 ⟨j, e j hj⟩)
  · intro h x hx
    obtain ⟨j, hj⟩ := List.mem_iff_getElem?.1 hx
    have hlt : j < i := by rw [← hl]; exact (List.getElem?_eq_some_iff.1 hj).1
    rw [e j hlt] at hj
    obtain rfl : _ = x := by simpa using hj
    simpa using h j hlt

/-- The sum of the counts of a list of pairs. -/
def pairSum (pairs : List (Byte × Word64)) : Nat := (pairs.map fun p => p.2.toNat).sum

@[simp] theorem pairSum_nil : pairSum [] = 0 := rfl

@[simp] theorem pairSum_cons (p : Byte × Word64) (ps : List (Byte × Word64)) :
    pairSum (p :: ps) = p.2.toNat + pairSum ps := rfl

/-- The entries a list of pairs makes, from position i and running sum acc. -/
def fillPairs : List (Byte × Word64) → Nat → Nat → FreqTable → FreqTable
  | [], _, _, f => f
  | p :: ps, i, acc, f =>
    fillPairs ps (i + 1) (acc + p.2.toNat)
      (f.setEntry i ⟨p.1, p.2, BitVec.ofNat 64 acc, BitVec.ofNat 64 (acc + p.2.toNat)⟩)

theorem fillPairs_rest (ps : List (Byte × Word64)) (i acc : Nat) (f : FreqTable) :
    fillPairs ps i acc f = { f with tab := (fillPairs ps i acc f).tab } := by
  induction ps generalizing i acc f with
  | nil => rfl
  | cons p ps ih => rw [fillPairs, ih]; rfl

theorem fillPairs_tab (ps : List (Byte × Word64)) (i acc : Nat) {f g : FreqTable} (h : f.tab = g.tab) :
    (fillPairs ps i acc f).tab = (fillPairs ps i acc g).tab := by
  induction ps generalizing i acc f g with
  | nil => exact h
  | cons p ps ih => exact ih _ _ (by simp only [FreqTable.setEntry, h])

theorem fillPairs_entry_lt (ps : List (Byte × Word64)) (i acc : Nat) (f : FreqTable) {j : Nat} (hj : j < i) :
    (fillPairs ps i acc f).entry j = f.entry j := by
  induction ps generalizing i acc f with
  | nil => rfl
  | cons p ps ih => rw [fillPairs, ih (i + 1) _ _ (by omega), entry_setEntry, if_neg (by omega)]

theorem fillPairs_entry_ge (ps : List (Byte × Word64)) (i acc : Nat) (f : FreqTable) {j : Nat}
    (hj : i + ps.length ≤ j) : (fillPairs ps i acc f).entry j = f.entry j := by
  induction ps generalizing i acc f with
  | nil => rfl
  | cons p ps ih =>
    rw [List.length_cons] at hj
    rw [fillPairs, ih (i + 1) _ _ (by omega), entry_setEntry, if_neg (by omega)]

/-- Entry i + k: pair k with the running sums (41_frequency_table.md R148). -/
theorem fillPairs_entry (ps : List (Byte × Word64)) (i acc : Nat) (f : FreqTable) (k : Nat) (hk : k < ps.length)
    (hn : i + ps.length ≤ 256) :
    (fillPairs ps i acc f).entry (i + k) =
      ⟨ps[k].1, ps[k].2, BitVec.ofNat 64 (acc + pairSum (ps.take k)),
        BitVec.ofNat 64 (acc + pairSum (ps.take (k + 1)))⟩ := by
  induction ps generalizing i acc f k with
  | nil => simp at hk
  | cons p ps ih =>
    rw [List.length_cons] at hn hk
    rw [fillPairs]
    cases k with
    | zero =>
      rw [fillPairs_entry_lt _ _ _ _ (by omega), entry_setEntry, if_pos ⟨by omega, by omega⟩]
      simp
    | succ k =>
      rw [show i + (k + 1) = i + 1 + k by omega, ih (i + 1) _ _ k (by omega) (by omega)]
      simp only [List.getElem_cons_succ, List.take_succ_cons, pairSum_cons, Nat.add_assoc]

/-- What makes a list of pairs acceptable after i entries with running sum acc (60_exceptions.md R255). -/
structure PairsFit (pairs : List (Byte × Word64)) (f : FreqTable) (i acc total : Nat) : Prop where
  positive : ∀ p ∈ pairs, 1 ≤ p.2.toNat
  nodup : (pairs.map Prod.fst).Nodup
  fresh : ∀ j < i, (f.entry j).sym ∉ pairs.map Prod.fst
  sum : acc + pairSum pairs ≤ total

theorem PairsFit.tail {p : Byte × Word64} {ps : List (Byte × Word64)} {f : FreqTable} {i acc total : Nat}
    (h : PairsFit (p :: ps) f i acc total) (hi : i < 256) :
    PairsFit ps (f.setEntry i ⟨p.1, p.2, BitVec.ofNat 64 acc, BitVec.ofNat 64 (acc + p.2.toNat)⟩) (i + 1)
      (acc + p.2.toNat) total := by
  obtain ⟨h1, h2, h3, h4⟩ := h
  rw [List.map_cons, List.nodup_cons] at h2
  simp only [List.map_cons, List.mem_cons, not_or] at h3
  refine ⟨fun q hq => h1 q (List.mem_cons_of_mem _ hq), h2.2, fun j hj => ?_, by rw [pairSum_cons] at h4; omega⟩
  rw [entry_setEntry]
  by_cases hij : i = j
  · rw [if_pos ⟨hij, hi⟩]; exact h2.1
  · rw [if_neg (fun hc => hij hc.1)]; exact (h3 j (by omega)).2

theorem loadPair_fit {p : Byte × Word64} {i acc total : Nat} {s : State} (h1 : 1 ≤ p.2.toNat)
    (h2 : ∀ j < i, (s.ft.entry j).sym ≠ p.1) (h3 : acc + p.2.toNat ≤ total) (hi : i ≤ 256) :
    loadPair i acc total p.1 p.2.toNat s =
      .ok (acc + p.2.toNat)
        (s.setEntry i ⟨p.1, p.2, BitVec.ofNat 64 acc, BitVec.ofNat 64 (acc + p.2.toNat)⟩) := by
  rw [loadPair, if_neg (by omega), (any_firstEntries_eq_false hi p.1).2 h2, if_neg (by simp), if_neg (by omega)]
  simp

/-- One more pair of which all nine bytes are there (41_frequency_table.md R148). -/
theorem loadPairs_succ {p : Byte × Word64} {k i acc total : Nat} {s : State} {rest : List SrcAnswer}
    (hs : s.ports.source = (pairBytes p).map .byte ++ rest) :
    loadPairs (k + 1) i acc total s =
      (loadPair i acc total p.1 p.2.toNat (withSourceAnswers s ((pairBytes p).map .byte) rest)).andThen
        fun acc t => loadPairs k (i + 1) acc total t := by
  rw [pairBytes_eq] at hs ⊢
  have hsrc : s.ports.source = [p.1].map .byte ++ ((beBytes 8 p.2.toNat).map .byte ++ rest) := by rw [hs]; simp
  have g1 := getUIntStrict_bytes [p.1] s _ hsrc
  rw [show bigEndian [p.1] = p.1.toNat by simp [bigEndian], List.length_singleton] at g1
  have g2 := getUIntStrict_bytes (beBytes 8 p.2.toNat)
    (withSourceAnswers s ([p.1].map .byte) ((beBytes 8 p.2.toNat).map .byte ++ rest)) _ rfl
  rw [bigEndian_beBytes (by have := p.2.isLt; omega), length_beBytes, withSourceAnswers_append] at g2
  rw [loadPairs, g1, Res.ok_andThen, g2, Res.ok_andThen]
  simp

/-- The pairs loop on pairs that fit, and k more after them (41_frequency_table.md R148). -/
theorem loadPairs_prefix (pairs : List (Byte × Word64)) (k i acc total : Nat) (s : State) (rest : List SrcAnswer)
    (hs : s.ports.source = (pairs.flatMap pairBytes).map .byte ++ rest) (hn : i + pairs.length ≤ 256)
    (hf : PairsFit pairs s.ft i acc total) :
    loadPairs (pairs.length + k) i acc total s =
      loadPairs k (i + pairs.length) (acc + pairSum pairs) total
        { withSourceAnswers s ((pairs.flatMap pairBytes).map .byte) rest with
          ft := fillPairs pairs i acc s.ft } := by
  induction pairs generalizing i acc s with
  | nil =>
    simp only [List.length_nil, pairSum_nil, Nat.add_zero, Nat.zero_add, List.flatMap_nil, List.map_nil, fillPairs]
    rw [withSourceAnswers_nil (by simpa using hs)]
  | cons p ps ih =>
    rw [List.length_cons] at hn
    have hfresh : ∀ j < i, (s.ft.entry j).sym ≠ p.1 := fun j hj hc =>
      hf.fresh j hj (by rw [hc]; simp)
    rw [List.length_cons, show ps.length + 1 + k = (ps.length + k) + 1 by omega,
      loadPairs_succ (p := p) (rest := (ps.flatMap pairBytes).map .byte ++ rest)
        (by rw [hs, List.flatMap_cons, List.map_append, List.append_assoc]),
      loadPair_fit (s := withSourceAnswers s _ _) (hf.positive p (by simp)) hfresh
        (by have := hf.sum; rw [pairSum_cons] at this; omega) (by omega),
      Res.ok_andThen, ih (i + 1) _ _ rfl (by omega) (hf.tail (by omega)), pairSum_cons,
      show i + 1 + ps.length = i + (ps.length + 1) by omega, ← Nat.add_assoc acc]
    simp [withSourceAnswers, fillPairs]

/-- A completed pairs loop read acceptable pairs from the front of the source (41_frequency_table.md R148). -/
theorem loadPairs_inv {n i acc total v : Nat} {s t : State} (hn : i + n ≤ 256) (hacc : acc ≤ total)
    (h : loadPairs n i acc total s = .ok v t) :
    ∃ pairs : List (Byte × Word64), pairs.length = n ∧
      s.ports.source = (pairs.flatMap pairBytes).map .byte ++ t.ports.source ∧ v = acc + pairSum pairs ∧
      PairsFit pairs s.ft i acc total ∧ t.ft = fillPairs pairs i acc s.ft := by
  induction n generalizing i acc s with
  | zero =>
    simp only [loadPairs, Res.ok.injEq] at h
    obtain ⟨rfl, rfl⟩ := h
    exact ⟨[], rfl, by simp, by simp, ⟨by simp, by simp, by simp, by simpa using hacc⟩, rfl⟩
  | succ n ih =>
    rw [loadPairs] at h
    obtain ⟨sym, s1, h1, h⟩ := Res.andThen_eq_ok.1 h
    obtain ⟨c, s2, h2, h⟩ := Res.andThen_eq_ok.1 h
    obtain ⟨acc', s3, h3, h⟩ := Res.andThen_eq_ok.1 h
    obtain ⟨b1, l1, r1, v1⟩ := getUIntStrict_inv h1
    obtain ⟨b2, l2, r2, v2⟩ := getUIntStrict_inv h2
    have f1 : s1.ft = s.ft := by
      have := getUIntStrict_all 1 s; rw [h1, Res.all_ok] at this; rw [this.rest]
    have f2 : s2.ft = s.ft := by
      have := getUIntStrict_all 8 s1; rw [h2, Res.all_ok] at this; rw [this.rest]; exact f1
    obtain ⟨b, rfl⟩ := List.length_eq_one_iff.1 l1
    have hb : BitVec.ofNat 8 sym = b := by rw [v1]; simp [bigEndian]
    have hclt := bigEndian_lt b2
    rw [l2] at hclt
    have hc : (BitVec.ofNat 64 c).toNat = c := by
      rw [BitVec.toNat_ofNat, Nat.mod_eq_of_lt (by omega)]
    have hbytes : b2 = beBytes 8 (BitVec.ofNat 64 c).toNat :=
      bigEndian_injective (by simp [l2]) (by rw [hc, bigEndian_beBytes (by omega), v2])
    unfold loadPair at h3
    split at h3
    · simp at h3
    rename_i hc0
    split at h3
    · simp at h3
    rename_i hdup
    split at h3
    · simp at h3
    rename_i hsum
    obtain ⟨rfl, rfl⟩ : acc + c = acc' ∧ _ = s3 := by simpa using h3
    obtain ⟨ps, p1, p2, p3, p4, p5⟩ := ih (by omega) (by omega) h
    simp only [State.setEntry_ft, State.setEntry_ports, f2, hb] at p2 p4 p5
    rw [f2, hb, Bool.not_eq_true, any_firstEntries_eq_false (by omega)] at hdup
    refine ⟨(b, BitVec.ofNat 64 c) :: ps, by simp [p1], ?_, ?_, ⟨?_, ?_, ?_, ?_⟩, ?_⟩
    · rw [r1, r2, p2, List.flatMap_cons, pairBytes_eq]
      dsimp only
      rw [← hbytes]
      simp
    · rw [p3, pairSum_cons, hc]; omega
    · intro p hp
      rcases List.mem_cons.1 hp with rfl | hp
      · simp only [hc]; omega
      · exact p4.positive p hp
    · rw [List.map_cons, List.nodup_cons]
      refine ⟨fun hm => ?_, p4.nodup⟩
      have := p4.fresh i (by omega)
      rw [entry_setEntry, if_pos ⟨rfl, by omega⟩] at this
      exact this hm
    · intro j hj
      rw [List.map_cons, List.mem_cons, not_or]
      refine ⟨hdup j hj, ?_⟩
      have := p4.fresh j (by omega)
      rwa [entry_setEntry, if_neg (by omega)] at this
    · rw [pairSum_cons, hc]; have := p4.sum; omega
    · rw [p5, fillPairs, hc]

/-- Acceptable pairs extend a partition. -/
theorem fillPairs_partition (ps : List (Byte × Word64)) (i acc total : Nat) (f : FreqTable)
    (h : PrefixPartition f i acc) (hf : PairsFit ps f i acc total) (hn : i + ps.length ≤ 256)
    (ht : total < 2 ^ 64) :
    PrefixPartition (fillPairs ps i acc f) (i + ps.length) (acc + pairSum ps) := by
  induction ps generalizing i acc f with
  | nil => exact h
  | cons p ps ih =>
    rw [List.length_cons] at hn
    have hs := hf.sum
    rw [pairSum_cons] at hs
    have hsn := h.snoc (sym := p.1) (c := p.2.toNat) (by omega) (hf.positive p (by simp))
      (fun j hj hc => hf.fresh j hj (by rw [hc]; simp)) (by omega)
    simp only [BitVec.ofNat_toNat, BitVec.setWidth_eq] at hsn
    have := ih (i + 1) _ _ hsn (hf.tail (by omega)) (by omega)
    rw [fillPairs, List.length_cons, pairSum_cons, show i + (ps.length + 1) = i + 1 + ps.length by omega,
      ← Nat.add_assoc]
    exact this

/-! ### FT_DES as a whole -/

/-- The state of FT_DES once the pairs that fit are read (60_exceptions.md R251): SRC_EOS = 0, TAB_VALID = 0, TOTAL
read, their entries written, the answers consumed. -/
def headerState (s : State) (total : Word64) (pairs : List (Byte × Word64)) (consumed rest : List SrcAnswer) : State :=
  { withSourceAnswers s consumed rest with
    dec := { s.dec with srcEos := false }
    ft := { fillPairs pairs 0 0 s.ft with total := total, tabValid := false } }

/-- FT_DES on the first two fields of a header (41_frequency_table.md R148). -/
theorem deserialiseBody_start {s : State} {total : Word64} {n : BitVec 16} {rest : List SrcAnswer}
    (hs : s.ports.source = (headerStart total n []).map .byte ++ rest) :
    deserialiseBody s =
      if Config.alphaMax < n.toNat then
        .raise .hdrAlphaRange (headerState s total [] ((headerStart total n []).map .byte) rest)
      else loadTable total.toNat n.toNat (headerState s total [] ((headerStart total n []).map .byte) rest) := by
  rw [headerStart_eq] at hs ⊢
  have hsrc : ((s.setSrcEos false).setTabValid false).ports.source =
      (beBytes 8 total.toNat).map .byte ++ ((beBytes 2 n.toNat).map .byte ++ rest) := by
    show s.ports.source = _
    rw [hs]; simp
  have g1 := getUIntStrict_bytes (beBytes 8 total.toNat) _ _ hsrc
  rw [bigEndian_beBytes (by have := total.isLt; omega), length_beBytes] at g1
  have g2 := getUIntStrict_bytes (beBytes 2 n.toNat)
    ((withSourceAnswers ((s.setSrcEos false).setTabValid false) ((beBytes 8 total.toNat).map .byte)
        ((beBytes 2 n.toNat).map .byte ++ rest)).setTotal (BitVec.ofNat 64 total.toNat)) _ rfl
  rw [bigEndian_beBytes (by have := n.isLt; omega), length_beBytes] at g2
  rw [deserialiseBody, g1, Res.ok_andThen, g2, Res.ok_andThen]
  have e : withSourceAnswers ((withSourceAnswers ((s.setSrcEos false).setTabValid false)
      ((beBytes 8 total.toNat).map .byte) ((beBytes 2 n.toNat).map .byte ++ rest)).setTotal
        (BitVec.ofNat 64 total.toNat)) ((beBytes 2 n.toNat).map .byte) rest =
      headerState s total [] ((beBytes 8 total.toNat ++ (beBytes 2 n.toNat ++ [].flatMap pairBytes)).map .byte)
        rest := by
    simp [headerState, fillPairs, withSourceAnswers, State.setTotal, State.setSrcEos, State.setTabValid]
  rw [e]

/-- FT_DES on a header whose first pairs fit: the loop over the pairs still to come (41_frequency_table.md R148). -/
theorem deserialiseBody_pairs {s : State} {total : Word64} {n : BitVec 16} {pairs : List (Byte × Word64)}
    {rest : List SrcAnswer} (hn : n.toNat ≤ 256) (hp : PairsPass total pairs) (hl : pairs.length ≤ n.toNat)
    (hs : s.ports.source = (headerStart total n pairs).map .byte ++ rest) :
    deserialiseBody s =
      (loadPairs (n.toNat - pairs.length) pairs.length (pairSum pairs) total.toNat
        (headerState s total pairs ((headerStart total n pairs).map .byte) rest)).andThen fun acc t =>
          if acc = total.toNat then .ok () (t.finishLoad (BitVec.ofNat 9 n.toNat)) else .raise .hdrSumMismatch t := by
  obtain ⟨h1, h2, h3⟩ := hp
  have e : headerStart total n pairs = headerStart total n [] ++ pairs.flatMap pairBytes :=
    headerStart_append total n [] pairs
  rw [deserialiseBody_start (total := total) (n := n) (rest := (pairs.flatMap pairBytes).map .byte ++ rest) (by rw [hs, e]; simp),
    if_neg (by simp only [Config.alphaMax]; omega), loadTable]
  have hk : n.toNat = pairs.length + (n.toNat - pairs.length) := by omega
  have hpre := loadPairs_prefix pairs (n.toNat - pairs.length) 0 0 total.toNat
    (headerState s total [] ((headerStart total n []).map .byte) ((pairs.flatMap pairBytes).map .byte ++ rest)) rest
    rfl (by omega) ⟨h1, h2, by simp, by rw [Nat.zero_add]; exact h3⟩
  rw [← hk, Nat.zero_add, Nat.zero_add] at hpre
  rw [hpre]
  have ht := fillPairs_tab pairs 0 0 (f := { s.ft with tabValid := false, total := total }) (g := s.ft) rfl
  congr 2
  rw [headerState, headerState, fillPairs_rest pairs 0 0 s.ft, e]
  simp only [fillPairs]
  rw [fillPairs_rest]
  simp [withSourceAnswers, ht]

/-- FT_DES on a well-formed header (41_frequency_table.md R148). -/
theorem deserialiseBody_fit {s : State} {total : Word64} {pairs : List (Byte × Word64)} {rest : List SrcAnswer}
    (hp : PairsWellFormed total pairs)
    (hs : s.ports.source = (headerOf total pairs).map .byte ++ rest) :
    deserialiseBody s = .ok ()
      { withSourceAnswers s ((headerOf total pairs).map .byte) rest with
        phase := .loaded
        dec := { s.dec with srcEos := false }
        ft := { fillPairs pairs 0 0 s.ft with
          total := total, tabN := BitVec.ofNat 9 pairs.length, tabValid := true } } := by
  obtain ⟨h1, h2, h3, h4⟩ := hp
  have h256 : pairs.length ≤ 256 := h1
  have hlen : (BitVec.ofNat 16 pairs.length).toNat = pairs.length := by
    rw [BitVec.toNat_ofNat, Nat.mod_eq_of_lt (by omega)]
  rw [deserialiseBody_pairs (n := BitVec.ofNat 16 pairs.length) (by rw [hlen]; exact h256) ⟨h2, h3, h4.le⟩
    (by rw [hlen]) hs, hlen, Nat.sub_self, loadPairs, Res.ok_andThen, if_pos (show pairSum pairs = _ from h4)]
  rfl

/-- GetUIntStrict on a source that ends or fails among its bytes (20_memory.md R61, R65). -/
theorem getUIntStrict_cut {bs : List Byte} {n : Nat} {s : State} {rest : List SrcAnswer} {a : SrcAnswer} {c : Cause}
    (h : s.ports.source = bs.map .byte ++ rest) (hn : bs.length < n) (ha : rest.headD .eos = a)
    (hc : a = .eos ∧ c = .hdrTruncated ∨ a = .err ∧ c = .ioSource) :
    getUIntStrict n s = .raise c (withSourceAnswers s (bs.map .byte ++ [a]) rest.tail) := by
  rcases hc with ⟨rfl, rfl⟩ | ⟨rfl, rfl⟩
  · exact getUIntFrom_eos bs n 0 s rest h hn (by cases rest <;> simp_all)
  · exact getUIntFrom_err bs n 0 s rest h hn (by cases rest <;> simp_all)

/-- A total_symbols that is cut short (41_frequency_table.md R148). -/
theorem deserialiseBody_cut_total {bs : List Byte} {s : State} {rest : List SrcAnswer} {a : SrcAnswer} {c : Cause}
    (h : s.ports.source = bs.map .byte ++ rest) (hn : bs.length < 8) (ha : rest.headD .eos = a)
    (hc : a = .eos ∧ c = .hdrTruncated ∨ a = .err ∧ c = .ioSource) :
    deserialiseBody s = .raise c (headerState s s.ft.total [] (bs.map .byte ++ [a]) rest.tail) := by
  rw [deserialiseBody, getUIntStrict_cut (s := (s.setSrcEos false).setTabValid false) h hn ha hc]; rfl

/-- An alphabet_count that is cut short (41_frequency_table.md R148). -/
theorem deserialiseBody_cut_count {bs : List Byte} {s : State} {total : Word64} {rest : List SrcAnswer}
    {a : SrcAnswer} {c : Cause} (h : s.ports.source = (totalBytes total ++ bs).map .byte ++ rest)
    (hn : bs.length < 2) (ha : rest.headD .eos = a)
    (hc : a = .eos ∧ c = .hdrTruncated ∨ a = .err ∧ c = .ioSource) :
    deserialiseBody s =
      .raise c (headerState s total [] ((totalBytes total ++ bs).map .byte ++ [a]) rest.tail) := by
  have e : totalBytes total = beBytes 8 total.toNat := by rw [beBytes_toNat]; rfl
  rw [e] at h ⊢
  have g1 := getUIntStrict_bytes (beBytes 8 total.toNat) ((s.setSrcEos false).setTabValid false)
    (bs.map .byte ++ rest) (by show s.ports.source = _; rw [h]; simp)
  rw [bigEndian_beBytes (by have := total.isLt; omega), length_beBytes] at g1
  rw [deserialiseBody, g1, Res.ok_andThen, getUIntStrict_cut (s := State.setTotal _ _) rfl hn ha hc]
  simp [headerState, fillPairs, withSourceAnswers, State.setTotal, State.setSrcEos, State.setTabValid]

/-- Fault entry in the state of FT_DES after the pairs that fit (60_exceptions.md R251, R256). -/
theorem headerState_fault {s : State} {total : Word64} {pairs : List (Byte × Word64)}
    {consumed rest : List SrcAnswer} {c : Cause} (hl : pairs.length ≤ 256) :
    HeaderFault s (faultEntry c (headerState s total pairs consumed rest)) c total pairs consumed rest := by
  refine ⟨rfl, rfl, ?_, fun i h => ?_, fun i h => ?_, rfl, rfl, ?_⟩
  · show (headerState s total pairs consumed rest).ft = _
    rw [headerState, fillPairs_rest]; rfl
  · have := fillPairs_entry pairs 0 0 s.ft i h (by omega)
    rw [Nat.zero_add, Nat.zero_add, Nat.zero_add] at this
    exact this
  · exact fillPairs_entry_ge pairs 0 0 s.ft (by omega)
  · cases c <;> rfl

/-- A pair that is cut short (41_frequency_table.md R148). -/
theorem loadPairs_cut {bs : List Byte} {k i acc total : Nat} {s : State} {rest : List SrcAnswer} {a : SrcAnswer}
    {c : Cause} (h : s.ports.source = bs.map .byte ++ rest) (hn : bs.length < 9) (ha : rest.headD .eos = a)
    (hc : a = .eos ∧ c = .hdrTruncated ∨ a = .err ∧ c = .ioSource) :
    loadPairs (k + 1) i acc total s = .raise c (withSourceAnswers s (bs.map .byte ++ [a]) rest.tail) := by
  rw [loadPairs]
  cases bs with
  | nil => rw [getUIntStrict_cut h (by simp) ha hc]; rfl
  | cons b bs =>
    have g1 := getUIntStrict_bytes [b] s (bs.map .byte ++ rest) (by rw [h]; rfl)
    rw [List.length_singleton] at g1
    rw [g1, Res.ok_andThen, getUIntStrict_cut (bs := bs) rfl (by rw [List.length_cons] at hn; omega) ha hc, Res.raise_andThen,
      withSourceAnswers_append]
    rfl

/-- The checks of a pair that is refused, in their order (41_frequency_table.md R148; 60_exceptions.md R255). -/
theorem loadPair_raise {p : Byte × Word64} {pairs : List (Byte × Word64)} {total : Nat} {s : State} {f : FreqTable}
    {c : Cause} (hl : pairs.length ≤ 256) (ht : s.ft.tab = (fillPairs pairs 0 0 f).tab)
    (h : p.2 = 0#64 ∧ c = .hdrZeroCount ∨ p.2 ≠ 0#64 ∧ p.1 ∈ pairs.map Prod.fst ∧ c = .hdrDupSymbol ∨
      p.2 ≠ 0#64 ∧ p.1 ∉ pairs.map Prod.fst ∧ total < pairSum pairs + p.2.toNat ∧ c = .hdrSumMismatch) :
    loadPair pairs.length (pairSum pairs) total p.1 p.2.toNat s = .raise c s := by
  have hz : p.2.toNat = 0 ↔ p.2 = 0#64 :=
    ⟨fun h => BitVec.eq_of_toNat_eq h, fun h => by rw [h]; rfl⟩
  have he : ∀ j (hj : j < pairs.length), (s.ft.entry j).sym = pairs[j].1 := by
    intro j hj
    have h2 : s.ft.entry j = (fillPairs pairs 0 0 f).entry j := by rw [FreqTable.entry, ht]; rfl
    have := fillPairs_entry pairs 0 0 f j hj (by omega)
    rw [Nat.zero_add] at this
    rw [h2, this]
  have hd : (s.ft.firstEntries pairs.length).any (fun e => e.sym == p.1) = false ↔ p.1 ∉ pairs.map Prod.fst := by
    rw [any_firstEntries_eq_false hl]
    constructor
    · intro h hm
      obtain ⟨q, hq, hqp⟩ := List.mem_map.1 hm
      obtain ⟨j, hj, rfl⟩ := List.mem_iff_getElem.1 hq
      exact h j hj ((he j hj).trans hqp)
    · intro h j hj hc
      exact h (List.mem_map.2 ⟨pairs[j], List.getElem_mem hj, (he j hj).symm.trans hc⟩)
  unfold loadPair
  rcases h with ⟨h0, rfl⟩ | ⟨h0, hm, rfl⟩ | ⟨h0, hm, hs, rfl⟩
  · rw [if_pos (hz.2 h0)]
  · rw [if_neg (mt hz.1 h0), if_pos (by
      by_contra hn
      rw [Bool.not_eq_true] at hn
      exact hd.1 hn hm)]
  · rw [if_neg (mt hz.1 h0), hd.2 hm, if_neg (by simp), if_pos hs]

/-- A completed FT_DES read a well-formed header from the front of the source, and its table partitions the total
(41_frequency_table.md R148, R152; 30_encoding.md R102). -/
theorem deserialiseBody_inv {s t : State} (h : deserialiseBody s = .ok () t) :
    ∃ (total : Word64) (pairs : List (Byte × Word64)), PairsWellFormed total pairs ∧
      s.ports.source = (headerOf total pairs).map .byte ++ t.ports.source ∧ t.phase = .loaded ∧
      t.ft.tabValid = true ∧ TablePartition t.ft := by
  obtain ⟨tot, s1, h1, h⟩ := Res.andThen_eq_ok.1 h
  obtain ⟨n, s2, h2, h⟩ := Res.andThen_eq_ok.1 h
  split at h
  · simp at h
  rename_i hn
  have hn' : n ≤ 256 := by simp only [Config.alphaMax] at hn; omega
  obtain ⟨acc, s3, h3, h⟩ := Res.andThen_eq_ok.1 h
  split at h
  · rename_i hacc
    obtain rfl : _ = t := by simpa using h
    obtain ⟨b1, l1, r1, v1⟩ := getUIntStrict_inv h1
    obtain ⟨b2, l2, r2, v2⟩ := getUIntStrict_inv h2
    obtain ⟨ps, p1, p2, p3, p4, p5⟩ := loadPairs_inv (by omega) (by omega) h3
    have hlt := bigEndian_lt b1
    rw [l1] at hlt
    have htot : (BitVec.ofNat 64 tot).toNat = tot := by
      rw [BitVec.toNat_ofNat, Nat.mod_eq_of_lt (by omega)]
    have hlen : (BitVec.ofNat 16 ps.length).toNat = n := by
      rw [p1, BitVec.toNat_ofNat, Nat.mod_eq_of_lt (by omega)]
    have e1 : b1 = beBytes 8 tot :=
      bigEndian_injective (by simp [l1]) (by rw [bigEndian_beBytes (by omega), v1])
    have e2 : b2 = beBytes 2 n :=
      bigEndian_injective (by simp [l2]) (by rw [bigEndian_beBytes (by omega), v2])
    rw [hacc, Nat.zero_add] at p3
    have f2 : s2.ft.total.toNat = tot := by
      have := getUIntStrict_all 2 (s1.setTotal (BitVec.ofNat 64 tot))
      rw [h2, Res.all_ok] at this
      rw [this.rest]
      exact htot
    refine ⟨BitVec.ofNat 64 tot, ps, ⟨by rw [p1]; exact hn', p4.positive, p4.nodup, by rw [htot, p3]; rfl⟩, ?_, rfl,
      rfl, ?_⟩
    · rw [headerOf_eq, htot, hlen, ← e1, ← e2, List.map_append, List.map_append, List.append_assoc,
        List.append_assoc]
      show s.ports.source = _ ++ (_ ++ (_ ++ s3.ports.source))
      rw [← p2, ← r2]
      exact r1
    · have hN : ((s3.finishLoad (BitVec.ofNat 9 n)).ft.tabN).toNat = n := by
        show (BitVec.ofNat 9 n).toNat = n
        rw [BitVec.toNat_ofNat, Nat.mod_eq_of_lt (by omega)]
      have hT : (s3.finishLoad (BitVec.ofNat 9 n)).ft.total.toNat = tot := by
        show s3.ft.total.toNat = tot
        rw [p5, fillPairs_rest]; exact f2
      refine PrefixPartition.table (by rw [hN]; exact hn') ?_
      rw [hN, hT]
      have := fillPairs_partition ps 0 0 tot s2.ft (.nil _) p4 (by omega) (by omega)
      rw [Nat.zero_add, Nat.zero_add, p1, ← p3] at this
      exact this.congr (by rw [State.finishLoad_ft, p5])
  · simp at h

/-- On a source that neither fails nor falls silent the pairs loop completes or finds a fault in the header. -/
theorem loadPairs_open (n i acc total : Nat) {s : State} (h : SourceOpen s) :
    (∃ v t, loadPairs n i acc total s = .ok v t) ∨
      ∃ c t, loadPairs n i acc total s = .raise c t ∧ HeaderCause c := by
  induction n generalizing i acc s with
  | zero => exact .inl ⟨_, _, rfl⟩
  | succ n ih =>
    rw [loadPairs, getUIntStrict]
    rcases getUIntFrom_open 1 0 h with ⟨sym, t, ht, ho⟩ | ⟨t, ht⟩
    · rw [ht, Res.ok_andThen, getUIntStrict]
      rcases getUIntFrom_open 8 0 ho with ⟨c, u, hu, hou⟩ | ⟨u, hu⟩
      · rw [hu, Res.ok_andThen]
        unfold loadPair
        split
        · exact .inr ⟨_, _, rfl, by simp [HeaderCause]⟩
        split
        · exact .inr ⟨_, _, rfl, by simp [HeaderCause]⟩
        split
        · exact .inr ⟨_, _, rfl, by simp [HeaderCause]⟩
        · exact ih _ _ hou
      · rw [hu]; exact .inr ⟨_, _, rfl, by simp [HeaderCause]⟩
    · rw [ht]; exact .inr ⟨_, _, rfl, by simp [HeaderCause]⟩

/-- On such a source FT_DES completes or finds a fault in the header (41_frequency_table.md R149). -/
theorem deserialiseBody_open {s : State} (h : SourceOpen s) :
    (∃ t, deserialiseBody s = .ok () t) ∨ ∃ c t, deserialiseBody s = .raise c t ∧ HeaderCause c := by
  unfold deserialiseBody getUIntStrict
  rcases getUIntFrom_open 8 0 (s := (s.setSrcEos false).setTabValid false) h with ⟨tot, t, ht, ho⟩ | ⟨t, ht⟩
  · rw [ht, Res.ok_andThen]
    rcases getUIntFrom_open 2 0 (s := t.setTotal (BitVec.ofNat 64 tot)) ho with ⟨n, u, hu, hou⟩ | ⟨u, hu⟩
    · rw [hu, Res.ok_andThen]
      split
      · exact .inr ⟨_, _, rfl, by simp [HeaderCause]⟩
      · unfold loadTable
        rcases loadPairs_open n 0 0 tot hou with ⟨v, w, hw⟩ | ⟨c, w, hw, hc⟩
        · rw [hw, Res.ok_andThen]
          split
          · exact .inl ⟨_, rfl⟩
          · exact .inr ⟨_, _, rfl, by simp [HeaderCause]⟩
        · rw [hw]; exact .inr ⟨_, _, rfl, hc⟩
    · rw [hu]; exact .inr ⟨_, _, rfl, by simp [HeaderCause]⟩
  · rw [ht]; exact .inr ⟨_, _, rfl, by simp [HeaderCause]⟩

end Sys2Proof.Machine
end

