-- ==== Sys2Proof/Laws/Commands.lean ====
section
/-! SUPPORT. Every command but the two system ones is its acceptance test and its body (45_system.md R231, R232);
what each body can change and raise. -/

namespace Sys2Proof.Machine

/-! ### Commands as bodies -/

/-- The body of a command. The two system commands have none. -/
def bodyOf (i : Instr) (s : State) : Res Unit :=
  match i with
  | .reset => .ok () s
  | .rdsr _ => .ok () s
  | .ftClear => .ok () (clearCounts s)
  | .ftCount sym => countBody sym s
  | .ftBuild => .ok () (buildTable s)
  | .ftSer => serialiseBody s
  | .ftDes => deserialiseBody s
  | .encInit => .ok () (startEncoder s)
  | .encSym sym => encodeBody sym s
  | .encFin => finishBody s
  | .decInit => decInitBody s
  | .decSym => decodeBody s

/-- The acceptance test of a command, as the command computes it. -/
def accepts (i : Instr) (s : State) : Bool :=
  match i with
  | .reset => true
  | .rdsr _ => true
  | .ftClear => s.phase == .idle
  | .ftCount _ => s.phase == .counting
  | .ftBuild => s.phase == .counting
  | .ftSer => s.phase == .built
  | .ftDes => s.phase == .idle
  | .encInit => s.phase == .hdrOut
  | .encSym _ => s.phase == .encoding && decide (s.enc.count.toNat < s.ft.total.toNat)
  | .encFin => s.phase == .encoding && s.enc.count == s.ft.total
  | .decInit => s.phase == .loaded
  | .decSym => s.phase == .decoding

theorem accepts_iff (i : Instr) (s : State) : accepts i s = true ↔ AcceptedWhen i s := by
  cases i <;> simp [accepts, AcceptedWhen]

theorem accepts_eq_false_iff (i : Instr) (s : State) : accepts i s = false ↔ ¬ AcceptedWhen i s := by
  rw [← accepts_iff, Bool.not_eq_true]

/-- A command that is not a system command runs its body through the dispatch checks (45_system.md R231). -/
theorem exec_eq_whenAccepted {i : Instr} (h : isSystem i = false) (s : State) :
    exec i s = whenAccepted (accepts i s) (bodyOf i) s := by
  cases i <;> first | rfl | simp [isSystem] at h

/-- An accepted command is its body, settled. -/
theorem exec_eq_settle {i : Instr} {s : State} (h : isSystem i = false) (hp : s.phase ≠ .fault)
    (ha : AcceptedWhen i s) : exec i s = settle (bodyOf i s) := by
  rw [exec_eq_whenAccepted h, (accepts_iff i s).2 ha, whenAccepted, if_neg hp, if_pos rfl]

/-- In FAULT every command that is not a system command is refused (60_exceptions.md R259). -/
theorem exec_faulted {i : Instr} {s : State} (h : isSystem i = false) (hp : s.phase = .fault) :
    exec i s = .next (refuse .errFaulted s) := by
  rw [exec_eq_whenAccepted h, whenAccepted, if_pos hp]

/-- A command that is not accepted now is refused (45_system.md R239). -/
theorem exec_not_accepted {i : Instr} {s : State} (h : isSystem i = false) (hp : s.phase ≠ .fault)
    (ha : ¬ AcceptedWhen i s) : exec i s = .next (refuse .errSeq s) := by
  rw [exec_eq_whenAccepted h, (accepts_eq_false_iff i s).2 ha, whenAccepted, if_neg hp]
  rfl

theorem AcceptedWhen.phase_ne_fault {i : Instr} {s : State} (h : isSystem i = false) (ha : AcceptedWhen i s) :
    s.phase ≠ .fault := by
  cases i <;> simp_all [AcceptedWhen, isSystem]

/-- Every way a command answers a next state (45_system.md R231): the two system commands, the refusals, completion,
fault entry. -/
theorem exec_eq_next {i : Instr} {s t : State} (h : exec i s = .next t) :
    (i = .reset ∧ t = respond .ok 0#64 (resetDevice s)) ∨
    (∃ n, i = .rdsr n ∧ (t = respond .ok (statusRegister n.toNat s) s ∨ t = refuse .errIllegal s)) ∨
    (isSystem i = false ∧
      (t = refuse .errFaulted s ∧ s.phase = .fault ∨
       t = refuse .errSeq s ∧ s.phase ≠ .fault ∧ ¬ AcceptedWhen i s ∨
       s.phase ≠ .fault ∧ AcceptedWhen i s ∧
        ((∃ u, bodyOf i s = .ok () u ∧ t = respond .ok 0#64 u) ∨
         ∃ c u, bodyOf i s = .raise c u ∧ t = faultEntry c u))) := by
  cases hi : isSystem i with
  | true =>
    cases i <;> simp only [isSystem, Bool.false_eq_true] at hi
    · left
      simp only [exec, execReset, Host.Outcome.next.injEq] at h
      exact ⟨rfl, h.symm⟩
    · right; left
      simp only [exec, execRdsr] at h
      split at h <;> simp only [Host.Outcome.next.injEq] at h
      · exact ⟨_, rfl, .inl h.symm⟩
      · exact ⟨_, rfl, .inr h.symm⟩
  | false =>
    right; right
    refine ⟨rfl, ?_⟩
    rw [exec_eq_whenAccepted hi] at h
    rcases whenAccepted_eq_next.1 h with ⟨h1, h2⟩ | ⟨h1, h2, h3⟩ | ⟨h1, h2, h3⟩
    · exact .inl ⟨h2, h1⟩
    · exact .inr (.inl ⟨h3, h1, (accepts_eq_false_iff i s).1 h2⟩)
    · exact .inr (.inr ⟨h1, (accepts_iff i s).1 h2, settle_eq_next.1 h3⟩)

/-- Every way a step answers a next state (45_system.md R230). -/
theorem step_eq_next {s t : State} (h : step s = .next t) :
    ∃ rest,
      (s.ports.host = .hardReset :: rest ∧ t = hardwareReset (withInputTaken s .hardReset rest)) ∨
      ∃ w, s.ports.host = .word w :: rest ∧
        ((∃ e, decode w = .error e ∧ t = refuse .errIllegal (withInputTaken s (.command w) rest)) ∨
         ∃ i, decode w = .ok i ∧ exec i (withInputTaken s (.command w) rest) = .next t) := by
  unfold step nextInput at h
  cases hh : s.ports.host with
  | nil => simp [hh] at h
  | cons x rest =>
    refine ⟨rest, ?_⟩
    cases x with
    | hardReset =>
      left
      simp only [hh, Host.Outcome.next.injEq] at h
      exact ⟨rfl, h.symm⟩
    | word w =>
      right
      refine ⟨w, rfl, ?_⟩
      simp only [hh] at h
      have h' : execWord w (withInputTaken s (.command w) rest) = .next t := h
      unfold execWord at h'
      split at h'
      · rename_i e he
        left
        simp only [Host.Outcome.next.injEq] at h'
        exact ⟨e, he, h'.symm⟩
      · rename_i i hi
        exact .inr ⟨i, hi, h'⟩

/-- A step on a presented word is that word, dispatched (45_system.md R230). -/
theorem step_word {s : State} {w : CmdWord} {rest : List HostInput} (h : s.ports.host = .word w :: rest) :
    step s = execWord w (withInputTaken s (.command w) rest) := by
  simp only [step, nextInput, h]
  rfl

theorem step_hardReset {s : State} {rest : List HostInput} (h : s.ports.host = .hardReset :: rest) :
    step s = .next (hardwareReset (withInputTaken s .hardReset rest)) := by
  simp only [step, nextInput, h]
  rfl

/-! ### What each body can change and raise -/

theorem countBody_all (sym : Byte) (s : State) :
    (countBody sym s).All (fun t => t = { s with ft := t.ft } ∧ (t.ft = s.ft ∨ t.ft = s.ft.countSymbol sym))
      (· = .counterOverflow) := by
  unfold countBody
  split
  · exact ⟨⟨rfl, .inl rfl⟩, rfl⟩
  · exact ⟨rfl, .inr rfl⟩

/-- Only the encoder and the ports differ, the ports by sink transactions alone. -/
structure EncStep (s t : State) : Prop where
  rest : t = { s with enc := t.enc, ports := t.ports }
  ports : SinkMoves s.ports t.ports

theorem encodeEntry_all (e : TabEntry) (s : State) :
    (encodeEntry e s).All (EncStep s) (fun c => c = .zeroRange ∨ c = .counterOverflow ∨ c = .ioSink) := by
  unfold encodeEntry
  split
  · exact ⟨⟨rfl, .refl _⟩, .inl rfl⟩
  · rename_i l r _
    refine Res.All.andThen (P := EncStep s) ((encLoop_all _ _).mono (fun t h => ?_) fun c h => ?_)
      fun _ t _ ht => ⟨by rw [ht.rest]; rfl, ht.ports⟩
    · exact ⟨by rw [h.rest]; rfl, h.ports⟩
    · rcases h with rfl | rfl <;> simp

theorem encodeBody_all (sym : Byte) (s : State) :
    (encodeBody sym s).All (EncStep s)
      (fun c => c = .symNotInTable ∨ c = .zeroRange ∨ c = .counterOverflow ∨ c = .ioSink) := by
  unfold encodeBody
  split
  · exact ⟨⟨rfl, .refl _⟩, .inl rfl⟩
  · exact (encodeEntry_all _ s).mono (fun _ h => h) fun _ h => .inr h

/-- Only PHASE, ENC_PEND, WACC, WIDX and the ports differ, the ports by sink transactions alone. -/
structure FinStep (s t : State) : Prop where
  rest : t = { s with
    phase := t.phase
    enc := { s.enc with pend := t.enc.pend, wacc := t.enc.wacc, widx := t.enc.widx }
    ports := t.ports }
  ports : SinkMoves s.ports t.ports

theorem FinStep.trans {s t u : State} (h : FinStep s t) (k : FinStep t u) : FinStep s u :=
  ⟨by rw [k.rest, h.rest], h.ports.trans k.ports⟩

theorem BitsStep.finStep {s t : State} (h : BitsStep s t) : FinStep s t := ⟨by rw [h.rest], h.ports⟩

theorem finishBody_all (s : State) : (finishBody s).All (FinStep s) (· = .ioSink) := by
  unfold finishBody
  refine Res.All.seq .trans ((emitAll_all _ s).mono (fun _ h => h.finStep) fun _ h => h) fun _ t _ => ?_
  exact Res.All.seq .trans ((flush_all t).mono (fun _ h => h.bitsStep.finStep) fun _ h => h)
    fun _ u _ => ⟨rfl, .refl _⟩

/-- Only PHASE, the decoder and the ports differ. -/
structure DecStep (s t : State) : Prop where
  rest : t = { s with phase := t.phase, dec := t.dec, ports := t.ports }
  ports : PortsMove s.ports t.ports

theorem DecStep.trans {s t u : State} (h : DecStep s t) (k : DecStep t u) : DecStep s u :=
  ⟨by rw [k.rest, h.rest], h.ports.trans k.ports⟩

theorem decInitBody_all (s : State) :
    (decInitBody s).All (fun t => DecStep s t ∧ SourceMoves s.ports t.ports) (· = .ioSource) := by
  unfold decInitBody
  refine Res.All.andThen (P := fun t => DecStep s t ∧ SourceMoves s.ports t.ports)
    ((getWordPadded_all _).mono (fun t h => ?_) fun _ h => h)
    fun _ t _ ht => ⟨⟨by rw [ht.1.rest]; rfl, ht.1.ports⟩, ht.2⟩
  exact ⟨⟨by rw [h.rest]; rfl, h.ports.portsMove⟩, h.ports⟩

theorem DecPassStep.decStep {s t : State} (h : DecPassStep s t) : DecStep s t :=
  ⟨by rw [h.rest], h.ports.portsMove⟩

theorem SinkStep.decStep {s t : State} (h : SinkStep s t) : DecStep s t :=
  ⟨by rw [h.rest], h.ports.portsMove⟩

theorem decodeEntry_all (e : TabEntry) (s : State) :
    (decodeEntry e s).All (DecStep s) (fun c => c = .zeroRange ∨ c = .ioSource ∨ c = .ioSink) := by
  unfold decodeEntry
  split
  · exact ⟨⟨rfl, .refl _⟩, .inl rfl⟩
  · rename_i l r _
    refine Res.All.seq .trans ((decLoop_all _ _).mono (fun t h => ?_) fun c h => .inr (.inl h)) fun _ t _ => ?_
    · exact DecStep.trans (t := s.setDecInterval l r) ⟨rfl, .refl _⟩ h.decStep
    · exact Res.All.seq .trans ((sinkPut_all _ t).mono (fun _ h => h.decStep) fun c h => .inr (.inr h))
        fun _ u _ => ⟨rfl, .refl _⟩

theorem decodeBody_all (s : State) :
    (decodeBody s).All (DecStep s)
      (fun c => c = .noCdfMatch ∨ c = .zeroRange ∨ c = .ioSource ∨ c = .ioSink) := by
  unfold decodeBody
  split
  · exact ⟨⟨rfl, .refl _⟩, .inl rfl⟩
  · exact (decodeEntry_all _ s).mono (fun _ h => h) fun _ h => .inr h

/-- Every body leaves the host's inputs, keeps what FCAUSE holds, and moves the streams forward. -/
theorem bodyOf_all (i : Instr) (s : State) :
    (bodyOf i s).All (fun t => t.fcause = s.fcause ∧ PortsMove s.ports t.ports) (fun _ => True) := by
  cases i with
  | reset => exact ⟨rfl, .refl _⟩
  | rdsr n => exact ⟨rfl, .refl _⟩
  | ftClear => exact ⟨rfl, .refl _⟩
  | ftCount sym =>
    exact (countBody_all sym s).mono (fun t h => by rw [h.1]; exact ⟨rfl, .refl _⟩) fun _ _ => trivial
  | ftBuild => exact ⟨rfl, .refl _⟩
  | ftSer => exact (serialiseBody_all s).mono (fun t h => ⟨by rw [h.rest], h.ports.portsMove⟩) fun _ _ => trivial
  | ftDes => exact (deserialiseBody_des s).mono (fun t h => ⟨by rw [h.rest], h.ports.portsMove⟩) fun _ _ => trivial
  | encInit => exact ⟨rfl, .refl _⟩
  | encSym sym => exact (encodeBody_all sym s).mono (fun t h => ⟨by rw [h.rest], h.ports.portsMove⟩) fun _ _ => trivial
  | encFin => exact (finishBody_all s).mono (fun t h => ⟨by rw [h.rest], h.ports.portsMove⟩) fun _ _ => trivial
  | decInit => exact (decInitBody_all s).mono (fun t h => ⟨by rw [h.1.rest], h.1.ports⟩) fun _ _ => trivial
  | decSym => exact (decodeBody_all s).mono (fun t h => ⟨by rw [h.rest], h.ports⟩) fun _ _ => trivial

/-! ### The phase a completed body leaves (45_system.md R232) -/

/-- The phase each completed body leaves. DEC_SYM's is read from its own comparison of DEC_COUNT and TOTAL. -/
theorem bodyOf_phase {i : Instr} {s t : State} (hi : isSystem i = false) (ha : AcceptedWhen i s)
    (h : bodyOf i s = .ok () t) :
    i ≠ .decSym ∧ t.phase = nextPhase i s ∨
      i = .decSym ∧ t.phase = if s.dec.count + 1#64 = s.ft.total then .idle else .decoding := by
  cases i with
  | reset => simp [isSystem] at hi
  | rdsr n => simp [isSystem] at hi
  | ftClear => obtain rfl : _ = t := by simpa [bodyOf] using h
               exact .inl ⟨by simp, rfl⟩
  | ftCount sym =>
    have hb := countBody_all sym s
    rw [show countBody sym s = .ok () t from h, Res.all_ok] at hb
    exact .inl ⟨by simp, by rw [hb.1]; exact ha⟩
  | ftBuild => obtain rfl : _ = t := by simpa [bodyOf] using h
               exact .inl ⟨by simp, rfl⟩
  | ftSer => exact .inl ⟨by simp, serialiseBody_phase h⟩
  | ftDes => obtain ⟨_, _, _, _, hp, _⟩ := deserialiseBody_inv h
             exact .inl ⟨by simp, hp⟩
  | encInit => obtain rfl : _ = t := by simpa [bodyOf] using h
               exact .inl ⟨by simp, rfl⟩
  | encSym sym =>
    have hb := encodeBody_all sym s
    rw [show encodeBody sym s = .ok () t from h, Res.all_ok] at hb
    exact .inl ⟨by simp, by rw [hb.rest]; exact ha.1⟩
  | encFin =>
    obtain ⟨_, _, _, h⟩ := Res.andThen_eq_ok.1 h
    obtain ⟨_, _, _, h⟩ := Res.andThen_eq_ok.1 h
    obtain rfl : _ = t := by simpa using h
    exact .inl ⟨by simp, rfl⟩
  | decInit =>
    obtain ⟨_, u, hu, h⟩ := Res.andThen_eq_ok.1 h
    obtain rfl : _ = t := by simpa using h
    have hb := getWordPadded_all (startDecoder s)
    rw [hu, Res.all_ok] at hb
    refine .inl ⟨by simp, ?_⟩
    show phaseAfterInit u.ft.total = _
    rw [hb.rest]
    rfl
  | decSym =>
    refine .inr ⟨rfl, ?_⟩
    replace h : decodeBody s = .ok () t := h
    unfold decodeBody at h
    split at h
    · simp at h
    rename_i e _
    unfold decodeEntry at h
    split at h
    · simp at h
    rename_i l r _
    obtain ⟨_, u, hu, h⟩ := Res.andThen_eq_ok.1 h
    obtain ⟨_, v, hv, h⟩ := Res.andThen_eq_ok.1 h
    obtain rfl : _ = t := by simpa using h
    have a1 := decLoop_all Config.maxPasses (s.setDecInterval l r)
    rw [hu, Res.all_ok] at a1
    have a2 := sinkPut_all e.sym u
    rw [hv, Res.all_ok] at a2
    have hp : s.phase = .decoding := ha
    rw [State.countDecoded_phase, a2.rest, a1.rest]
    simp only [State.setDecInterval_dec, State.setDecInterval_ft, State.setDecInterval_phase, hp]

/-- A completed body never leaves FAULT. -/
theorem bodyOf_phase_ne_fault {i : Instr} {s t : State} (hi : isSystem i = false) (ha : AcceptedWhen i s)
    (h : bodyOf i s = .ok () t) : t.phase ≠ .fault := by
  rcases bodyOf_phase hi ha h with ⟨hne, hp⟩ | ⟨_, hp⟩
  · rw [hp]
    cases i <;> simp_all [nextPhase, isSystem]
    split <;> simp
  · rw [hp]
    split <;> simp

/-- The class of a cause's response (60_exceptions.md R251, R256). -/
theorem respCode_eq (c : Cause) :
    c.respCode = if c = .ioSink ∨ c = .ioSource then .faultIo else .faultFormat := by
  cases c <;> rfl

/-- Every reset leaves the tabulated state (70_reset_and_hazards.md R280). -/
theorem atReset_resetDevice (s : State) : AtReset (resetDevice s) := by
  refine ⟨rfl, rfl, rfl, rfl, ?_, ?_, rfl, rfl, rfl, ?_, rfl, rfl, rfl, rfl, rfl, rfl, rfl, rfl, rfl, rfl, rfl, rfl⟩
  · simp [FreqTable.reset]
  · simp [FreqTable.reset]
  · simp [FreqTable.reset, TabEntry.zero]

end Sys2Proof.Machine
end

