-- ==== Sys2Proof/Laws/Decode.lean ====
section
/-! SUPPORT. The two fields of a command word (30_encoding.md R91), and what a word that decodes looks like (R95). -/

namespace Sys2Proof

@[simp] theorem opcodeField_append (a b : Byte) : opcodeField (a ++ b) = a := by
  unfold opcodeField
  ext i hi
  rw [BitVec.getElem_extractLsb', BitVec.getLsbD_append, if_neg (by omega), Nat.add_sub_cancel_left,
    BitVec.getLsbD_eq_getElem]

@[simp] theorem operandField_append (a b : Byte) : operandField (a ++ b) = b := by
  unfold operandField
  ext i hi
  rw [BitVec.getElem_extractLsb', BitVec.getLsbD_append, if_pos (by omega), Nat.zero_add,
    BitVec.getLsbD_eq_getElem]

theorem append_fields (w : CmdWord) : opcodeField w ++ operandField w = w := by
  apply BitVec.eq_of_getLsbD_eq
  intro i hi
  rw [BitVec.getLsbD_append, opcodeField, operandField, BitVec.getLsbD_extractLsb', BitVec.getLsbD_extractLsb']
  split
  · rename_i h; simp [h]
  · rename_i h
    have : i - 8 < 8 := by omega
    simp only [this, decide_true, Bool.true_and]
    congr 1
    omega

/-- A concatenation as a number: the left part stands above the right one. -/
theorem append_toNat {m n : Nat} (a : BitVec m) (b : BitVec n) :
    (a ++ b).toNat = b.toNat + 2 ^ n * a.toNat := by
  rw [BitVec.toNat_append, ← Nat.shiftLeft_add_eq_or_of_lt b.isLt, Nat.shiftLeft_eq]
  ring

/-- The two fields as numbers. -/
theorem opcodeField_toNat (w : CmdWord) : (opcodeField w).toNat = w.toNat / 256 := by
  have := w.isLt
  simp [opcodeField, Nat.shiftRight_eq_div_pow]
  omega

theorem operandField_toNat (w : CmdWord) : (operandField w).toNat = w.toNat % 256 := by
  simp [operandField]

theorem withoutOperand_eq_ok {w : CmdWord} {i j : Instr} :
    withoutOperand w i = .ok j ↔ operandField w = 0#8 ∧ i = j := by
  unfold withoutOperand; split <;> simp_all

theorem withRegister_eq_ok {w : CmdWord} {j : Instr} :
    withRegister w = .ok j ↔ (operandField w).toNat ≤ 13 ∧ .rdsr (operandField w) = j := by
  unfold withRegister; split <;> simp_all

/-- The opcode of a command (30_encoding.md R92). -/
def opcodeOf : Instr → Byte
  | .reset => 0x01#8
  | .rdsr _ => 0x02#8
  | .ftClear => 0x10#8
  | .ftCount _ => 0x11#8
  | .ftBuild => 0x12#8
  | .ftSer => 0x13#8
  | .ftDes => 0x14#8
  | .encInit => 0x20#8
  | .encSym _ => 0x21#8
  | .encFin => 0x22#8
  | .decInit => 0x30#8
  | .decSym => 0x31#8

/-- The operand of a command, 0 where it takes none. -/
def operandOf : Instr → Byte
  | .reset => 0#8
  | .rdsr n => n
  | .ftClear => 0#8
  | .ftCount sym => sym
  | .ftBuild => 0#8
  | .ftSer => 0#8
  | .ftDes => 0#8
  | .encInit => 0#8
  | .encSym sym => sym
  | .encFin => 0#8
  | .decInit => 0#8
  | .decSym => 0#8

theorem encode_eq (i : Instr) : encode i = opcodeOf i ++ operandOf i := by cases i <;> rfl

/-- The two fields of a word that decodes (30_encoding.md R92, R95). -/
theorem decode_fields {w : CmdWord} {i : Instr} (h : decode w = .ok i) :
    opcodeField w = opcodeOf i ∧ operandField w = operandOf i := by
  have plain : ∀ {op : Byte} {j : Instr}, opcodeField w = op → withoutOperand w j = .ok i → opcodeOf j = op →
      operandOf j = 0#8 → opcodeField w = opcodeOf i ∧ operandField w = operandOf i := by
    intro op j ho hj he hf
    obtain ⟨h0, rfl⟩ := withoutOperand_eq_ok.1 hj
    exact ⟨ho.trans he.symm, h0.trans hf.symm⟩
  unfold decode at h
  by_cases ho : opcodeField w = 0x01#8
  · rw [if_pos ho] at h; exact plain ho h rfl rfl
  rw [if_neg ho] at h; clear ho
  by_cases ho : opcodeField w = 0x02#8
  · rw [if_pos ho] at h
    obtain ⟨_, rfl⟩ := withRegister_eq_ok.1 h
    exact ⟨ho, rfl⟩
  rw [if_neg ho] at h; clear ho
  by_cases ho : opcodeField w = 0x10#8
  · rw [if_pos ho] at h; exact plain ho h rfl rfl
  rw [if_neg ho] at h; clear ho
  by_cases ho : opcodeField w = 0x11#8
  · rw [if_pos ho] at h
    obtain rfl : _ = i := Except.ok.inj h
    exact ⟨ho, rfl⟩
  rw [if_neg ho] at h; clear ho
  by_cases ho : opcodeField w = 0x12#8
  · rw [if_pos ho] at h; exact plain ho h rfl rfl
  rw [if_neg ho] at h; clear ho
  by_cases ho : opcodeField w = 0x13#8
  · rw [if_pos ho] at h; exact plain ho h rfl rfl
  rw [if_neg ho] at h; clear ho
  by_cases ho : opcodeField w = 0x14#8
  · rw [if_pos ho] at h; exact plain ho h rfl rfl
  rw [if_neg ho] at h; clear ho
  by_cases ho : opcodeField w = 0x20#8
  · rw [if_pos ho] at h; exact plain ho h rfl rfl
  rw [if_neg ho] at h; clear ho
  by_cases ho : opcodeField w = 0x21#8
  · rw [if_pos ho] at h
    obtain rfl : _ = i := Except.ok.inj h
    exact ⟨ho, rfl⟩
  rw [if_neg ho] at h; clear ho
  by_cases ho : opcodeField w = 0x22#8
  · rw [if_pos ho] at h; exact plain ho h rfl rfl
  rw [if_neg ho] at h; clear ho
  by_cases ho : opcodeField w = 0x30#8
  · rw [if_pos ho] at h; exact plain ho h rfl rfl
  rw [if_neg ho] at h; clear ho
  by_cases ho : opcodeField w = 0x31#8
  · rw [if_pos ho] at h; exact plain ho h rfl rfl
  rw [if_neg ho] at h; clear ho
  simp at h

/-- The word of RDSR with any register number (30_encoding.md R95 (c)). -/
theorem decode_rdsr (n : Byte) :
    decode (0x02#8 ++ n) = if n.toNat ≤ 13 then .ok (.rdsr n) else .error (.noSuchRegister n) := by
  unfold decode
  rw [opcodeField_append, if_neg (by decide), if_pos rfl, withRegister, operandField_append]

end Sys2Proof
end

