-- ==== Sys2Proof/Laws/Invariant.lean ====
section
/-! SUPPORT. What each command's body keeps of the invariant of Safety.lean (10_state.md R28, R38; 42_interval.md
R177; 43_encoder.md R198; 45_system.md R238), when it completes and when it raises. -/

namespace Sys2Proof.Machine

/-- The part of the invariant that a fault in the middle of a command keeps. -/
structure FaultSafe (s : State) : Prop where
  nseen : s.ft.nseen.toNat ≤ 256
  tabN : s.ft.tabN.toNat ≤ 256
  table : s.ft.tabValid = true → TablePartition s.ft
  enc : IntervalOk s.enc.lower s.enc.range
  dec : IntervalOk s.dec.lower s.dec.range

theorem Invariant.faultSafe {s : State} (h : Invariant s) : FaultSafe s :=
  ⟨h.2.1.1, h.2.1.2.1, h.2.1.2.2.1, h.2.2.1, h.2.2.2.1⟩

/-- Fault entry makes the invariant of what the fault left (60_exceptions.md R256). -/
theorem FaultSafe.faultEntry (c : Cause) {s : State} (h : FaultSafe s) : Invariant (faultEntry c s) := by
  refine ⟨⟨?_, by simp, by simp, by simp⟩, ⟨h.nseen, h.tabN, h.table, by simp⟩, h.enc, h.dec, by simp, by simp⟩
  rintro (hp | hp | hp | hp | hp) <;> simp at hp

section
variable {s : State} (h : Invariant s)
include h

theorem Invariant.fcause_none (hp : s.phase ≠ .fault) : s.fcause = none := by
  by_contra hc
  exact hp (h.1.2.2.2.2 hc)

theorem Invariant.table (hp : ReadsTable s.phase) : s.ft.tabValid = true ∧ TablePartition s.ft := h.1.1 hp

theorem Invariant.settled (hp : s.phase ≠ .fault) :
    IntervalSettled s.enc.lower s.enc.range ∧ IntervalSettled s.dec.lower s.dec.range ∧ WriteSideClean s.enc :=
  h.2.2.2.2.1 hp

end

/-- The invariant of a state outside FAULT, put together. -/
theorem Invariant.mk' {s : State} (hp : s.phase ≠ .fault) (hf : s.fcause = none)
    (h1 : ReadsTable s.phase → s.ft.tabValid = true)
    (h2 : s.phase = .encoding → s.enc.count.toNat ≤ s.ft.total.toNat ∧ (s.enc.lower = 0#32 → s.enc.pend = 0#64))
    (h3 : s.phase = .decoding → s.dec.count.toNat < s.ft.total.toNat) (h4 : s.ft.nseen.toNat ≤ 256)
    (h5 : s.ft.tabN.toNat ≤ 256) (h6 : s.ft.tabValid = true → TablePartition s.ft)
    (h7 : s.phase = .counting → s.ft.tabValid = false ∧ CountsAgree s.ft)
    (h8 : IntervalSettled s.enc.lower s.enc.range) (h9 : IntervalSettled s.dec.lower s.dec.range)
    (h10 : WriteSideClean s.enc) : Invariant s :=
  ⟨⟨fun hr => ⟨h1 hr, h6 (h1 hr)⟩, fun he => (h2 he).1, h3, by simp [hp, hf]⟩, ⟨h4, h5, h6, h7⟩, h8.ok, h9.ok,
    fun _ => ⟨h8, h9, h10⟩, fun he => (h2 he).2⟩

theorem readsTable_counting : ¬ ReadsTable .counting := by simp [ReadsTable]

theorem readsTable_idle : ¬ ReadsTable .idle := by simp [ReadsTable]

theorem settled_init : IntervalSettled Config.initLower Config.initRange := by decide

/-! ### One lemma per command -/

section
variable {s t : State} (h : Invariant s)
include h

theorem clearCounts_invariant (hp : s.phase = .idle) : Invariant (clearCounts s) := by
  obtain ⟨e, d, w⟩ := h.settled (by simp [hp])
  have hc : CountsAgree (clearCounts s).ft := by
    refine ⟨by simp [clearCounts], by simp [clearCounts, FreqTable.firstSeen], ?_,
      by simp [clearCounts, FreqTable.firstSeen]⟩
    intro k _
    simp [clearCounts, FreqTable.firstSeen, FreqTable.count]
  exact .mk' (by simp [clearCounts]) (h.fcause_none (by simp [hp])) (fun hr => absurd hr readsTable_counting)
    (by simp [clearCounts]) (by simp [clearCounts]) (by simp [clearCounts]) h.2.1.2.1 (by simp [clearCounts])
    (fun _ => ⟨rfl, hc⟩) e d w

theorem countBody_invariant {sym : Byte} (hp : s.phase = .counting) (hb : countBody sym s = .ok () t) :
    Invariant t := by
  obtain ⟨e, d, w⟩ := h.settled (by simp [hp])
  obtain ⟨tv, ca⟩ := h.2.1.2.2.2 hp
  unfold countBody at hb
  split at hb
  · simp at hb
  rename_i ht
  obtain rfl : _ = t := by simpa using hb
  have hk : (s.ft.countSymbol sym).tabN = s.ft.tabN ∧ (s.ft.countSymbol sym).tabValid = s.ft.tabValid := by
    unfold FreqTable.countSymbol FreqTable.noteFirstSeen
    split <;> exact ⟨rfl, rfl⟩
  have hlt : s.ft.total.toNat < 2 ^ 64 - 1 := by
    have := s.ft.total.isLt
    simp only [Config.counterMax] at ht
    omega
  have hc := ca.countSymbol hlt sym
  refine .mk' (by simp [hp]) (h.fcause_none (by simp [hp])) (fun hr => ?_) (by simp [hp]) (by simp [hp]) hc.1 ?_ ?_
    (fun _ => ⟨by rw [hk.2]; exact tv, hc⟩) e d w
  · rw [show ({ s with ft := s.ft.countSymbol sym } : State).phase = .counting from hp] at hr
    exact absurd hr readsTable_counting
  · rw [hk.1]; exact h.2.1.2.1
  · rw [hk.2, tv]; simp

theorem buildTable_invariant (hp : s.phase = .counting) : Invariant (buildTable s) := by
  obtain ⟨e, d, w⟩ := h.settled (by simp [hp])
  obtain ⟨_, ca⟩ := h.2.1.2.2.2 hp
  obtain ⟨_, _, r3, _⟩ := fillTable_rest s.ft.tableOrder 0 0#64 s.ft
  exact .mk' (by simp [buildTable]) (h.fcause_none (by simp [hp])) (fun _ => rfl) (by simp [buildTable])
    (by simp [buildTable]) (by show (fillTable _ _ _ _).nseen.toNat ≤ 256; rw [r3]; exact ca.1) ca.1
    (fun _ => buildTable_partition ca) (by simp [buildTable]) e d w

theorem serialiseBody_invariant (hp : s.phase = .built) (hb : serialiseBody s = .ok () t) : Invariant t := by
  obtain ⟨e, d, w⟩ := h.settled (by simp [hp])
  have ht := h.table (by simp [hp, ReadsTable])
  have hs := serialiseBody_all s
  rw [hb, Res.all_ok] at hs
  have hph := serialiseBody_phase hb
  rw [hs.rest]
  refine .mk' (by simp [hph]) (h.fcause_none (by simp [hp])) (fun _ => ht.1) (by simp [hph]) (by simp [hph])
    h.2.1.1 h.2.1.2.1 (fun _ => ht.2) (by simp [hph]) e d w

theorem deserialiseBody_invariant (hp : s.phase = .idle) (hb : deserialiseBody s = .ok () t) : Invariant t := by
  obtain ⟨e, d, w⟩ := h.settled (by simp [hp])
  obtain ⟨_, _, _, _, hph, htv, htp⟩ := deserialiseBody_inv hb
  have hs := deserialiseBody_des s
  rw [hb, Res.all_ok] at hs
  have hf : t.fcause = s.fcause ∧ t.enc = s.enc ∧ t.ft.nseen = s.ft.nseen ∧ t.dec.lower = s.dec.lower ∧
      t.dec.range = s.dec.range := by
    rw [hs.rest]; exact ⟨rfl, rfl, rfl, rfl, rfl⟩
  refine .mk' (by simp [hph]) (by rw [hf.1]; exact h.fcause_none (by simp [hp])) (fun _ => htv) (by simp [hph])
    (by simp [hph]) (by rw [hf.2.2.1]; exact h.2.1.1) htp.1 (fun _ => htp) (by simp [hph]) (by rw [hf.2.1]; exact e)
    (by rw [hf.2.2.2.1, hf.2.2.2.2]; exact d) (by rw [hf.2.1]; exact w)

theorem startEncoder_invariant (hp : s.phase = .hdrOut) : Invariant (startEncoder s) := by
  obtain ⟨_, d, _⟩ := h.settled (by simp [hp])
  have ht := h.table (by simp [hp, ReadsTable])
  exact .mk' (by simp) (h.fcause_none (by simp [hp])) (fun _ => ht.1) (by simp) (by simp) h.2.1.1 h.2.1.2.1
    (fun _ => ht.2) (by simp) settled_init d (by simp [WriteSideClean])

theorem encodeBody_invariant {sym : Byte} (hp : s.phase = .encoding) (hc : s.enc.count.toNat < s.ft.total.toNat)
    (hb : encodeBody sym s = .ok () t) : Invariant t := by
  obtain ⟨e, d, w⟩ := h.settled (by simp [hp])
  have ht := h.table (by simp [hp, ReadsTable])
  unfold encodeBody at hb
  split at hb
  · simp at hb
  rename_i en hen
  obtain ⟨m1, m2⟩ := ht.2.mem (lookupSym_some hen).1
  unfold encodeEntry at hb
  split at hb
  · simp at hb
  rename_i l r hn
  obtain ⟨_, u, hu, hb⟩ := Res.andThen_eq_ok.1 hb
  obtain rfl : _ = t := by simpa using hb
  obtain ⟨n1, n2, n3, n4⟩ := narrow_inside m1.le m2 e.ok hn
  have hall := encLoop_all 31 (s.setEncInterval l r)
  rw [show encLoop 31 (s.setEncInterval l r) = .ok _ u from hu, Res.all_ok] at hall
  have hset := encLoop_settled (s := s.setEncInterval l r) n3 hu
  have hcl := (encLoop_ok (s := s.setEncInterval l r) n3 hu).2.2 w
  have hpz := encLoop_pend_zero (s := s.setEncInterval l r) n3 (fun hl => by
    refine h.2.2.2.2.2 hp (BitVec.eq_of_toNat_eq ?_)
    have hl' : l.toNat = 0 := by
      have : l = 0#32 := hl
      rw [this]; rfl
    simp only [BitVec.toNat_ofNat, Nat.zero_mod]
    omega) hu
  have hk : u.phase = s.phase ∧ u.fcause = s.fcause ∧ u.ft = s.ft ∧ u.dec = s.dec ∧ u.enc.count = s.enc.count := by
    rw [hall.rest]; exact ⟨rfl, rfl, rfl, rfl, rfl⟩
  obtain ⟨k1, k2, k3, k4, k5⟩ := hk
  have hinc : (s.enc.count + 1#64).toNat = s.enc.count.toNat + 1 := by
    rw [BitVec.toNat_add]
    have := s.ft.total.isLt
    simp only [BitVec.toNat_ofNat]
    omega
  refine .mk' (by simp [k1, hp]) (by simp only [State.countEncoded_fcause, k2]; exact h.fcause_none (by simp [hp]))
    (fun _ => by simp only [State.countEncoded_ft, k3]; exact ht.1) (fun _ => ⟨?_, hpz⟩) (by simp [k1, hp])
    (by simp only [State.countEncoded_ft, k3]; exact h.2.1.1)
    (by simp only [State.countEncoded_ft, k3]; exact h.2.1.2.1)
    (fun _ => by simp only [State.countEncoded_ft, k3]; exact ht.2) (by simp [k1, hp]) hset
    (by simp only [State.countEncoded_dec, k4]; exact d) hcl
  simp only [State.countEncoded_enc, State.countEncoded_ft, k3, k5, hinc]
  omega

theorem encodeBody_faultSafe {sym : Byte} {c : Cause} (hp : s.phase = .encoding)
    (hb : encodeBody sym s = .raise c t) : FaultSafe t := by
  obtain ⟨e, d, _⟩ := h.settled (by simp [hp])
  have ht := h.table (by simp [hp, ReadsTable])
  have hs := encodeBody_all sym s
  rw [hb, Res.all_raise] at hs
  have henc : IntervalOk t.enc.lower t.enc.range := by
    unfold encodeBody at hb
    split at hb
    · simp only [Res.raise.injEq] at hb
      rw [← hb.2]; exact e.ok
    rename_i en hen
    obtain ⟨m1, m2⟩ := ht.2.mem (lookupSym_some hen).1
    unfold encodeEntry at hb
    split at hb
    · simp only [Res.raise.injEq] at hb
      rw [← hb.2]; exact e.ok
    rename_i l r hn
    have n3 := (narrow_inside m1.le m2 e.ok hn).2.2.1
    rcases Res.andThen_eq_raise.1 hb with hb | ⟨_, u, _, hb⟩
    · have hall := encLoop_all 31 (s.setEncInterval l r)
      rw [show encLoop 31 (s.setEncInterval l r) = .raise c t from hb, Res.all_raise] at hall
      exact hall.1.interval n3
    · simp at hb
  refine ⟨?_, ?_, ?_, henc, ?_⟩ <;> rw [hs.1.rest]
  · exact h.2.1.1
  · exact h.2.1.2.1
  · exact h.2.1.2.2.1
  · exact d.ok

theorem finishBody_invariant (hp : s.phase = .encoding) (hb : finishBody s = .ok () t) : Invariant t := by
  obtain ⟨e, d, w⟩ := h.settled (by simp [hp])
  have ht := h.table (by simp [hp, ReadsTable])
  have hs := finishBody_all s
  rw [hb, Res.all_ok] at hs
  obtain ⟨_, u, hu, hb⟩ := Res.andThen_eq_ok.1 hb
  obtain ⟨_, v, hv, hb⟩ := Res.andThen_eq_ok.1 hb
  have hph : t.phase = .idle := by
    obtain rfl : _ = t := by simpa using hb
    rfl
  have hcl : WriteSideClean t.enc := by
    have hv' : WriteSideClean v.enc := flush_clean (emitAll_clean w hu) hv
    obtain rfl : _ = t := by simpa using hb
    exact hv'
  have hk : t.fcause = s.fcause ∧ t.ft = s.ft ∧ t.dec = s.dec ∧ t.enc.lower = s.enc.lower ∧
      t.enc.range = s.enc.range := by
    rw [hs.rest]; exact ⟨rfl, rfl, rfl, rfl, rfl⟩
  obtain ⟨k1, k2, k3, k4, k5⟩ := hk
  refine .mk' (by simp [hph]) (by rw [k1]; exact h.fcause_none (by simp [hp]))
    (fun hr => absurd (hph ▸ hr) readsTable_idle) (by simp [hph]) (by simp [hph]) (by rw [k2]; exact h.2.1.1)
    (by rw [k2]; exact h.2.1.2.1) (by rw [k2]; exact fun _ => ht.2) (by simp [hph]) (by rw [k4, k5]; exact e)
    (by rw [k3]; exact d) hcl

theorem decInitBody_invariant (hp : s.phase = .loaded) (hb : decInitBody s = .ok () t) : Invariant t := by
  obtain ⟨e, _, w⟩ := h.settled (by simp [hp])
  have ht := h.table (by simp [hp, ReadsTable])
  obtain ⟨v, u, hu, hb⟩ := Res.andThen_eq_ok.1 hb
  obtain rfl : _ = t := by simpa using hb
  have hr := getWordPadded_all (startDecoder s)
  rw [hu, Res.all_ok] at hr
  have hk : u.fcause = s.fcause ∧ u.ft = s.ft ∧ u.enc = s.enc ∧ u.dec.lower = 0#32 ∧
      u.dec.range = 0x80000000#32 ∧ u.dec.count = 0#64 := by
    rw [hr.rest]; exact ⟨rfl, rfl, rfl, rfl, rfl, rfl⟩
  obtain ⟨k1, k2, k3, k4, k5, k6⟩ := hk
  have hph : phaseAfterInit u.ft.total ≠ .fault ∧ phaseAfterInit u.ft.total ≠ .encoding ∧
      phaseAfterInit u.ft.total ≠ .counting ∧
      (phaseAfterInit u.ft.total = .decoding → 0 < u.ft.total.toNat) := by
    unfold phaseAfterInit
    split
    · simp
    · rename_i hz
      refine ⟨by simp, by simp, by simp, fun _ => ?_⟩
      rcases Nat.eq_zero_or_pos u.ft.total.toNat with h0 | h0
      · exact absurd (BitVec.eq_of_toNat_eq h0) hz
      · exact h0
  refine .mk' hph.1 (by rw [← h.fcause_none (by simp [hp]), ← k1]) (fun _ => ?_) (fun he => absurd he hph.2.1)
    (fun hd => ?_) ?_ ?_ (fun _ => ?_) (fun hc => absurd hc hph.2.2.1) ?_ ?_ ?_
  · show u.ft.tabValid = true
    rw [k2]; exact ht.1
  · show u.dec.count.toNat < u.ft.total.toNat
    rw [k6]; exact hph.2.2.2 hd
  · show u.ft.nseen.toNat ≤ 256
    rw [k2]; exact h.2.1.1
  · show u.ft.tabN.toNat ≤ 256
    rw [k2]; exact h.2.1.2.1
  · show TablePartition u.ft
    rw [k2]; exact ht.2
  · show IntervalSettled u.enc.lower u.enc.range
    rw [k3]; exact e
  · show IntervalSettled u.dec.lower u.dec.range
    rw [k4, k5]; exact settled_init
  · show WriteSideClean u.enc
    rw [k3]; exact w

theorem decInitBody_faultSafe {c : Cause} (hp : s.phase = .loaded) (hb : decInitBody s = .raise c t) :
    FaultSafe t := by
  obtain ⟨e, _, _⟩ := h.settled (by simp [hp])
  have ht := h.table (by simp [hp, ReadsTable])
  rcases Res.andThen_eq_raise.1 hb with hb | ⟨_, u, _, hb⟩
  · have hr := getWordPadded_all (startDecoder s)
    rw [hb, Res.all_raise] at hr
    refine ⟨?_, ?_, ?_, ?_, ?_⟩ <;> rw [hr.1.rest]
    · exact h.2.1.1
    · exact h.2.1.2.1
    · exact fun _ => ht.2
    · exact e.ok
    · exact settled_init.ok
  · simp at hb

theorem decodeBody_invariant (hp : s.phase = .decoding) (hb : decodeBody s = .ok () t) : Invariant t := by
  obtain ⟨e, d, w⟩ := h.settled (by simp [hp])
  have ht := h.table (by simp [hp, ReadsTable])
  have hc := h.1.2.2.1 hp
  unfold decodeBody at hb
  split at hb
  · simp at hb
  rename_i en hen
  obtain ⟨hm, h1, h2⟩ := selectEntry_some ht.2 d.ok hen
  obtain ⟨m1, m2⟩ := ht.2.mem hm
  unfold decodeEntry at hb
  split at hb
  · simp at hb
  rename_i l r hn
  obtain ⟨_, u, hu, hb⟩ := Res.andThen_eq_ok.1 hb
  obtain ⟨_, v, hv, hb⟩ := Res.andThen_eq_ok.1 hb
  obtain rfl : _ = t := by simpa using hb
  have n3 := (narrow_inside m1.le m2 d.ok hn).2.2.1
  have hset := decLoop_settled (s := s.setDecInterval l r) n3 hu
  have hall := decLoop_all 31 (s.setDecInterval l r)
  rw [show decLoop 31 (s.setDecInterval l r) = .ok _ u from hu, Res.all_ok] at hall
  have hk : v.phase = .decoding ∧ v.fcause = s.fcause ∧ v.ft = s.ft ∧ v.enc = s.enc ∧ v.dec = u.dec ∧
      u.dec.count = s.dec.count := by
    rw [sinkPut_inv hv]
    refine ⟨?_, ?_, ?_, ?_, rfl, ?_⟩
    · rw [← hp]; show u.phase = _; rw [hall.rest]; rfl
    · show u.fcause = _; rw [hall.rest]; rfl
    · show u.ft = _; rw [hall.rest]; rfl
    · show u.enc = _; rw [hall.rest]; rfl
    · rw [hall.rest]; rfl
  obtain ⟨k1, k2, k3, k4, k5, k6⟩ := hk
  have hinc : (s.dec.count + 1#64).toNat = s.dec.count.toNat + 1 := by
    rw [BitVec.toNat_add]
    have := s.ft.total.isLt
    simp only [BitVec.toNat_ofNat]
    omega
  have hph : v.countDecoded.phase = if s.dec.count + 1#64 = s.ft.total then .idle else .decoding := by
    rw [State.countDecoded_phase, k1, k3, k5, k6]
  have hne : ∀ p, p ≠ .idle → p ≠ .decoding → v.countDecoded.phase ≠ p := by
    intro p h1 h2 h3
    rw [hph] at h3
    split at h3
    · exact h1 h3.symm
    · exact h2 h3.symm
  refine .mk' (hne _ (by simp) (by simp)) (by rw [State.countDecoded_fcause, k2]; exact h.fcause_none (by simp [hp]))
    (fun _ => by rw [State.countDecoded_ft, k3]; exact ht.1) (fun he => absurd he (hne _ (by simp) (by simp)))
    (fun hd => ?_) (by rw [State.countDecoded_ft, k3]; exact h.2.1.1)
    (by rw [State.countDecoded_ft, k3]; exact h.2.1.2.1) (fun _ => by rw [State.countDecoded_ft, k3]; exact ht.2)
    (fun he => absurd he (hne _ (by simp) (by simp))) (by rw [State.countDecoded_enc, k4]; exact e)
    (by simp only [State.countDecoded_dec, k5]; exact hset) (by rw [State.countDecoded_enc, k4]; exact w)
  rw [hph] at hd
  have hne' : s.dec.count + 1#64 ≠ s.ft.total := fun hc => by rw [if_pos hc] at hd; simp at hd
  have : (s.dec.count + 1#64).toNat ≠ s.ft.total.toNat := fun hc => hne' (BitVec.eq_of_toNat_eq hc)
  simp only [State.countDecoded_dec, State.countDecoded_ft, k3, k5, k6]
  omega

theorem decodeBody_faultSafe {c : Cause} (hp : s.phase = .decoding) (hb : decodeBody s = .raise c t) :
    FaultSafe t ∧ c ≠ .zeroRange := by
  obtain ⟨e, d, _⟩ := h.settled (by simp [hp])
  have ht := h.table (by simp [hp, ReadsTable])
  have hs := decodeBody_all s
  rw [hb, Res.all_raise] at hs
  have hdec : IntervalOk t.dec.lower t.dec.range ∧ c ≠ .zeroRange := by
    unfold decodeBody at hb
    split at hb
    · simp only [Res.raise.injEq] at hb
      rw [← hb.1, ← hb.2]
      exact ⟨d.ok, by simp⟩
    rename_i en hen
    obtain ⟨hm, h1, h2⟩ := selectEntry_some ht.2 d.ok hen
    obtain ⟨m1, m2⟩ := ht.2.mem hm
    obtain ⟨l, r, hn, n3, _⟩ := narrow_holds_value m1.le m2 d.ok h1 h2
    unfold decodeEntry at hb
    rw [hn] at hb
    dsimp only at hb
    have hall := decLoop_all Config.maxPasses (s.setDecInterval l r)
    rcases Res.andThen_eq_raise.1 hb with hb | ⟨_, u, hu, hb⟩
    · rw [hb, Res.all_raise] at hall
      exact ⟨hall.1.interval n3, by rw [hall.2]; simp⟩
    · rw [hu, Res.all_ok] at hall
      have hok := hall.interval n3
      rcases Res.andThen_eq_raise.1 hb with hb | ⟨_, v, _, hb⟩
      · have hp := sinkPut_all en.sym u
        rw [hb, Res.all_raise] at hp
        rw [hp.1.rest, hp.2]
        exact ⟨hok, by simp⟩
      · simp at hb
  refine ⟨⟨?_, ?_, ?_, ?_, hdec.1⟩, hdec.2⟩ <;> rw [hs.1.rest]
  · exact h.2.1.1
  · exact h.2.1.2.1
  · exact h.2.1.2.2.1
  · exact e.ok

end

end Sys2Proof.Machine
end

