-- ==== Sys2Proof/Laws/PerInstr.lean ====
section
/-! SUPPORT. One lemma per command: its word stands in its row of spec/opcode_table.json, operand in place. -/

namespace Sys2Proof.Laws

open Sys2Proof

/-- The row's "match" in spec/opcode_table.json. -/
def rowMatch : Instr → CmdWord
  | .reset => 0x0100#16
  | .rdsr _ => 0x0200#16
  | .ftClear => 0x1000#16
  | .ftCount _ => 0x1100#16
  | .ftBuild => 0x1200#16
  | .ftSer => 0x1300#16
  | .ftDes => 0x1400#16
  | .encInit => 0x2000#16
  | .encSym _ => 0x2100#16
  | .encFin => 0x2200#16
  | .decInit => 0x3000#16
  | .decSym => 0x3100#16

/-- The row's "mask": the bits a row with an operand leaves to it are CW[7:0]. -/
def rowMask : Instr → CmdWord
  | .reset => 0xFFFF#16
  | .rdsr _ => 0xFF00#16
  | .ftClear => 0xFFFF#16
  | .ftCount _ => 0xFF00#16
  | .ftBuild => 0xFFFF#16
  | .ftSer => 0xFFFF#16
  | .ftDes => 0xFFFF#16
  | .encInit => 0xFFFF#16
  | .encSym _ => 0xFF00#16
  | .encFin => 0xFFFF#16
  | .decInit => 0xFFFF#16
  | .decSym => 0xFFFF#16

/-- A word with an operand: the mask keeps the opcode, the operand field is the operand. -/
theorem row_of_append (op n : Byte) :
    (op ++ n : CmdWord) &&& 0xFF00#16 = op ++ 0#8 ∧ operandField (op ++ n) = n := by
  refine ⟨?_, operandField_append op n⟩
  apply BitVec.eq_of_getLsbD_eq
  intro i hi
  have mask : ∀ j < 16, (0xFF00#16).getLsbD j = decide (8 ≤ j) := by decide
  rw [BitVec.getLsbD_and, mask i hi, BitVec.getLsbD_append, BitVec.getLsbD_append]
  split
  · simp; omega
  · simp; omega

/-- The command's word matches its row of the table, and its operand stands in CW[7:0]. -/
def TableRow.Statement (i : Instr) : Prop :=
  encode i &&& rowMask i = rowMatch i ∧ operandField (encode i) = operandOf i

theorem TableRow.reset : TableRow.Statement .reset := ⟨rfl, rfl⟩

theorem TableRow.rdsr (n : Byte) : TableRow.Statement (.rdsr n) := row_of_append 0x02#8 n

theorem TableRow.ftClear : TableRow.Statement .ftClear := ⟨rfl, rfl⟩

theorem TableRow.ftCount (sym : Byte) : TableRow.Statement (.ftCount sym) := row_of_append 0x11#8 sym

theorem TableRow.ftBuild : TableRow.Statement .ftBuild := ⟨rfl, rfl⟩

theorem TableRow.ftSer : TableRow.Statement .ftSer := ⟨rfl, rfl⟩

theorem TableRow.ftDes : TableRow.Statement .ftDes := ⟨rfl, rfl⟩

theorem TableRow.encInit : TableRow.Statement .encInit := ⟨rfl, rfl⟩

theorem TableRow.encSym (sym : Byte) : TableRow.Statement (.encSym sym) := row_of_append 0x21#8 sym

theorem TableRow.encFin : TableRow.Statement .encFin := ⟨rfl, rfl⟩

theorem TableRow.decInit : TableRow.Statement .decInit := ⟨rfl, rfl⟩

theorem TableRow.decSym : TableRow.Statement .decSym := ⟨rfl, rfl⟩

end Sys2Proof.Laws
end

