-- ==== Sys2Proof/Laws/Refused.lean ====
section
/-! SUPPORT. A sink that refuses a byte while bits are being written (40_bitpacker.md R121, R123; 43_encoder.md R191,
R192; 60_exceptions.md R251): which pieces of the encoder still complete, and the state in which the others raise. -/

namespace Sys2Proof.Machine

/-! ### Two relations: the bits were written, the bits stopped at the refused byte -/

/-- From `s`, whose sink refuses byte m, the bits have been written and leave `t`, whose sink refuses byte m'. -/
structure Wrote (bits : List Bool) (m m' : Nat) (s t : State) : Prop where
  refuses : RefusesByte t m'
  clean : WriteSideClean t.enc
  written : writtenBits t = writtenBits s ++ bits
  le : m' ≤ m
  bytes : t.sinkBytes.length + m' = s.sinkBytes.length + m
  words : m' % 4 = m % 4
  sink : t.ports.sink = s.ports.sink.drop (m - m')

/-- From `s`, whose sink refuses byte m, writing the bits has raised in `t`. -/
structure Stopped (bits : List Bool) (m : Nat) (s t : State) : Prop where
  bytes : t.sinkBytes.flatMap byteBits =
    (writtenBits s ++ bits.take (bitsBefore s m + 1)).take (8 * (s.sinkBytes.length + m))
  word : wordBits t.enc.wacc =
    (writtenBits s ++ bits.take (bitsBefore s m + 1)).drop (8 * s.sinkBytes.length + 32 * (m / 4))
  sink : t.ports.sink = s.ports.sink.drop (m + 1)

/-- The room for bits shrinks by the bits written. -/
theorem Wrote.room {bits : List Bool} {m m' : Nat} {s t : State} (h : Wrote bits m m' s t) :
    bitsBefore t m' + bits.length = bitsBefore s m := by
  have hl := congrArg List.length h.written
  rw [List.length_append, length_writtenBits, length_writtenBits] at hl
  have h1 := h.bytes
  have h2 := h.words
  have := t.enc.widx.isLt
  have := s.enc.widx.isLt
  unfold bitsBefore
  omega

/-- Nothing written, and neither the buffer nor the ports changed. -/
theorem Wrote.nil {m : Nat} {s t : State} (hr : RefusesByte s m) (hc : WriteSideClean s.enc)
    (hw : t.enc.wacc = s.enc.wacc) (hx : t.enc.widx = s.enc.widx) (hp : t.ports = s.ports) :
    Wrote [] m m s t := by
  refine ⟨by rw [RefusesByte, hp]; exact hr, ?_, ?_, le_rfl, by rw [State.sinkBytes, hp]; rfl, rfl,
    by rw [hp]; simp⟩
  · rw [WriteSideClean, hw, hx]; exact hc
  · rw [writtenBits, writtenBits, State.sinkBytes, hp, waitingBits, waitingBits, hw, hx, List.append_nil]; rfl

theorem Wrote.trans {as bs : List Bool} {m m' m'' : Nat} {s t u : State} (h : Wrote as m m' s t)
    (k : Wrote bs m' m'' t u) : Wrote (as ++ bs) m m'' s u := by
  refine ⟨k.refuses, k.clean, by rw [k.written, h.written, List.append_assoc], k.le.trans h.le,
    by rw [k.bytes, h.bytes], k.words.trans h.words, ?_⟩
  have := h.le
  have := k.le
  rw [k.sink, h.sink, List.drop_drop]
  congr 1
  omega

/-- Bits written first, then bits that stop. -/
theorem Wrote.stopped {as bs : List Bool} {m m' : Nat} {s t u : State} (h : Wrote as m m' s t)
    (k : Stopped bs m' t u) : Stopped (as ++ bs) m s u := by
  have hr := h.room
  have h1 := h.bytes
  have h2 := h.words
  have h3 := h.le
  have e : writtenBits t ++ bs.take (bitsBefore t m' + 1) =
      writtenBits s ++ (as ++ bs).take (bitsBefore s m + 1) := by
    rw [h.written, List.append_assoc, List.take_append (l₁ := as),
      List.take_of_length_le (l := as) (by omega), show bitsBefore s m + 1 - as.length = bitsBefore t m' + 1 by omega]
  refine ⟨?_, ?_, ?_⟩
  · rw [k.bytes, e, h1]
  · rw [k.word, e]; congr 1; omega
  · rw [k.sink, h.sink, List.drop_drop]; congr 1; omega

/-- Where the bits stop does not depend on those after the stop. -/
theorem Stopped.append {bs : List Bool} {m : Nat} {s t : State} (h : Stopped bs m s t) (cs : List Bool)
    (hb : bitsBefore s m < bs.length) : Stopped (bs ++ cs) m s t := by
  have e : (bs ++ cs).take (bitsBefore s m + 1) = bs.take (bitsBefore s m + 1) :=
    List.take_append_of_le_length hb
  exact ⟨by rw [e]; exact h.bytes, by rw [e]; exact h.word, h.sink⟩

/-- The relations do not see the registers outside the write buffer. -/
theorem Wrote.congr {bits : List Bool} {m m' : Nat} {s t u : State} (h : Wrote bits m m' s t)
    (hw : u.enc.wacc = t.enc.wacc) (hx : u.enc.widx = t.enc.widx) (hp : u.ports = t.ports) :
    Wrote bits m m' s u := by
  simpa using h.trans (.nil h.refuses h.clean hw hx hp)

/-! ### One word -/

theorem take_flatMap_byteBits (k : Nat) (bs : List Byte) :
    (bs.take k).flatMap byteBits = (bs.flatMap byteBits).take (8 * k) := by
  induction bs generalizing k with
  | nil => simp
  | cons b bs ih =>
    cases k with
    | zero => simp
    | succ k =>
      rw [List.take_succ_cons, List.flatMap_cons, List.flatMap_cons, ih, List.take_append (l₁ := byteBits b),
        length_byteBits, List.take_of_length_le (l := byteBits b) (by rw [length_byteBits]; omega)]
      congr 2

theorem filterMap_accepted (bs : List Byte) :
    (bs.map fun b => Event.sinkPut b .ok).filterMap Event.accepted = bs := by
  induction bs with
  | nil => rfl
  | cons b bs ih => rw [List.map_cons, List.filterMap_cons, ih]; rfl

/-- PutWord of a word that holds the refused byte raises with the bytes before it in the sink (40_bitpacker.md
R122); `s` is the state before the word's last bits. -/
theorem putWord_refused {w : Word32} {m : Nat} {s u : State} {bits : List Bool} (hp : u.ports = s.ports)
    (hr : RefusesByte s m) (hm : m < 4)
    (hb : waitingBits s.enc ++ bits.take (bitsBefore s m + 1) = wordBits w) (hw : u.enc.wacc = w) :
    ∃ t, putWord w u = .raise .ioSink t ∧ Stopped bits m s t ∧ t.enc = u.enc := by
  have hk : m < (beBytes 4 w.toNat).length := by rw [length_beBytes]; exact hm
  refine ⟨_, sinkPutAll_err (beBytes 4 w.toNat) u m hk (by rw [hp]; exact hr.1) (by rw [hp]; exact hr.2),
    ⟨?_, ?_, by rw [hp]⟩, rfl⟩
  · have hs : ({ u with ports := { u.ports with
        sink := u.ports.sink.drop (m + 1)
        trace := u.ports.trace ++ ((beBytes 4 w.toNat).take m).map (fun b => .sinkPut b .ok) ++
          [.sinkPut (beBytes 4 w.toNat)[m] .err] } } : State).sinkBytes =
        s.sinkBytes ++ (beBytes 4 w.toNat).take m := by
      rw [hp]
      show List.filterMap Event.accepted (_ ++ _ ++ _) = _
      rw [List.filterMap_append, List.filterMap_append, filterMap_accepted]
      exact List.append_nil _
    rw [hs, writtenBits, List.append_assoc, hb, List.flatMap_append, take_flatMap_byteBits, byteBits_beBytes_four,
      List.take_append (l₁ := s.sinkBytes.flatMap byteBits), length_flatMap_byteBits,
      List.take_of_length_le (l := s.sinkBytes.flatMap byteBits) (by rw [length_flatMap_byteBits]; omega),
      show 8 * (s.sinkBytes.length + m) - 8 * s.sinkBytes.length = 8 * m by omega]
    rfl
  · have e : writtenBits s ++ bits.take (bitsBefore s m + 1) = s.sinkBytes.flatMap byteBits ++ wordBits w := by
      rw [writtenBits, List.append_assoc, hb]
    rw [e, show m / 4 = 0 by omega, Nat.mul_zero, Nat.add_zero,
      List.drop_append (l₁ := s.sinkBytes.flatMap byteBits), length_flatMap_byteBits,
      List.drop_of_length_le (l := s.sinkBytes.flatMap byteBits) (by rw [length_flatMap_byteBits]; omega)]
    simp [hw]

/-- The sink takes a word that does not hold the refused byte. -/
theorem putWord_taken (w : Word32) {m : Nat} {s : State} (hr : RefusesByte s m) (hm : 4 ≤ m) :
    putWord w s = .ok () (withSinkBytes s (beBytes 4 w.toNat)) := by
  refine sinkPutAll_ok _ s fun a ha => hr.1 a ?_
  rw [length_beBytes] at ha
  exact List.take_subset_take_left _ hm ha

/-- Four bytes taken, the buffer emptied: the bits of that word were written. -/
theorem Wrote.word {w : Word32} {m : Nat} {s t : State} {bits : List Bool} (hr : RefusesByte s m) (hm : 4 ≤ m)
    (hb : waitingBits s.enc ++ bits = wordBits w)
    (ht : t.ports = (withSinkBytes s (beBytes 4 w.toNat)).ports) (ha : t.enc.wacc = 0#32)
    (hx : t.enc.widx = 31#5) : Wrote bits m (m - 4) s t := by
  have hsb : t.sinkBytes = s.sinkBytes ++ beBytes 4 w.toNat := by
    rw [State.sinkBytes, ht]; exact sinkBytes_withSinkBytes s _
  have hsk : t.ports.sink = s.ports.sink.drop 4 := by
    rw [ht]; show s.ports.sink.drop _ = _; rw [length_beBytes]
  refine ⟨⟨fun a h => ?_, ?_⟩, ?_, ?_, by omega, by rw [hsb, List.length_append, length_beBytes]; omega, by omega,
    by rw [hsk]; congr 1; omega⟩
  · rw [hsk, List.take_drop, show 4 + (m - 4) = m by omega] at h
    exact hr.1 a (List.mem_of_mem_drop h)
  · rw [hsk, List.getElem?_drop, show 4 + (m - 4) = m by omega]; exact hr.2
  · rw [WriteSideClean, ha]; simp
  · have e : writtenBits s ++ bits = s.sinkBytes.flatMap byteBits ++ wordBits w := by
      rw [writtenBits, List.append_assoc, hb]
    rw [e, writtenBits, waitingBits, hx, hsb, List.flatMap_append, byteBits_beBytes_four, wordBits]
    simp

/-- WriteBit before the bit that fills the refused byte's word completes (40_bitpacker.md R121). -/
theorem writeBit_taken (b : Bool) {m : Nat} {s : State} (hr : RefusesByte s m) (hc : WriteSideClean s.enc)
    (h : 0 < bitsBefore s m) : ∃ t m', writeBit b s = .ok () t ∧ Wrote [b] m m' s t := by
  by_cases h0 : s.enc.widx = 0#5
  · have hm : 4 ≤ m := by
      rw [bitsBefore, h0] at h; simp at h; omega
    refine ⟨(withSinkBytes s (beBytes 4 (withBit b s.enc.wacc s.enc.widx).toNat)).setWriteBuffer 0#32 31#5, m - 4,
      ?_, .word (w := withBit b s.enc.wacc s.enc.widx) hr hm (wordBits_withBit b hc h0).symm rfl rfl rfl⟩
    unfold writeBit
    dsimp only
    have hr' : RefusesByte (s.setWriteBuffer (withBit b s.enc.wacc s.enc.widx) 0#5) m := hr
    rw [if_pos h0, putWord_taken _ hr' hm]
    rfl
  · obtain ⟨h1, h2⟩ := waitingBits_writeBit b s.enc hc h0
    refine ⟨s.setWriteBuffer (withBit b s.enc.wacc s.enc.widx) (s.enc.widx - 1#5), m,
      by rw [writeBit, if_neg h0], hr, h2, ?_, le_rfl, rfl, rfl, by simp⟩
    show s.sinkBytes.flatMap byteBits ++ waitingBits _ = _
    rw [State.setWriteBuffer_enc, h1, writtenBits, List.append_assoc]

/-- WriteBit of the bit that fills the refused byte's word raises (40_bitpacker.md R121). -/
theorem writeBit_refused (b : Bool) {m : Nat} {s : State} (hr : RefusesByte s m) (hc : WriteSideClean s.enc)
    (h : bitsBefore s m = 0) :
    ∃ t, writeBit b s = .raise .ioSink t ∧ Stopped [b] m s t ∧ t.enc.widx = 0#5 ∧ t.enc.pend = s.enc.pend := by
  have hm : m < 4 := by rw [bitsBefore] at h; omega
  have h0 : s.enc.widx = 0#5 := BitVec.eq_of_toNat_eq (by rw [bitsBefore] at h; simp; omega)
  obtain ⟨t, ht, hs, he⟩ := putWord_refused (w := withBit b s.enc.wacc s.enc.widx) (bits := [b])
    (s := s) (u := s.setWriteBuffer (withBit b s.enc.wacc s.enc.widx) 0#5) rfl hr hm
    (by rw [h]; exact (wordBits_withBit b hc h0).symm) rfl
  refine ⟨t, ?_, hs, by rw [he]; rfl, by rw [he]; rfl⟩
  unfold writeBit
  dsimp only
  rw [if_pos h0, ht]; rfl

/-! ### Emit -/

theorem followBits_taken (b : Bool) (n : Nat) {m : Nat} {s : State} (hr : RefusesByte s m)
    (hc : WriteSideClean s.enc) (h : n ≤ bitsBefore s m) :
    ∃ t m', followBits b n s = .ok () t ∧ Wrote (List.replicate n b) m m' s t := by
  induction n generalizing m s with
  | zero => exact ⟨s, m, rfl, .nil hr hc rfl rfl rfl⟩
  | succ n ih =>
    obtain ⟨u, m₁, hu, hw⟩ := writeBit_taken b hr hc (by omega)
    have hroom := hw.room
    rw [List.length_singleton] at hroom
    obtain ⟨t, m₂, ht, hwt⟩ := ih (s := u.setPend (u.enc.pend - 1#64)) hw.refuses hw.clean
      (show n ≤ bitsBefore u m₁ by omega)
    exact ⟨t, m₂, by rw [followBits, hu]; exact ht,
      (hw.congr (u := u.setPend (u.enc.pend - 1#64)) rfl rfl rfl).trans hwt⟩

/-- The follow bits when the sink refuses the word one of them fills (43_encoder.md R191; 60_exceptions.md R251):
ENC_PEND has counted the bits before it. -/
theorem followBits_refused (b : Bool) (n : Nat) {m : Nat} {s : State} (hr : RefusesByte s m)
    (hc : WriteSideClean s.enc) (hn : n ≤ s.enc.pend.toNat) (h : bitsBefore s m < n) :
    ∃ t, followBits b n s = .raise .ioSink t ∧ Stopped (List.replicate n b) m s t ∧ t.enc.widx = 0#5 ∧
      t.enc.pend.toNat = s.enc.pend.toNat - bitsBefore s m := by
  induction n generalizing m s with
  | zero => omega
  | succ n ih =>
    by_cases h0 : bitsBefore s m = 0
    · obtain ⟨t, ht, hs, hx, hp⟩ := writeBit_refused b hr hc h0
      exact ⟨t, by rw [followBits, ht]; rfl, hs.append (List.replicate n b) (by simp [h0]), hx, by rw [hp, h0]; rfl⟩
    · obtain ⟨u, m₁, hu, hw⟩ := writeBit_taken b hr hc (by omega)
      have hroom := hw.room
      rw [List.length_singleton] at hroom
      have hpu : u.enc.pend = s.enc.pend := by
        have := writeBit_all b s
        rw [hu, Res.all_ok] at this
        exact this.pend
      have hpd : (u.enc.pend - 1#64).toNat = s.enc.pend.toNat - 1 := by rw [hpu]; bv_omega
      obtain ⟨t, ht, hs, hx, hp⟩ := ih (s := u.setPend (u.enc.pend - 1#64)) hw.refuses hw.clean
        (by rw [State.setPend_enc, hpd]; omega) (show bitsBefore u m₁ < n by omega)
      refine ⟨t, by rw [followBits, hu]; exact ht,
        (hw.congr (u := u.setPend (u.enc.pend - 1#64)) rfl rfl rfl).stopped hs, hx, ?_⟩
      rw [hp, State.setPend_enc, hpd]
      show _ - bitsBefore u m₁ = _
      omega

theorem length_resolvedBits (k : Nat) (b : Bool) : (resolvedBits k b).length = k + 1 := by simp [resolvedBits]

theorem emit_taken (b : Bool) {m : Nat} {s : State} (hr : RefusesByte s m) (hc : WriteSideClean s.enc)
    (h : s.enc.pend.toNat < bitsBefore s m) :
    ∃ t m', emit b s = .ok () t ∧ Wrote (resolvedBits s.enc.pend.toNat b) m m' s t := by
  obtain ⟨u, m₁, hu, hw⟩ := writeBit_taken b hr hc (by omega)
  have hroom := hw.room
  rw [List.length_singleton] at hroom
  have hpu : u.enc.pend = s.enc.pend := by
    have := writeBit_all b s
    rw [hu, Res.all_ok] at this
    exact this.pend
  obtain ⟨t, m₂, ht, hwt⟩ := followBits_taken (!b) u.enc.pend.toNat hw.refuses hw.clean (by rw [hpu]; omega)
  rw [hpu] at hwt
  exact ⟨t, m₂, by rw [emit, hu]; exact ht, hw.trans hwt⟩

/-- Emit when the sink refuses the word one of its bits fills (43_encoder.md R191; 60_exceptions.md R251). -/
theorem emit_refused (b : Bool) {m : Nat} {s : State} (hr : RefusesByte s m) (hc : WriteSideClean s.enc)
    (h : bitsBefore s m ≤ s.enc.pend.toNat) :
    ∃ t, emit b s = .raise .ioSink t ∧ Stopped (resolvedBits s.enc.pend.toNat b) m s t ∧ t.enc.widx = 0#5 ∧
      t.enc.pend.toNat = s.enc.pend.toNat - (bitsBefore s m - 1) := by
  by_cases h0 : bitsBefore s m = 0
  · obtain ⟨t, ht, hs, hx, hp⟩ := writeBit_refused b hr hc h0
    exact ⟨t, by rw [emit, ht]; rfl, hs.append _ (by simp [h0]), hx, by rw [hp, h0]; rfl⟩
  · obtain ⟨u, m₁, hu, hw⟩ := writeBit_taken b hr hc (by omega)
    have hroom := hw.room
    rw [List.length_singleton] at hroom
    have hpu : u.enc.pend = s.enc.pend := by
      have := writeBit_all b s
      rw [hu, Res.all_ok] at this
      exact this.pend
    obtain ⟨t, ht, hs, hx, hp⟩ := followBits_refused (!b) u.enc.pend.toNat hw.refuses hw.clean le_rfl
      (by rw [hpu]; omega)
    refine ⟨t, by rw [emit, hu]; exact ht, ?_, hx, by rw [hp, hpu]; omega⟩
    rw [hpu] at hs
    exact hw.stopped hs

theorem emitAll_taken (b : Bool) (bs : List Bool) {m : Nat} {s : State} (hr : RefusesByte s m)
    (hc : WriteSideClean s.enc) (h : bs.length + s.enc.pend.toNat < bitsBefore s m) :
    ∃ t m', emitAll (b :: bs) s = .ok () t ∧ Wrote (resolvedBits s.enc.pend.toNat b ++ bs) m m' s t := by
  induction bs generalizing b m s with
  | nil =>
    obtain ⟨t, m', ht, hw⟩ := emit_taken b hr hc (by omega)
    exact ⟨t, m', by rw [emitAll, ht]; rfl, by rw [List.append_nil]; exact hw⟩
  | cons c bs ih =>
    obtain ⟨u, m₁, hu, hw⟩ := emit_taken b hr hc (by omega)
    have hroom := hw.room
    rw [length_resolvedBits] at hroom
    have hp := emit_pend hu
    rw [List.length_cons] at h
    obtain ⟨t, m₂, ht, hwt⟩ := ih c hw.refuses hw.clean (by rw [hp]; simp; omega)
    refine ⟨t, m₂, by rw [emitAll, hu]; exact ht, ?_⟩
    rw [hp] at hwt
    exact hw.trans hwt

/-- Emit for a list of bits when the sink refuses the word one of them fills. -/
theorem emitAll_refused (b : Bool) (bs : List Bool) {m : Nat} {s : State} (hr : RefusesByte s m)
    (hc : WriteSideClean s.enc) (h : bitsBefore s m ≤ bs.length + s.enc.pend.toNat) :
    ∃ t, emitAll (b :: bs) s = .raise .ioSink t ∧ Stopped (resolvedBits s.enc.pend.toNat b ++ bs) m s t ∧
      t.enc.widx = 0#5 ∧ t.enc.pend.toNat = s.enc.pend.toNat - (bitsBefore s m - 1) := by
  by_cases h0 : bitsBefore s m ≤ s.enc.pend.toNat
  · obtain ⟨t, ht, hs, hx, hp⟩ := emit_refused b hr hc h0
    exact ⟨t, by rw [emitAll, ht]; rfl, hs.append bs (by rw [length_resolvedBits]; omega), hx, hp⟩
  · induction bs generalizing b m s with
    | nil => simp only [List.length_nil] at h; omega
    | cons c bs ih =>
      obtain ⟨u, m₁, hu, hw⟩ := emit_taken b hr hc (by omega)
      have hroom := hw.room
      rw [length_resolvedBits] at hroom
      have hp := emit_pend hu
      rw [List.length_cons] at h
      by_cases h1 : bitsBefore u m₁ = 0
      · obtain ⟨t, ht, hs, hx, hpt⟩ := emit_refused c hw.refuses hw.clean (by omega)
        rw [hp] at hs hpt
        refine ⟨t, by rw [emitAll, hu, Res.ok_andThen, emitAll, ht]; rfl,
          hw.stopped (hs.append bs (by simp [h1, resolvedBits])), hx, ?_⟩
        rw [hpt]; simp; omega
      · obtain ⟨t, ht, hs, hx, hpt⟩ := ih c hw.refuses hw.clean (by omega) (by rw [hp]; simp; omega)
        rw [hp] at hs hpt
        refine ⟨t, by rw [emitAll, hu]; exact ht, hw.stopped hs, hx, ?_⟩
        rw [hpt]; simp; omega

/-! ### The renormalisation loop -/

theorem emitCase_taken (c : IntervalCase) {m : Nat} {s : State} (hr : RefusesByte s m) (hc : WriteSideClean s.enc)
    (hp : c = .e3 → s.enc.pend.toNat < 2 ^ 64 - 1)
    (h : (passBits [c] s.enc.pend.toNat).1.length ≤ bitsBefore s m) :
    ∃ t m', emitCase c s = .ok () t ∧ Wrote (passBits [c] s.enc.pend.toNat).1 m m' s t := by
  cases c with
  | e1 =>
    simp only [passBits, List.append_nil, length_resolvedBits] at h ⊢
    exact emit_taken false hr hc h
  | e2 =>
    simp only [passBits, List.append_nil, length_resolvedBits] at h ⊢
    exact emit_taken true hr hc h
  | e3 =>
    have := hp rfl
    refine ⟨s.setPend (s.enc.pend + 1#64), m,
      by rw [emitCase, addPending, if_neg (by simp only [Config.counterMax]; omega)], ?_⟩
    exact .nil hr hc rfl rfl rfl

theorem emitCase_refused (c : IntervalCase) {m : Nat} {s : State} (hr : RefusesByte s m)
    (hc : WriteSideClean s.enc) (h : bitsBefore s m < (passBits [c] s.enc.pend.toNat).1.length) :
    ∃ t, emitCase c s = .raise .ioSink t ∧ Stopped (passBits [c] s.enc.pend.toNat).1 m s t ∧ c ≠ .e3 ∧
      bitsBefore s m ≤ s.enc.pend.toNat ∧ t.enc.widx = 0#5 ∧
      t.enc.pend.toNat = s.enc.pend.toNat - (bitsBefore s m - 1) := by
  cases c with
  | e1 =>
    simp only [passBits, List.append_nil, length_resolvedBits] at h ⊢
    obtain ⟨t, ht, hs, hx, hp⟩ := emit_refused false hr hc (by omega)
    exact ⟨t, ht, hs, by simp, by omega, hx, hp⟩
  | e2 =>
    simp only [passBits, List.append_nil, length_resolvedBits] at h ⊢
    obtain ⟨t, ht, hs, hx, hp⟩ := emit_refused true hr hc (by omega)
    exact ⟨t, ht, hs, by simp, by omega, hx, hp⟩
  | e3 => simp [passBits] at h

/-- A pass that completes, with a sink that refuses byte m later on (43_encoder.md R192). -/
theorem encPass_taken {m : Nat} {s : State} (hr : RefusesByte s m) (hc : WriteSideClean s.enc)
    (hp : caseOf s.enc.lower.toNat s.enc.range.toNat = .e3 → s.enc.pend.toNat < 2 ^ 64 - 1)
    (h : (passBits [caseOf s.enc.lower.toNat s.enc.range.toNat] s.enc.pend.toNat).1.length ≤ bitsBefore s m) :
    ∃ t m', encPass s = .ok () t ∧
      Wrote (passBits [caseOf s.enc.lower.toNat s.enc.range.toNat] s.enc.pend.toNat).1 m m' s t := by
  obtain ⟨v, m', hv, hw⟩ := emitCase_taken _ hr hc hp h
  exact ⟨v.setEncInterval (rescaleLower (caseOf s.enc.lower.toNat s.enc.range.toNat) v.enc.lower)
    (rescaleRange v.enc.range), m', by rw [encPass, classify_eq_caseOf, hv]; rfl, hw.congr rfl rfl rfl⟩

/-- The loop completes, with a sink that refuses a byte of no word it fills (43_encoder.md R192). -/
theorem encLoop_taken {n m : Nat} {s : State} (hn : n ≤ 31) (hi : IntervalOk s.enc.lower s.enc.range)
    (hc : WriteSideClean s.enc) (hr : RefusesByte s m)
    (hp : s.enc.pend.toNat +
      ((renorm n s.enc.lower.toNat s.enc.range.toNat).1.takeWhile (· == .e3)).length < 2 ^ 64)
    (h : (passBits (renorm n s.enc.lower.toNat s.enc.range.toNat).1 s.enc.pend.toNat).1.length ≤ bitsBefore s m) :
    ∃ t m', encLoop n s = .ok () t ∧
      Wrote (passBits (renorm n s.enc.lower.toNat s.enc.range.toNat).1 s.enc.pend.toNat).1 m m' s t := by
  induction n generalizing m s with
  | zero => exact ⟨s, m, rfl, .nil hr hc rfl rfl rfl⟩
  | succ n ih =>
    by_cases hq : needsPass s.enc.range = true
    · have hq' := (needsPass_iff _).1 hq
      rw [renorm_succ_of_le hq'] at hp h ⊢
      rw [passBits_cons (caseOf _ _) (renorm n _ _).1] at h ⊢
      rw [List.length_append] at h
      have hl := renorm_length_le n
        (2 * (s.enc.lower.toNat - offsetValue (caseOf s.enc.lower.toNat s.enc.range.toNat)))
        (2 * s.enc.range.toNat)
      obtain ⟨f1, f2⟩ := leadingE3_cons (by omega) hp
      obtain ⟨u, m₁, hu, hw⟩ := encPass_taken hr hc f1 (by omega)
      obtain ⟨a1, a2, a3, _⟩ := encPass_ok hq' hi hu
      have hps := encPass_all s hq
      rw [hu, Res.all_ok] at hps
      have hroom := hw.room
      rw [← a1, ← a2, ← a3] at f2 h ⊢
      obtain ⟨t, m₂, ht, hwt⟩ := ih (by omega) (hps.interval hi) hw.clean hw.refuses f2 (by omega)
      exact ⟨t, m₂, by rw [encLoop, if_pos hq, hu]; exact ht, hw.trans hwt⟩
    · have hq' : 2 ^ 30 < s.enc.range.toNat := by
        by_contra hc; exact hq ((needsPass_iff _).2 (by omega))
      rw [renorm_of_lt hq']
      exact ⟨s, m, by rw [encLoop, if_neg hq], .nil hr hc rfl rfl rfl⟩

/-- The loop when the sink refuses a byte of a word it fills (43_encoder.md R191, R192; 60_exceptions.md R251): the
pass in which it happens is `c`, after j of its bits; the interval is the one before that pass. -/
theorem encLoop_refused {n m : Nat} {s : State} (hn : n ≤ 31) (hi : IntervalOk s.enc.lower s.enc.range)
    (hc : WriteSideClean s.enc) (hr : RefusesByte s m)
    (hp : s.enc.pend.toNat +
      ((renorm n s.enc.lower.toNat s.enc.range.toNat).1.takeWhile (· == .e3)).length < 2 ^ 64)
    (h : bitsBefore s m < (passBits (renorm n s.enc.lower.toNat s.enc.range.toNat).1 s.enc.pend.toNat).1.length) :
    ∃ (t : State) (done : List IntervalCase) (c : IntervalCase) (left : List IntervalCase) (j : Nat),
      encLoop n s = .raise .ioSink t ∧
      (renorm n s.enc.lower.toNat s.enc.range.toNat).1 = done ++ c :: left ∧ c ≠ .e3 ∧
      bitsBefore s m = (passBits done s.enc.pend.toNat).1.length + j ∧ j ≤ (passBits done s.enc.pend.toNat).2 ∧
      (renorm done.length s.enc.lower.toNat s.enc.range.toNat).2 = (t.enc.lower.toNat, t.enc.range.toNat) ∧
      t.enc.pend.toNat = (passBits done s.enc.pend.toNat).2 - (j - 1) ∧ t.enc.widx = 0#5 ∧
      Stopped (passBits (renorm n s.enc.lower.toNat s.enc.range.toNat).1 s.enc.pend.toNat).1 m s t := by
  induction n generalizing m s with
  | zero => simp [renorm, passBits] at h
  | succ n ih =>
    by_cases hq : needsPass s.enc.range = true
    · have hq' := (needsPass_iff _).1 hq
      rw [renorm_succ_of_le hq'] at hp h ⊢
      rw [passBits_cons (caseOf _ _) (renorm n _ _).1] at h ⊢
      rw [List.length_append] at h
      have hl := renorm_length_le n
        (2 * (s.enc.lower.toNat - offsetValue (caseOf s.enc.lower.toNat s.enc.range.toNat)))
        (2 * s.enc.range.toNat)
      obtain ⟨f1, f2⟩ := leadingE3_cons (by omega) hp
      by_cases hb : bitsBefore s m <
          (passBits [caseOf s.enc.lower.toNat s.enc.range.toNat] s.enc.pend.toNat).1.length
      · obtain ⟨t, ht, hs, hne, hj, hx, hpt⟩ := emitCase_refused _ hr hc hb
        have hall := emitCase_all (caseOf s.enc.lower.toNat s.enc.range.toNat) s
        rw [ht, Res.all_raise] at hall
        refine ⟨t, [], _, _, bitsBefore s m, ?_, rfl, hne, by simp [passBits], hj, ?_, hpt, hx, hs.append _ hb⟩
        · rw [encLoop, if_pos hq, encPass, classify_eq_caseOf, ht]; rfl
        · rw [hall.1.lower, hall.1.range]; rfl
      · obtain ⟨u, m₁, hu, hw⟩ := encPass_taken hr hc f1 (by omega)
        obtain ⟨a1, a2, a3, _⟩ := encPass_ok hq' hi hu
        have hps := encPass_all s hq
        rw [hu, Res.all_ok] at hps
        have hroom := hw.room
        rw [← a1, ← a2, ← a3] at f2 h ⊢
        obtain ⟨t, done, c, left, j, ht, hcs, hne, hbb, hj, hrn, hpt, hx, hs⟩ :=
          ih (by omega) (hps.interval hi) hw.clean hw.refuses f2 (by omega)
        refine ⟨t, caseOf s.enc.lower.toNat s.enc.range.toNat :: done, c, left, j, ?_, by rw [hcs]; rfl, hne, ?_,
          ?_, ?_, ?_, hx, hw.stopped hs⟩
        · rw [encLoop, if_pos hq, hu]; exact ht
        · rw [passBits_cons _ done, List.length_append, ← a3]; omega
        · rw [passBits_cons _ done, ← a3]; exact hj
        · rw [List.length_cons, renorm_succ_of_le hq', ← a1, ← a2]; exact hrn
        · rw [passBits_cons _ done, ← a3]; exact hpt
    · have hq' : 2 ^ 30 < s.enc.range.toNat := by
        by_contra hc; exact hq ((needsPass_iff _).2 (by omega))
      rw [renorm_of_lt hq'] at h
      simp [passBits] at h

/-! ### Flush -/

theorem flush_taken {m : Nat} {s : State} (hr : RefusesByte s m) (hc : WriteSideClean s.enc)
    (hw : s.enc.widx.toNat < 31) (h : s.enc.widx.toNat < bitsBefore s m) :
    ∃ t m', flush s = .ok () t ∧ Wrote (List.replicate (s.enc.widx.toNat + 1) false) m m' s t := by
  have hm : 4 ≤ m := by rw [bitsBefore] at h; omega
  refine ⟨(withSinkBytes s (beBytes 4 s.enc.wacc.toNat)).setWriteBuffer 0#32 31#5, m - 4, ?_,
    .word (w := s.enc.wacc) hr hm (wordBits_wacc hc) rfl rfl rfl⟩
  rw [flush, if_pos hw, putWord_taken _ hr hm]
  rfl

/-- Flush when the sink refuses its word (40_bitpacker.md R123): WACC and WIDX kept. -/
theorem flush_refused {m : Nat} {s : State} (hr : RefusesByte s m) (hc : WriteSideClean s.enc)
    (hw : s.enc.widx.toNat < 31) (h : bitsBefore s m ≤ s.enc.widx.toNat) :
    ∃ t, flush s = .raise .ioSink t ∧ Stopped (List.replicate (s.enc.widx.toNat + 1) false) m s t ∧
      t.enc = s.enc := by
  have hm : m < 4 := by rw [bitsBefore] at h; omega
  obtain ⟨t, ht, hs, he⟩ := putWord_refused (w := s.enc.wacc) (u := s)
    (bits := List.replicate (s.enc.widx.toNat + 1) false) rfl hr hm
    (by rw [bitsBefore, show m / 4 = 0 by omega, List.take_of_length_le (by simp)]; exact wordBits_wacc hc) rfl
  exact ⟨t, by rw [flush, if_pos hw, ht]; rfl, hs, he⟩

/-! ### The fault -/

/-- Fault entry after the bits stopped (60_exceptions.md R256, R257). -/
theorem Stopped.atByte {bits : List Bool} {m : Nat} {s t : State} (h : Stopped bits m s t) (hf : t.ft = s.ft)
    (hd : t.dec = s.dec) (hp : SinkMoves s.ports t.ports) : StoppedAtByte s (faultEntry .ioSink t) bits m := by
  refine ⟨rfl, rfl, hf, hd, ?_, h.word, hp.host, hp.source, h.sink, ?_⟩
  · rw [faultEntry, respond_sinkBytes]; exact h.bytes
  · rw [faultEntry, respond_responses]; congr 1; exact hp.responses

end Sys2Proof.Machine
end

