-- ==== Sys2Proof/Laws/Trace.lean ====
section
/-! SUPPORT. The trace is only written: every operation does the same on a state whose trace has something in front
(45_system.md R230; log 2). -/

namespace Sys2Proof.Machine

/-- `s` with `before` in front of its trace. -/
def State.after (before : List Event) (s : State) : State :=
  { s with ports := { s.ports with trace := before ++ s.ports.trace } }

/-- The outcome with `before` in front of the trace of its state. -/
def Res.after {α : Type} (before : List Event) : Res α → Res α
  | .ok a s => .ok a (s.after before)
  | .raise c s => .raise c (s.after before)
  | .stuck e => .stuck e

@[simp] theorem Res.after_ok {α : Type} (b : List Event) (a : α) (s : State) :
    (Res.ok a s).after b = .ok a (s.after b) := rfl

@[simp] theorem Res.after_raise {α : Type} (b : List Event) (c : Cause) (s : State) :
    (Res.raise c s : Res α).after b = .raise c (s.after b) := rfl

@[simp] theorem Res.after_stuck {α : Type} (b : List Event) (e : Fault) :
    (Res.stuck e : Res α).after b = .stuck e := rfl

theorem Res.andThen_after {α β : Type} {b : List Event} {r r' : Res α} {f f' : α → State → Res β}
    (hr : r' = r.after b) (hf : ∀ a s, f' a (s.after b) = (f a s).after b) :
    r'.andThen f' = (r.andThen f).after b := by
  subst hr
  cases r with
  | ok a s => exact hf a s
  | raise c s => rfl
  | stuck e => rfl

section
variable (b : List Event)

@[simp] theorem after_phase (s : State) : (s.after b).phase = s.phase := rfl
@[simp] theorem after_fcause (s : State) : (s.after b).fcause = s.fcause := rfl
@[simp] theorem after_ft (s : State) : (s.after b).ft = s.ft := rfl
@[simp] theorem after_enc (s : State) : (s.after b).enc = s.enc := rfl
@[simp] theorem after_dec (s : State) : (s.after b).dec = s.dec := rfl

theorem record_after (e : Event) (s : State) : (s.after b).record e = (s.record e).after b := by
  simp [State.record, State.after]

theorem srcGet_after (s : State) : srcGet (s.after b) = (srcGet s).after b := by
  have h : (s.after b).sourceAnswer = s.sourceAnswer := rfl
  unfold srcGet
  rw [h]
  split <;> simp only [Res.after_ok, Res.after_raise, Res.after_stuck, ← record_after] <;> rfl

theorem sinkPut_after (x : Byte) (s : State) : sinkPut x (s.after b) = (sinkPut x s).after b := by
  have h : (s.after b).sinkAnswer = s.sinkAnswer := rfl
  unfold sinkPut
  rw [h]
  split <;> simp only [Res.after_ok, Res.after_raise, Res.after_stuck, ← record_after] <;> rfl

theorem sinkPutAll_after (xs : List Byte) (s : State) :
    sinkPutAll xs (s.after b) = (sinkPutAll xs s).after b := by
  induction xs generalizing s with
  | nil => rfl
  | cons x xs ih => exact Res.andThen_after (sinkPut_after b x s) fun _ t => ih t

theorem getUIntFrom_after (n acc : Nat) (s : State) :
    getUIntFrom n acc (s.after b) = (getUIntFrom n acc s).after b := by
  induction n generalizing acc s with
  | zero => rfl
  | succ n ih =>
    refine Res.andThen_after (srcGet_after b s) fun a t => ?_
    cases a with
    | none => rfl
    | some x => exact ih _ t

theorem writeBit_after (x : Bool) (s : State) : writeBit x (s.after b) = (writeBit x s).after b := by
  by_cases h : s.enc.widx = 0#5
  · simp only [writeBit, after_enc, h, if_true]
    exact Res.andThen_after (sinkPutAll_after b _ (s.setWriteBuffer _ _)) fun _ t => rfl
  · simp only [writeBit, after_enc, h, if_false]
    rfl

theorem flush_after (s : State) : flush (s.after b) = (flush s).after b := by
  unfold flush
  rw [after_enc]
  split
  · exact Res.andThen_after (sinkPutAll_after b _ s) fun _ t => rfl
  · rfl

theorem getBytePadded_after (s : State) : getBytePadded (s.after b) = (getBytePadded s).after b := by
  unfold getBytePadded
  rw [after_dec]
  split
  · rfl
  · refine Res.andThen_after (srcGet_after b s) fun a t => ?_
    cases a <;> rfl

theorem getWordFrom_after (n : Nat) (w : Word32) (s : State) :
    getWordFrom n w (s.after b) = (getWordFrom n w s).after b := by
  induction n generalizing w s with
  | zero => rfl
  | succ n ih => exact Res.andThen_after (getBytePadded_after b s) fun _ t => ih _ t

theorem readBit_after (s : State) : readBit (s.after b) = (readBit s).after b := by
  refine Res.andThen_after ?_ fun _ t => rfl
  unfold refill
  rw [after_dec]
  split
  · exact Res.andThen_after (getWordFrom_after b 4 _ s) fun _ t => rfl
  · rfl

theorem followBits_after (x : Bool) (n : Nat) (s : State) :
    followBits x n (s.after b) = (followBits x n s).after b := by
  induction n generalizing s with
  | zero => rfl
  | succ n ih => exact Res.andThen_after (writeBit_after b x s) fun _ t => ih (t.setPend _)

theorem emit_after (x : Bool) (s : State) : emit x (s.after b) = (emit x s).after b :=
  Res.andThen_after (writeBit_after b x s) fun _ t => followBits_after b _ _ t

theorem emitAll_after (xs : List Bool) (s : State) : emitAll xs (s.after b) = (emitAll xs s).after b := by
  induction xs generalizing s with
  | nil => rfl
  | cons x xs ih => exact Res.andThen_after (emit_after b x s) fun _ t => ih t

theorem emitCase_after (c : IntervalCase) (s : State) :
    emitCase c (s.after b) = (emitCase c s).after b := by
  cases c with
  | e1 => exact emit_after b _ s
  | e2 => exact emit_after b _ s
  | e3 =>
    by_cases h : s.enc.pend.toNat = Config.counterMax
    · simp only [emitCase, addPending, after_enc, h, if_true]; rfl
    · simp only [emitCase, addPending, after_enc, h, if_false]; rfl

theorem encLoop_after (n : Nat) (s : State) : encLoop n (s.after b) = (encLoop n s).after b := by
  induction n generalizing s with
  | zero => rfl
  | succ n ih =>
    rw [encLoop, encLoop, after_enc]
    split
    · exact Res.andThen_after (Res.andThen_after (emitCase_after b _ s) fun _ t => rfl) fun _ t => ih t
    · rfl

theorem decLoop_after (n : Nat) (s : State) : decLoop n (s.after b) = (decLoop n s).after b := by
  induction n generalizing s with
  | zero => rfl
  | succ n ih =>
    rw [decLoop, decLoop, after_dec]
    split
    · exact Res.andThen_after (Res.andThen_after (readBit_after b (s.setDecInterval _ _)) fun _ t => rfl)
        fun _ t => ih t
    · rfl

theorem encodeBody_after (sym : Byte) (s : State) : encodeBody sym (s.after b) = (encodeBody sym s).after b := by
  unfold encodeBody
  rw [after_ft]
  split
  · rfl
  · unfold encodeEntry
    rw [after_enc, after_ft]
    split
    · rfl
    · exact Res.andThen_after (encLoop_after b _ (s.setEncInterval _ _)) fun _ t => rfl

theorem finishBody_after (s : State) : finishBody (s.after b) = (finishBody s).after b :=
  Res.andThen_after (emitAll_after b _ s) fun _ t => Res.andThen_after (flush_after b t) fun _ _ => rfl

theorem decInitBody_after (s : State) : decInitBody (s.after b) = (decInitBody s).after b :=
  Res.andThen_after (getWordFrom_after b 4 _ (startDecoder s)) fun _ _ => rfl

theorem decodeBody_after (s : State) : decodeBody (s.after b) = (decodeBody s).after b := by
  unfold decodeBody
  rw [show selectEntry (s.after b) = selectEntry s from rfl]
  split
  · rfl
  · unfold decodeEntry
    rw [after_dec, after_ft]
    split
    · rfl
    · exact Res.andThen_after (decLoop_after b _ (s.setDecInterval _ _)) fun _ t =>
        Res.andThen_after (sinkPut_after b _ t) fun _ _ => rfl

theorem putEntries_after (es : List TabEntry) (s : State) :
    putEntries es (s.after b) = (putEntries es s).after b := by
  induction es generalizing s with
  | nil => rfl
  | cons e es ih => exact Res.andThen_after (sinkPutAll_after b _ s) fun _ t => ih t

theorem serialiseBody_after (s : State) : serialiseBody (s.after b) = (serialiseBody s).after b :=
  Res.andThen_after (sinkPutAll_after b _ s) fun _ t =>
    Res.andThen_after (sinkPutAll_after b _ t) fun _ u =>
      Res.andThen_after (putEntries_after b _ u) fun _ _ => rfl

theorem loadPairs_after (n i acc total : Nat) (s : State) :
    loadPairs n i acc total (s.after b) = (loadPairs n i acc total s).after b := by
  induction n generalizing i acc s with
  | zero => rfl
  | succ n ih =>
    refine Res.andThen_after (getUIntFrom_after b 1 0 s) fun sym t => ?_
    refine Res.andThen_after (getUIntFrom_after b 8 0 t) fun c u => ?_
    refine Res.andThen_after ?_ fun acc' v => ih _ _ v
    unfold loadPair
    rw [after_ft]
    split
    · rfl
    split
    · rfl
    split <;> rfl

theorem deserialiseBody_after (s : State) : deserialiseBody (s.after b) = (deserialiseBody s).after b := by
  refine Res.andThen_after (getUIntFrom_after b 8 0 ((s.setSrcEos false).setTabValid false)) fun tot t => ?_
  refine Res.andThen_after (getUIntFrom_after b 2 0 (t.setTotal _)) fun n u => ?_
  split
  · rfl
  · refine Res.andThen_after (loadPairs_after b _ _ _ _ u) fun acc v => ?_
    split <;> rfl

end

end Sys2Proof.Machine
end

