-- ==== Sys2Proof/Tests/Slice0.lean ====
section
/-! SUPPORT. Tests. Expected values are those of spec/95_test_vectors.md (V and P numbers in the docstrings) and of
spec/30_encoding.md's encodings. Then one witness theorem per obligation that has hypotheses: a concrete state that
meets them, at boundary values. -/

namespace Sys2Proof.Tests

set_option Elab.async false

open Sys2Proof Sys2Proof.Machine

/-! ### Well-formedness (R95 (c)) -/

theorem test_rdsr_14_refused : (Instr.rdsr 14#8).wellFormed = false := by decide

theorem test_rdsr_13_accepted : (Instr.rdsr 13#8).wellFormed = true := by decide

/-! ### Decoding: one word of every row, opcode in [15:8] and operand in [7:0] (R92, R93) -/

theorem test_decode_reset : decode 0b0000_0001_0000_0000#16 = .ok .reset := rfl
theorem test_decode_rdsr : decode 0b0000_0010_0000_1101#16 = .ok (.rdsr 13#8) := rfl
theorem test_decode_ft_clear : decode 0b0001_0000_0000_0000#16 = .ok .ftClear := rfl
theorem test_decode_ft_count : decode 0b0001_0001_0110_0001#16 = .ok (.ftCount 0x61#8) := rfl
theorem test_decode_ft_build : decode 0b0001_0010_0000_0000#16 = .ok .ftBuild := rfl
theorem test_decode_ft_ser : decode 0b0001_0011_0000_0000#16 = .ok .ftSer := rfl
theorem test_decode_ft_des : decode 0b0001_0100_0000_0000#16 = .ok .ftDes := rfl
theorem test_decode_enc_init : decode 0b0010_0000_0000_0000#16 = .ok .encInit := rfl
theorem test_decode_enc_sym : decode 0b0010_0001_0110_0010#16 = .ok (.encSym 0x62#8) := rfl
theorem test_decode_enc_fin : decode 0b0010_0010_0000_0000#16 = .ok .encFin := rfl
theorem test_decode_dec_init : decode 0b0011_0000_0000_0000#16 = .ok .decInit := rfl
theorem test_decode_dec_sym : decode 0b0011_0001_0000_0000#16 = .ok .decSym := rfl

/-- V71: the illegal words. -/
theorem test_decode_illegal_words :
    ([0x0000, 0x0101, 0x020E, 0x1001, 0x1201, 0x2001, 0x3101, 0x1500, 0x2300, 0x3200, 0xFFFF] : List CmdWord).map
      (fun w => (decode w).toOption) = List.replicate 11 none := by decide

/-- V71: their legal neighbours. -/
theorem test_decode_legal_neighbours :
    decode 0x11FF#16 = .ok (.ftCount 0xFF#8) ∧ decode 0x2100#16 = .ok (.encSym 0#8) := ⟨rfl, rfl⟩

theorem test_table_word : decodeTableWord 16 0x2162 = some (.encSym 0x62#8) ∧
    decodeTableWord 16 0x020E = none := by decide

/-! ### Small states -/

/-- Whether an outcome is a next state. -/
def isNext : Host.Outcome State Fault Refusal → Bool
  | .next _ => true
  | _ => false

/-- The next state of an outcome; the reset state, which has answered nothing, where there is none. -/
def nextOf : Host.Outcome State Fault Refusal → State
  | .next t => t
  | _ => State.reset

theorem eq_next {o : Host.Outcome State Fault Refusal} (h : isNext o = true) : o = .next (nextOf o) := by
  cases o <;> first | rfl | cases h

/-- The state after an instruction. -/
def after (i : Instr) (s : State) : State := nextOf (exec i s)

/-- n times 'a', then m times 'b', counted and built: a [0,n), b [n,n+m). -/
def twoSymbols (n m : Nat) : FreqTable :=
  { FreqTable.reset with
    cnt := (FreqTable.reset.cnt.set 0x61 (BitVec.ofNat 64 n)).set 0x62 (BitVec.ofNat 64 m)
    ord := (FreqTable.reset.ord.set 0 0x61#8).set 1 0x62#8
    nseen := 2#9
    total := BitVec.ofNat 64 (n + m)
    tabN := 2#9
    tab :=
      (FreqTable.reset.tab.set 0 ⟨0x61#8, BitVec.ofNat 64 n, 0#64, BitVec.ofNat 64 n⟩).set 1
        ⟨0x62#8, BitVec.ofNat 64 m, BitVec.ofNat 64 n, BitVec.ofNat 64 (n + m)⟩
    tabValid := true }

/-- The same symbols counted, with no table yet. -/
def twoCounted (n m : Nat) : FreqTable :=
  { twoSymbols n m with tabN := 0#9, tab := FreqTable.reset.tab, tabValid := false }

/-- The table of "cdabdcbadac" (V23): c [0,3), d [3,6), a [6,9), b [9,11). -/
def tableV47 : FreqTable :=
  { FreqTable.reset with
    total := 11#64
    tabN := 4#9
    tab :=
      (((FreqTable.reset.tab.set 0 ⟨0x63#8, 3#64, 0#64, 3#64⟩).set 1 ⟨0x64#8, 3#64, 3#64, 6#64⟩).set 2
        ⟨0x61#8, 3#64, 6#64, 9#64⟩).set 3 ⟨0x62#8, 2#64, 9#64, 11#64⟩
    tabValid := true }

/-- "hello" counted: h 1, e 1, l 2, o 1. -/
def helloCounted : FreqTable :=
  { FreqTable.reset with
    cnt := (((FreqTable.reset.cnt.set 0x68 1#64).set 0x65 1#64).set 0x6C 2#64).set 0x6F 1#64
    ord := (((FreqTable.reset.ord.set 0 0x68#8).set 1 0x65#8).set 2 0x6C#8).set 3 0x6F#8
    nseen := 4#9
    total := 5#64 }

/-- Reset, but for the phase and the frequency unit. -/
def inPhase (p : Phase) (f : FreqTable) : State := { State.reset with phase := p, ft := f }

/-- The same with these source answers and these sink answers scheduled. -/
def withPorts (source : List SrcAnswer) (sink : List SinkAnswer) (s : State) : State :=
  { s with ports := { s.ports with source := source, sink := sink } }

/-- The same with this word presented. -/
def withWord (w : CmdWord) (s : State) : State := { s with ports := { s.ports with host := [.word w] } }

/-- The same with this interval in the encoder, this many bits outstanding and symbols encoded. -/
def withEncoder (lower range : Word32) (pend count : Word64) (s : State) : State :=
  { s with enc := { s.enc with lower := lower, range := range, pend := pend, count := count } }

/-- The same with this interval and Value in the decoder. -/
def withDecoder (lower range value : Word32) (s : State) : State :=
  { s with dec := { s.dec with lower := lower, range := range, value := value } }

/-- FAULT with NO_CDF_MATCH (V63). -/
def faulted : State := { inPhase .fault (twoSymbols 1 1) with fcause := some .noCdfMatch }

/-- The header of "ab" (V30). -/
def headerAB : List Byte :=
  [0x00, 0x00, 0x00, 0x00, 0x00, 0x00, 0x00, 0x02, 0x00, 0x02,
   0x61, 0x00, 0x00, 0x00, 0x00, 0x00, 0x00, 0x00, 0x01,
   0x62, 0x00, 0x00, 0x00, 0x00, 0x00, 0x00, 0x00, 0x01]

/-- The source stream with these bytes left. -/
def bytesOf (bs : List Byte) : List SrcAnswer := bs.map .byte

/-! ### One step of every instruction -/

/-- V76: RESET in mid-session. -/
theorem test_reset_clears_the_counts :
    (after .reset (inPhase .counting (twoCounted 3 1))).ft.count 0x61#8 = 0#64 ∧
    (after .reset (inPhase .counting (twoCounted 3 1))).responses = [⟨.ok, 0#64⟩] := by decide +kernel

/-- P5: RDSR 0 in FAULT. -/
theorem test_rdsr_status_in_fault :
    (after (.rdsr 0#8) faulted).responses = [⟨.ok, 0x071F#64⟩] := by decide +kernel

/-- V70: SR7 after reset. -/
theorem test_rdsr_bit_buffer : (after (.rdsr 7#8) State.reset).responses = [⟨.ok, 0x1F00000000#64⟩] := by
  decide +kernel

/-- V20: FT_CLEAR, then SR0 = 0x01. -/
theorem test_ft_clear :
    statusRegister 0 (after .ftClear State.reset) = 0x01#64 ∧
    (after .ftClear State.reset).responses = [⟨.ok, 0#64⟩] := by decide +kernel

/-- V20: a symbol seen before is counted and not noted again. -/
theorem test_ft_count_again :
    (after (.ftCount 0x61#8) (inPhase .counting (twoCounted 1 0))).ft.count 0x61#8 = 2#64 ∧
    (after (.ftCount 0x61#8) (inPhase .counting (twoCounted 1 0))).ft.nseen = 2#9 ∧
    (after (.ftCount 0x61#8) (inPhase .counting (twoCounted 1 0))).ft.total = 2#64 := by decide +kernel

/-- V28: FT_COUNT at the counter limit. -/
theorem test_ft_count_overflow :
    (after (.ftCount 0x61#8) (inPhase .counting (twoCounted Config.counterMax 0))).responses =
      [⟨.faultFormat, 0x09#64⟩] ∧
    (after (.ftCount 0x61#8) (inPhase .counting (twoCounted Config.counterMax 0))).phase = .fault := by
  decide +kernel

/-- V21: "hello": l first, then the ties in first-seen order. -/
theorem test_ft_build_hello :
    (after .ftBuild (inPhase .counting helloCounted)).ft.entries =
      [⟨0x6C, 2, 0, 2⟩, ⟨0x68, 1, 2, 3⟩, ⟨0x65, 1, 3, 4⟩, ⟨0x6F, 1, 4, 5⟩] ∧
    statusRegister 0 (after .ftBuild (inPhase .counting helloCounted)) = 0x12#64 := by decide +kernel

/-- V30: the header of "ab". -/
theorem test_ft_ser_ab :
    (after .ftSer (inPhase .built (twoSymbols 1 1))).sinkBytes = headerAB ∧
    (after .ftSer (inPhase .built (twoSymbols 1 1))).phase = .hdrOut := by decide +kernel

/-- V89: the sink refuses the 13th byte. -/
theorem test_ft_ser_sink_error :
    statusRegister 0 (after .ftSer
      (withPorts [] (List.replicate 12 .ok ++ [.err]) (inPhase .built (twoSymbols 1 1)))) = 0x401F#64 ∧
    (after .ftSer (withPorts [] (List.replicate 12 .ok ++ [.err]) (inPhase .built (twoSymbols 1 1)))).sinkBytes =
      headerAB.take 12 := by decide +kernel

/-- P2: FT_DES loads the table and leaves the payload. -/
theorem test_ft_des_ab :
    (after .ftDes (withPorts (bytesOf (headerAB ++ [0x20])) [] State.reset)).ft.entries =
      [⟨0x61, 1, 0, 1⟩, ⟨0x62, 1, 1, 2⟩] ∧
    (after .ftDes (withPorts (bytesOf (headerAB ++ [0x20])) [] State.reset)).ports.source = [.byte 0x20] := by
  decide +kernel

/-- V85: a symbol twice. -/
theorem test_ft_des_duplicate :
    (after .ftDes (withPorts (bytesOf (headerAB.set 19 0x61)) [] State.reset)).responses =
      [⟨.faultFormat, 0x04#64⟩] ∧
    (after .ftDes (withPorts (bytesOf (headerAB.set 19 0x61)) [] State.reset)).ft.entry 0 = ⟨0x61, 1, 0, 1⟩ := by
  decide +kernel

/-- P1: ENC_INIT. -/
theorem test_enc_init :
    (after .encInit (withEncoder 5#32 6#32 7#64 8#64 (inPhase .hdrOut (twoSymbols 1 1)))).enc = Encoder.reset ∧
    (after .encInit (inPhase .hdrOut (twoSymbols 1 1))).phase = .encoding := by decide +kernel

/-- V31 symbol 8: three passes E1, E2, E3, the bits 0 and 1, one bit outstanding. -/
theorem test_enc_sym_three_passes :
    (after (.encSym 0x62#8) (withEncoder 0#32 0x63C64902#32 0#64 8#64 (inPhase .encoding (twoSymbols 8 1)))).enc =
      { lower := 0x45820728#32, range := 0x58B040E8#32, pend := 1#64, count := 9#64,
        wacc := 0x40000000#32, widx := 29#5 } := by decide +kernel

/-- V87: a symbol that is not in the table. -/
theorem test_enc_sym_unknown :
    (after (.encSym 0x63#8) (inPhase .encoding (twoSymbols 1 1))).responses = [⟨.faultFormat, 0x06#64⟩] ∧
    (after (.encSym 0x63#8) (inPhase .encoding (twoSymbols 1 1))).enc = Encoder.reset := by decide +kernel

/-- V49, row 6: m = 3 with two bits outstanding gives 1 00 1 000000. -/
theorem test_enc_fin_outstanding :
    (after .encFin (withEncoder 0xA0000000#32 0x50000000#32 2#64 2#64 (inPhase .encoding (twoSymbols 1 1)))).sinkBytes
      = [0x90, 0, 0, 0] := by decide +kernel

/-- P4: the empty input writes nothing. -/
theorem test_enc_fin_empty :
    (after .encFin (inPhase .encoding FreqTable.reset)).sinkBytes = [] ∧
    (after .encFin (inPhase .encoding FreqTable.reset)).phase = .idle := by decide +kernel

/-- V66: a one-byte payload is padded with zeros. -/
theorem test_dec_init_padded :
    (after .decInit (withPorts (bytesOf [0x20]) [] (inPhase .loaded (twoSymbols 1 1)))).dec =
      { lower := 0#32, range := 0x80000000#32, value := 0x20000000#32, count := 0#64, rbuf := 0#32, ridx := 31#5,
        srcEos := true } := by decide +kernel

/-- V67: the first bit after the payload word is read from the source. -/
theorem test_dec_sym_reads_on :
    (after .decSym (withPorts (bytesOf [0xFF, 0xFF, 0xFF, 0xFF]) []
      (withDecoder 0#32 0x80000000#32 0x20000000#32 (inPhase .decoding (twoSymbols 1 1))))).dec.value =
        0x40000001#32 ∧
    (after .decSym (withPorts (bytesOf [0xFF, 0xFF, 0xFF, 0xFF]) []
      (withDecoder 0#32 0x80000000#32 0x20000000#32 (inPhase .decoding (twoSymbols 1 1))))).sinkBytes =
        [0x61] := by decide +kernel

/-- V63: the first payload bit is 1. -/
theorem test_dec_sym_no_match :
    (after .decSym (withDecoder 0#32 0x80000000#32 0x80000000#32 (inPhase .decoding (twoSymbols 1 1)))).responses =
      [⟨.faultFormat, 0x07#64⟩] := by decide +kernel

/-! ### Shared operations -/

/-- V50, rows 2, 6 and 8; V51, first case. -/
theorem test_narrow :
    narrow 0#32 0x80000000#32 8#64 9#64 9#64 = some (0x71C71C71#32, 0x0E38E38F#32) ∧
    narrow 0x80000000#32 0x80000000#32 1#64 2#64 2#64 = some (0xC0000000#32, 0x40000000#32) ∧
    narrow 0#32 0x40000001#32 0x40000000#64 0x40000001#64 0x40000001#64 = some (0x40000000#32, 1#32) ∧
    narrow 0#32 0x40000001#32 0#64 1#64 0x40000002#64 = none := by decide +kernel

/-- V52, rows 2, 5, 7 and 8. -/
theorem test_classify :
    classify 0x40000000#32 0x40000000#32 = .e1 ∧ classify 0x80000000#32 0x40000000#32 = .e2 ∧
    classify 0xC0000000#32 0x40000000#32 = .e2 ∧ classify 0x40000001#32 0x40000000#32 = .e3 := by decide

/-- V68: the target changes at the boundary Narrow computes. -/
theorem test_target :
    target 0x58B040E4#32 0#32 0x63C64902#32 9#64 = some 7 ∧
    target 0x58B040E5#32 0#32 0x63C64902#32 9#64 = some 8 := by decide

/-- V11: the 32nd bit completes the word. -/
theorem test_write_bit_completes_a_word :
    (match writeBit true (State.reset.setWriteBuffer 0xA0000000#32 0#5) with
      | .ok _ t => t.sinkBytes
      | _ => []) = [0xA0, 0, 0, 1] := by decide +kernel

/-- V16: at the end of the stream a bit is 0 and SRC_EOS is set. -/
theorem test_read_bit_at_the_end :
    (match readBit State.reset with
      | .ok b t => (b, t.dec.ridx, t.dec.srcEos)
      | _ => (true, 0#5, false)) = (false, 30#5, true) := by decide +kernel

/-- A presented word is the next step's (R90). -/
theorem test_fetch_word :
    (nextOf (step (State.reset.withFetchWord 16 0x1000))).phase = .counting ∧
    (nextOf (step (State.reset.withFetchWord 16 0x1000))).ports.host = [] := by decide +kernel

/-! ### Witnesses

Each names the obligation whose hypotheses it meets, one conjunct per clause where a statement has several. -/

/-- The words of a legal command, of RDSR 13, and of RDSR 14. -/
theorem witness_DecodingUndoesEncoding :
    Instr.encFin.wellFormed = true ∧ (Instr.rdsr 13#8).wellFormed = true ∧
    (Instr.ftCount 0xFF#8).wellFormed = true := by decide

theorem witness_EncodingUndoesDecoding : decode 0x020D#16 = .ok (.rdsr 13#8) := rfl

theorem witness_LegalWordsAndIllegalOnesRefused :
    (∃ i, decode 0x020D#16 = .ok i) ∧ (∀ i, decode 0x020E#16 ≠ .ok i) ∧
    (withWord 0x020E#16 State.reset).ports.host = .word 0x020E#16 :: [] :=
  ⟨⟨_, rfl⟩, fun _ h => (nomatch h), rfl⟩

theorem witness_StepRunsTheDecodedCommand :
    (withWord 0x1000#16 State.reset).ports.host = .word 0x1000#16 :: [] ∧ decode 0x1000#16 = .ok .ftClear :=
  ⟨rfl, rfl⟩

theorem witness_NoStepWithoutAnInputOrAnAnswer :
    State.reset.ports.host = [] ∧
    ((withPorts [.never] [] State.reset).phase = .idle ∧
      (withPorts [.never] [] State.reset).ports.source = .never :: []) ∧
    ((withPorts [.never] [] (inPhase .loaded (twoSymbols 1 1))).phase = .loaded ∧
      (withPorts [.never] [] (inPhase .loaded (twoSymbols 1 1))).dec.srcEos = false ∧
      (withPorts [.never] [] (inPhase .loaded (twoSymbols 1 1))).ports.source = .never :: []) ∧
    (withPorts [] [.never] (inPhase .built (twoSymbols 1 1))).phase = .built ∧
    (withPorts [] [.never] (inPhase .built (twoSymbols 1 1))).ports.sink = .never :: [] := by decide +kernel

/-- An illegal word; RESET; RDSR; a command in FAULT; one not accepted; one accepted. -/
theorem witness_DispatchInTheStatedOrder :
    (∀ i, decode 0x0101#16 ≠ .ok i) ∧ decode 0x0100#16 = .ok .reset ∧ decode 0x0200#16 = .ok (.rdsr 0#8) ∧
    (decode 0x3100#16 = .ok .decSym ∧ isSystem .decSym = false ∧ faulted.phase = .fault) ∧
    (State.reset.phase ≠ .fault ∧ ¬ AcceptedWhen .decSym State.reset) ∧
    (decode 0x1000#16 = .ok .ftClear ∧ isSystem .ftClear = false ∧ AcceptedWhen .ftClear State.reset) :=
  ⟨fun _ h => (nomatch h), rfl, rfl, ⟨rfl, rfl, rfl⟩, ⟨nofun, nofun⟩, rfl, rfl, rfl⟩

/-- ENC_SYM when every symbol is encoded is not accepted; ENC_FIN then is, in a safe state. -/
theorem witness_PhaseTransitionsAsTabulated :
    (isSystem (.encSym 0x61#8) = false ∧ (inPhase .encoding FreqTable.reset).phase ≠ .fault ∧
      ¬ AcceptedWhen (.encSym 0x61#8) (inPhase .encoding FreqTable.reset)) ∧
    AcceptedWhen .encFin (withEncoder 0#32 0x80000000#32 0#64 2#64 (inPhase .encoding (twoSymbols 1 1))) ∧
    PhaseSafe (withEncoder 0#32 0x80000000#32 0#64 2#64 (inPhase .encoding (twoSymbols 1 1))) ∧
    isNext (exec .encFin (withEncoder 0#32 0x80000000#32 0#64 2#64 (inPhase .encoding (twoSymbols 1 1)))) = true :=
  ⟨⟨rfl, nofun, fun h => absurd h.2 (by decide)⟩, ⟨rfl, rfl⟩, by decide +kernel, by decide +kernel⟩

theorem witness_BothResetsLeaveTheTabulatedState :
    13 ≤ 13 ∧ ({ faulted with ports := ⟨[.hardReset], [], [], []⟩ } : State).ports.host = .hardReset :: [] :=
  ⟨by decide, rfl⟩

theorem witness_RdsrAnswersTheRegister : (13#8).toNat ≤ 13 ∧ 13 < (14#8).toNat := by decide

/-- DEC_SYM in FAULT. -/
theorem witness_FaultKeepsItsCauseUntilReset :
    (withWord 0x3100#16 faulted).phase = .fault ∧ isNext (step (withWord 0x3100#16 faulted)) = true ∧
    (withWord 0x3100#16 faulted).ports.host = [.word 0x3100#16] ∧
    [HostInput.word 0x3100#16] ≠ [.word 0x0100#16] ∧ [HostInput.word 0x3100#16] ≠ [.hardReset] := by
  decide +kernel

/-- A state with a table that satisfies the invariant: "ab" built, with FT_SER presented. -/
def builtAB : State := withWord 0x1300#16 (inPhase .built (twoSymbols 1 1))

theorem builtAB_invariant : Invariant builtAB :=
  ⟨by decide +kernel, ⟨by decide, by decide, fun _ => by decide +kernel, nofun⟩, by decide +kernel⟩

/-- FT_SER whose first byte the sink refuses. -/
theorem witness_CausesOnlyFromTheirCommands :
    Invariant (withPorts [] [.err] builtAB) ∧ (withPorts [] [.err] builtAB).phase ≠ .fault ∧
    isNext (exec .ftSer (withPorts [] [.err] builtAB)) = true ∧
    (after .ftSer (withPorts [] [.err] builtAB)).fcause = some .ioSink :=
  ⟨builtAB_invariant, nofun, by decide +kernel, by decide +kernel⟩

/-- FT_BUILD completes (RegistersWrittenOnlyByTheirCommands, StreamsReachedOnlyByTheirCommands). -/
theorem witness_RegistersWrittenOnlyByTheirCommands :
    Instr.ftBuild ≠ .reset ∧ isNext (exec .ftBuild (inPhase .counting (twoCounted 1 1))) = true := by
  decide +kernel

/-- A step that runs FT_CLEAR (OneResponseAfterTheTransactions, StreamsMoveForwardOnly, TraceIsNeverRead). -/
theorem witness_OneResponseAfterTheTransactions :
    (withWord 0x1000#16 State.reset).ports.host = .word 0x1000#16 :: [] ∧
    isNext (step (withWord 0x1000#16 State.reset)) = true := by decide +kernel

theorem witness_PortAnswersAsStated :
    (withPorts [.byte 5#8] [.ok] State.reset).ports.source = .byte 5#8 :: [] ∧
    (withPorts [.eos] [.err] State.reset).ports.source = .eos :: [] ∧
    (withPorts [.err] [] State.reset).ports.source = .err :: [] ∧
    (withPorts [.byte 5#8] [.ok] State.reset).ports.sink = .ok :: [] ∧
    (withPorts [.eos] [.err] State.reset).ports.sink = .err :: [] := ⟨rfl, rfl, rfl, rfl, rfl⟩

/-- The largest total_symbols. -/
theorem witness_PutUIntIsBigEndian : 2 ^ 64 - 1 < 2 ^ (8 * 8) ∧ SinkOpen State.reset := by decide +kernel

/-- All bytes there; the source ends; EOS; Err. -/
theorem witness_GetUIntStrictReadsBigEndian :
    ((withPorts (bytesOf [1, 2]) [] State.reset).ports.source = [1, 2].map .byte ++ [] ∧
      [(1 : Byte), 2].length = 2) ∧
    ([(1 : Byte), 2].length < 3) ∧
    (withPorts [.byte 1, .eos] [] State.reset).ports.source = [1].map .byte ++ [.eos] ∧
    (withPorts [.byte 1, .err] [] State.reset).ports.source = [1].map .byte ++ [.err] := by decide +kernel

/-- WIDX = 31 and 1; WIDX = 0 with an open sink; the sink refusing byte 0, byte 3. -/
theorem witness_WriteBitAsStated :
    0 < State.reset.enc.widx.toNat ∧ 0 < (State.reset.setWriteBuffer 0#32 1#5).enc.widx.toNat ∧
    ((State.reset.setWriteBuffer 0#32 0#5).enc.widx = 0#5 ∧ SinkOpen (State.reset.setWriteBuffer 0#32 0#5)) ∧
    ((∀ a ∈ ([.err] : List SinkAnswer).take 0, a = .ok) ∧ ([.err] : List SinkAnswer)[0]? = some .err) ∧
    ((∀ a ∈ ([.ok, .ok, .ok, .err] : List SinkAnswer).take 3, a = .ok) ∧
      ([.ok, .ok, .ok, .err] : List SinkAnswer)[3]? = some .err) := by decide +kernel

/-- A clean write side and an open sink (WriteBitAppendsOneBit, EmitWritesTheFollowBits). -/
theorem witness_WriteBitAppendsOneBit :
    WriteSideClean (State.reset.setWriteBuffer 0xFFFFFFFE#32 0#5).enc ∧ WriteSideClean State.reset.enc ∧
    SinkOpen (withPorts [] [.ok] State.reset) := by decide +kernel

/-- One bit pending, 31 bits pending, none. -/
theorem witness_FlushPadsTheLastWord :
    SinkOpen State.reset ∧ (30#5).toNat < 31 ∧ (0#5).toNat < 31 ∧ State.reset.enc.widx = 31#5 ∧
    WriteSideClean (State.reset.setWriteBuffer 0x80000000#32 30#5).enc := by decide +kernel

/-- SRC_EOS set; four bytes; the source ends after one; EOS; Err. -/
theorem witness_GetWordPaddedAsStated :
    (State.reset.setSrcEos true).dec.srcEos = true ∧ State.reset.dec.srcEos = false ∧
    (withPorts (bytesOf [1, 2, 3, 4]) [] State.reset).ports.source = [1, 2, 3, 4].map .byte ++ [] ∧
    (withPorts (bytesOf [1]) [] State.reset).ports.source = [1].map .byte ++ [] ∧
    ([] : List SrcAnswer).head?.getD .eos = .eos ∧ [SrcAnswer.eos].head?.getD .eos = .eos ∧
    [SrcAnswer.err].head? = some .err := by decide +kernel

/-- A word is buffered; none is, and the fetch answers; none is, and the fetch fails. -/
theorem witness_ReadBitAsStated :
    (State.reset.setReadBuffer 1#32 0#5).dec.ridx ≠ 31#5 ∧ State.reset.dec.ridx = 31#5 ∧
    (∃ u, getWordPadded State.reset = .ok 0#32 u) ∧
    (∃ u, getWordPadded (withPorts [.err] [] State.reset) = .raise .ioSource u) :=
  ⟨by decide, rfl, ⟨_, rfl⟩, ⟨_, rfl⟩⟩

/-- A source that ends (ReadBitGivesThePayloadInOrder). -/
theorem witness_ReadBitGivesThePayloadInOrder : SourceOpen (withPorts (bytesOf [1] ++ [.eos]) [] State.reset) := by
  decide +kernel

theorem witness_FtClearEmptiesTheCounts : State.reset.phase = .idle := rfl

/-- TOTAL just below the limit, and at it. -/
theorem witness_FtCountCountsOneSymbol :
    (inPhase .counting (twoCounted 1 1)).phase = .counting ∧
    (twoCounted (2 ^ 64 - 2) 0).total.toNat < 2 ^ 64 - 1 ∧
    (twoCounted (2 ^ 64 - 1) 0).total.toNat = 2 ^ 64 - 1 := by decide +kernel

theorem witness_FtBuildSortsAndAccumulates :
    (inPhase .counting helloCounted).phase = .counting ∧ helloCounted.nseen.toNat ≤ 256 ∧
    ({ helloCounted with nseen := 256#9 } : FreqTable).nseen.toNat ≤ 256 := by decide +kernel

/-- "hello" is counted consistently; the header of "ab" is loaded. -/
theorem witness_TablesPartitionTheTotal :
    ((inPhase .counting helloCounted).phase = .counting ∧ CountsAgree helloCounted) ∧
    (withPorts (bytesOf headerAB) [] State.reset).phase = .idle ∧
    isNext (exec .ftDes (withPorts (bytesOf headerAB) [] State.reset)) = true ∧
    (after .ftDes (withPorts (bytesOf headerAB) [] State.reset)).phase = .loaded := by decide +kernel

/-- The header of "ab": accepted whole; its last byte refused; its first byte refused. -/
theorem witness_FtSerWritesTheHeader :
    (inPhase .built (twoSymbols 1 1)).phase = .built ∧ (twoSymbols 1 1).tabN.toNat ≤ 256 ∧
    headerAB = headerOf 2#64 ((twoSymbols 1 1).entries.map fun e => (e.sym, e.cnt)) ∧
    (∀ a ∈ ([] : List SinkAnswer).take headerAB.length, a = .ok) ∧
    (27 < headerAB.length ∧ (∀ a ∈ (List.replicate 27 SinkAnswer.ok ++ [SinkAnswer.err]).take 27, a = .ok) ∧
      (List.replicate 27 SinkAnswer.ok ++ [SinkAnswer.err])[27]? = some SinkAnswer.err) ∧
    0 < headerAB.length ∧ [SinkAnswer.err][0]? = some .err := by decide +kernel

/-- The pairs of "ab", and the empty table. -/
theorem witness_FtDesLoadsTheHeader :
    PairsWellFormed 2#64 [(0x61#8, 1#64), (0x62#8, 1#64)] ∧ PairsWellFormed 0#64 [] ∧
    State.reset.phase = .idle ∧ headerOf 2#64 [(0x61#8, 1#64), (0x62#8, 1#64)] = headerAB ∧
    (withPorts (bytesOf headerAB) [] State.reset).ports.source = headerAB.map .byte ++ [] :=
  ⟨⟨by decide, by simp, by decide, by decide⟩, ⟨by decide, by simp, by decide, by decide⟩, by decide +kernel⟩

/-- A source that is the header of "ab", and one that is its first nine bytes (V81). -/
theorem witness_HeaderAcceptedExactlyWhenWellFormed :
    (withPorts (bytesOf headerAB) [] State.reset).ports.source = headerAB.map .byte ∧
    (after .ftDes (withPorts (bytesOf headerAB) [] State.reset)).phase = .loaded ∧
    (after .ftDes (withPorts (bytesOf (headerAB.take 9)) [] State.reset)).phase ≠ .loaded := by decide +kernel

/-- V80 to V86 and V91 as instances, one conjunct per clause: the source ends (or fails) in total_symbols, in
alphabet_count, in a pair (V82, and the last byte of the second pair of "ab"); 257 pairs; a count of 0; a symbol twice; a
sum too large, also with TOTAL = 0; a sum too small, also with no pair. -/
theorem witness_FtDesRaisesTheFirstFailingCheck :
    (State.reset.phase = .idle ∧ ([] : List SrcAnswer).headD .eos = .eos ∧ [SrcAnswer.err].headD .eos = .err ∧
      (List.replicate 3 0#8).length < 8 ∧
      (withPorts [.byte 0, .byte 0, .byte 0, .err] [] State.reset).ports.source =
        (List.replicate 3 0#8).map .byte ++ [.err]) ∧
    List.replicate 9 0#8 = totalBytes 0#64 ++ [0#8] ∧
    ((2#16).toNat ≤ 256 ∧ PairsPass 2#64 [] ∧ PairsPass 2#64 [(0x61#8, 1#64)] ∧
      [0, 0, 0, 0, 0, 0, 0, 2, 0, 2, 0x61, 0, 0, 0] = headerStart 2#64 2#16 [] ++ [0x61, 0, 0, 0] ∧
      headerAB.take 27 = headerStart 2#64 2#16 [(0x61#8, 1#64)] ++ [0x62, 0, 0, 0, 0, 0, 0, 0]) ∧
    (256 < (257#16).toNat ∧ [0, 0, 0, 0, 0, 0, 0, 2, 1, 1] = headerStart 2#64 257#16 []) ∧
    ([0, 0, 0, 0, 0, 0, 0, 2, 0, 2, 0x61, 0, 0, 0, 0, 0, 0, 0, 0] = headerStart 2#64 2#16 ([] ++ [(0x61#8, 0#64)]) ∧
      headerAB.set 19 0x61 = headerStart 2#64 2#16 ([(0x61#8, 1#64)] ++ [(0x61#8, 1#64)]) ∧
      headerAB.set 27 2 = headerStart 2#64 2#16 ([(0x61#8, 1#64)] ++ [(0x62#8, 2#64)]) ∧
      [0, 0, 0, 0, 0, 0, 0, 0, 0, 1, 0x61, 0, 0, 0, 0, 0, 0, 0, 1] =
        headerStart 0#64 1#16 ([] ++ [(0x61#8, 1#64)])) ∧
    (PairsPass 3#64 [(0x61#8, 1#64), (0x62#8, 1#64)] ∧
      headerAB.set 7 3 = headerStart 3#64 2#16 [(0x61#8, 1#64), (0x62#8, 1#64)] ∧
      [0, 0, 0, 0, 0, 0, 0, 1, 0, 0] = headerStart 1#64 0#16 []) ∧
    (([[], List.replicate 9 0, headerAB.take 14, headerAB.take 8 ++ [1, 1], headerAB.take 18 ++ [0],
        headerAB.set 19 0x61, headerAB.set 27 2, headerAB.set 7 3] : List (List Byte)).map fun bs =>
          (after .ftDes (withPorts (bytesOf bs) [] State.reset)).responses) =
      ([1, 1, 1, 2, 3, 4, 5, 5] : List Word64).map (fun c => [⟨.faultFormat, c⟩]) ∧
    statusRegister 0 (after .ftDes (withPorts [.byte 0, .byte 0, .byte 0, .err] [] State.reset)) = 0x410F#64 :=
  ⟨by decide +kernel, by decide +kernel,
    ⟨by decide, ⟨by simp, by simp, by simp⟩, ⟨by simp, by simp, by simp⟩, by decide +kernel⟩, by decide +kernel,
    by decide +kernel, ⟨⟨by simp, by simp, by simp⟩, by decide +kernel⟩, by decide +kernel⟩

/-- V51: no narrowed Range; V50 rows 1, 2 and 8: low = 0, high = total, a narrowed Range of 1. -/
theorem witness_NarrowStaysInside :
    (IntervalOk 0#32 0x40000001#32 ∧ (0#64).toNat < (1#64).toNat ∧ (1#64).toNat ≤ (0x40000002#64).toNat ∧
      narrow 0#32 0x40000001#32 0#64 1#64 0x40000002#64 = none) ∧
    IntervalOk 0x80000000#32 0x80000000#32 ∧
    narrow 0#32 0x80000000#32 0#64 8#64 9#64 = some (0#32, 0x71C71C71#32) ∧
    narrow 0#32 0x40000001#32 0x40000000#64 0x40000001#64 0x40000001#64 = some (0x40000000#32, 1#32) := by
  decide +kernel

/-- TOTAL at the bound, Range at the bound. -/
theorem witness_NoZeroRangeBelowTheBound :
    IntervalSettled 0#32 0x40000001#32 ∧ (0x40000001#64).toNat ≤ 2 ^ 30 + 1 ∧
    (0x40000000#64).toNat < (0x40000001#64).toNat := by decide

/-- R = 1 and R = Q; a state of each case. -/
theorem witness_ClassifyBoundaries :
    1 ≤ (1#32).toNat ∧ (0x40000000#32).toNat ≤ 2 ^ 30 ∧ classify 0x7FFFFFFF#32 1#32 = .e1 ∧
    classify 0x80000000#32 1#32 = .e2 ∧ classify 0x7FFFFFFF#32 2#32 = .e3 := by decide

/-- V52, rows 7 and 10: the sum at 2^32, and an E3 interval of Range Q. -/
theorem witness_RescaleIsExact :
    1 ≤ (0x40000000#32).toNat ∧ (0x40000000#32).toNat ≤ 2 ^ 30 ∧
    (0xC0000000#32).toNat + (0x40000000#32).toNat ≤ 2 ^ 32 ∧
    (0x7FFFFFFF#32).toNat + (0x40000000#32).toNat ≤ 2 ^ 32 := by decide

/-- V53: from Range = 1 both loops complete. -/
theorem witness_RenormalisationPassCount :
    IntervalOk 0#32 1#32 ∧
    (∃ t, encLoop 31 (withEncoder 0#32 1#32 0#64 0#64 State.reset) = .ok () t) ∧
    ∃ t, decLoop 31 (withDecoder 0#32 1#32 0#32 State.reset) = .ok () t :=
  ⟨by decide, ⟨_, rfl⟩, ⟨_, rfl⟩⟩

theorem witness_EncInitStartsTheEncoder : (inPhase .hdrOut (twoSymbols 1 1)).phase = .hdrOut := rfl

/-- V31 symbol 8, two bits to write. The sink takes them: nothing refused; a byte of the word not yet filled refused. It
refuses byte 0 of the word the second bit fills, and byte 3 of the word the first bit fills. The counter limit without
leading E3 passes. -/
theorem witness_EncSymEncodesOneSymbol :
    let s := withEncoder 0#32 0x63C64902#32 0#64 8#64 (inPhase .encoding (twoSymbols 8 1))
    (s.phase = .encoding ∧ s.enc.count.toNat < s.ft.total.toNat ∧ TablePartition s.ft ∧
      IntervalSettled s.enc.lower s.enc.range ∧ WriteSideClean s.enc ∧
      (⟨0x62, 1, 8, 9⟩ : TabEntry) ∈ s.ft.entries ∧
      0 < scaled s.enc.range 9#64 s.ft.total - scaled s.enc.range 8#64 s.ft.total ∧
      renorm 31 (0 + scaled s.enc.range 8#64 s.ft.total)
        (scaled s.enc.range 9#64 s.ft.total - scaled s.enc.range 8#64 s.ft.total) =
        ([.e1, .e2, .e3], 0x45820728, 0x58B040E8) ∧
      (passBits [.e1, .e2, .e3] s.enc.pend.toNat).1.length = 2) ∧
    (2 ^ 64 - 1 + (([.e1, .e2, .e3] : List IntervalCase).takeWhile (· == .e3)).length < 2 ^ 64) ∧
    SinkTakes s 2 ∧ SinkTakes (withPorts [] [.err] s) 2 ∧
    (RefusesByte (withPorts [] [.err] (s.setWriteBuffer 0#32 1#5)) 0 ∧
      bitsBefore (withPorts [] [.err] (s.setWriteBuffer 0#32 1#5)) 0 < 2 ∧
      WriteSideClean (s.setWriteBuffer 0#32 1#5).enc) ∧
    RefusesByte (withPorts [] [.ok, .ok, .ok, .err] (s.setWriteBuffer 0#32 0#5)) 3 ∧
    bitsBefore (withPorts [] [.ok, .ok, .ok, .err] (s.setWriteBuffer 0#32 0#5)) 3 < 2 ∧
    WriteSideClean (s.setWriteBuffer 0#32 0#5).enc :=
  ⟨by decide +kernel, by decide, .inl (by decide +kernel), .inr ⟨0, by decide +kernel⟩, by decide +kernel⟩

/-- V87: a symbol that is not in the table; V88: a narrowed Range of 0. -/
theorem witness_EncSymFaultsBeforeAnyWrite :
    (∀ e ∈ (twoSymbols 1 1).entries, e.sym ≠ 0x63#8) ∧
    (TablePartition (twoSymbols 1 0x40000001) ∧
      (⟨0x61, 1, 0, 1⟩ : TabEntry) ∈ (twoSymbols 1 0x40000001).entries ∧
      scaled 0x40000001#32 1#64 (twoSymbols 1 0x40000001).total -
        scaled 0x40000001#32 0#64 (twoSymbols 1 0x40000001).total = 0 ∧
      (0#64).toNat < (twoSymbols 1 0x40000001).total.toNat) := by decide +kernel

/-- V41: the first pass is an E3 one with 2^64 - 1 bits outstanding; and with the interval of V47 symbol 2, whose two
passes are E3, the second overflows: the interval is that after the first. -/
theorem witness_EncSymFaultsAtTheCounterLimit :
    let s := withEncoder 0x40000000#32 0x40000002#32 0xFFFFFFFFFFFFFFFF#64 0#64 (inPhase .encoding (twoSymbols 1 2))
    let u := withEncoder 0x4C2A5064#32 0x4C2A5064#32 0xFFFFFFFFFFFFFFFE#64 2#64 (inPhase .encoding tableV47)
    (s.phase = .encoding ∧ s.enc.count.toNat < s.ft.total.toNat ∧ TablePartition s.ft ∧
      IntervalSettled s.enc.lower s.enc.range ∧ (⟨0x62, 2, 1, 3⟩ : TabEntry) ∈ s.ft.entries ∧
      scaled s.enc.range 3#64 s.ft.total - scaled s.enc.range 1#64 s.ft.total = 0x2AAAAAAC ∧
      renorm 31 (0x40000000 + scaled s.enc.range 1#64 s.ft.total) 0x2AAAAAAC = ([.e3], 0x2AAAAAAC, 0x55555558) ∧
      s.enc.pend.toNat + (([.e3] : List IntervalCase).takeWhile (· == .e3)).length = 2 ^ 64) ∧
    (u.phase = .encoding ∧ u.enc.count.toNat < u.ft.total.toNat ∧ TablePartition u.ft ∧
      IntervalSettled u.enc.lower u.enc.range ∧ (⟨0x61, 3, 6, 9⟩ : TabEntry) ∈ u.ft.entries ∧
      scaled u.enc.range 9#64 u.ft.total - scaled u.enc.range 6#64 u.ft.total = 0x14C5B8D6 ∧
      renorm 31 (0x4C2A5064 + scaled u.enc.range 6#64 u.ft.total) 0x14C5B8D6 =
        ([.e3, .e3], 0x56D70838, 0x5316E358) ∧
      u.enc.pend.toNat + (([.e3, .e3] : List IntervalCase).takeWhile (· == .e3)).length = 2 ^ 64) ∧
    (after (.encSym 0x61#8) u).enc.lower = 0x6B6B841C#32 ∧ (after (.encSym 0x61#8) u).enc.range = 0x298B71AC#32 ∧
    (after (.encSym 0x61#8) u).responses = [⟨.faultFormat, 9#64⟩] :=
  ⟨by decide +kernel, by decide +kernel, by decide +kernel⟩

/-- The end of "ab" (P1): two bits in the word, eight for the trailer, 22 to pad. A sink that refuses nothing; one that
refuses a byte of the next word; V90, where Flush's word is refused at its third byte; a word filled by the trailer's
third bit and refused. The end of the empty input (P4). -/
theorem witness_EncFinWritesTrailerAndFlushes :
    let s := (withEncoder 0x80000000#32 0x80000000#32 0#64 2#64 (inPhase .encoding (twoSymbols 1 1))).setWriteBuffer
      0#32 29#5
    let v := withPorts [] [.ok, .ok, .err] s
    let w := withPorts [] [.err] (s.setWriteBuffer 0#32 2#5)
    let z := inPhase .encoding FreqTable.reset
    (s.phase = .encoding ∧ s.enc.count = s.ft.total ∧ WriteSideClean s.enc ∧
      IntervalSettled s.enc.lower s.enc.range ∧ 0 < s.ft.total.toNat ∧
      ((31 - s.enc.widx.toNat) + (8 + s.enc.pend.toNat) + 22) % 32 = 0 ∧
      (trailerBitsFor (quarterCeil s.enc.lower) s.enc.pend.toNat ++ List.replicate 22 false).length = 30) ∧
    SinkTakes s 30 ∧ SinkTakes (withPorts [] (List.replicate 4 .ok ++ [.err]) s) 30 ∧
    (RefusesByte v 2 ∧ 8 ≤ bitsBefore v 2 ∧ bitsBefore v 2 < 30 ∧ statusRegister 7 (after .encFin v) = 0x1520000000#64 ∧
      statusRegister 0 (after .encFin v) = 0x401F#64 ∧ (after .encFin v).sinkBytes = [0x20, 0x00]) ∧
    (RefusesByte w 0 ∧ bitsBefore w 0 < 8 ∧ WriteSideClean w.enc ∧
      ((31 - w.enc.widx.toNat) + (8 + w.enc.pend.toNat) + 27) % 32 = 0) ∧
    (z.phase = .encoding ∧ z.enc.count = z.ft.total ∧ WriteSideClean z.enc ∧
      IntervalSettled z.enc.lower z.enc.range ∧ z.ft.total.toNat = 0 ∧ z.enc.widx = 31#5) :=
  ⟨by decide +kernel, .inl (by decide +kernel), .inr ⟨4, by decide +kernel⟩, by decide +kernel⟩

/-- The largest ENC_LOWER, and m = 0. -/
theorem witness_CodePointInsideTheFinalInterval :
    IntervalSettled 0xBFFFFFFF#32 0x40000001#32 ∧ IntervalSettled 0#32 0x80000000#32 := by decide

/-- A source that ends, also with TOTAL = 0 (DecInitReadsTheFirstWord, FirstPayloadBitDecides); one that fails at the
first byte, and at the fourth. -/
theorem witness_DecInitReadsTheFirstWord :
    (inPhase .loaded (twoSymbols 1 1)).phase = .loaded ∧ (inPhase .loaded FreqTable.reset).phase = .loaded ∧
    SourceOpen (withPorts (bytesOf [0x20]) [] (inPhase .loaded (twoSymbols 1 1))) ∧
    isNext (exec .decInit (withPorts (bytesOf [0x20]) [] (inPhase .loaded (twoSymbols 1 1)))) = true ∧
    (inPhase .loaded (twoSymbols 1 1)).dec.srcEos = false ∧
    (withPorts [.err] [] (inPhase .loaded (twoSymbols 1 1))).ports.source = [].map .byte ++ .err :: [] ∧
    ([1, 2, 3] : List Byte).length < 4 ∧
    (withPorts [.byte 1, .byte 2, .byte 3, .err] [] (inPhase .loaded (twoSymbols 1 1))).ports.source =
      [1, 2, 3].map .byte ++ .err :: [] := by decide +kernel

/-- V68: Value at the boundary between the two symbols, and a partition with Value inside. -/
theorem witness_SelectionIsExact :
    IntervalOk 0#32 0x63C64902#32 ∧ 0 < (9#64).toNat ∧ (0x58B040E5#32).toNat < 0 + (0x63C64902#32).toNat ∧
    TablePartition (twoSymbols 8 1) ∧ 0 < (twoSymbols 8 1).total.toNat ∧
    ValueInside (withDecoder 0#32 0x63C64902#32 0x58B040E5#32 (inPhase .decoding (twoSymbols 8 1))).dec := by
  decide +kernel

/-- V61 symbol 8; with a sink that refuses for DecSymSinkErrorKeepsTheCount. V91, whose state after the fault is its own;
and one bit left in RBUF of the two the passes take, the source failing at the word's fourth byte. -/
theorem witness_DecSymDecodesOneSymbol :
    let s := withDecoder 0#32 0x63C64902#32 0x60000000#32 (inPhase .decoding (twoSymbols 8 1))
    let v := withPorts [.err] [] (withDecoder 0#32 0x80000000#32 0x20000000#32 (inPhase .decoding (twoSymbols 1 1)))
    let w := withPorts [.byte 1, .byte 2, .byte 3, .err] []
      ((withDecoder 0#32 0x80000000#32 0x10000000#32 (inPhase .decoding (twoSymbols 1 3))).setReadBuffer 1#32 0#5)
    (s.phase = .decoding ∧ s.dec.count.toNat < s.ft.total.toNat ∧ TablePartition s.ft ∧
      IntervalSettled s.dec.lower s.dec.range ∧ ValueInside s.dec ∧ SourceOpen s ∧ SinkOpen s ∧
      (withPorts [] [.err] s).ports.sink = .err :: []) ∧
    (v.phase = .decoding ∧ v.dec.count.toNat < v.ft.total.toNat ∧ TablePartition v.ft ∧
      IntervalSettled v.dec.lower v.dec.range ∧ ValueInside v.dec ∧ v.dec.srcEos = false ∧
      v.ports.source = [].map .byte ++ .err :: [] ∧ bitsLeft v.dec = 0 ∧
      renorm 31 0 0x40000000 = ([.e1], 0, 0x80000000) ∧
      statusRegister 8 (after .decSym v) = 0#64 ∧ statusRegister 9 (after .decSym v) = 0x80000000#64 ∧
      (after .decSym v).dec.value = 0x20000000#32 ∧ (after .decSym v).sinkBytes = [] ∧
      (after .decSym v).dec.count = 0#64 ∧ (after .decSym v).responses = [⟨.faultIo, 0x41#64⟩] ∧
      statusRegister 0 (after .decSym v) = 0x411F#64) ∧
    (w.phase = .decoding ∧ w.dec.count.toNat < w.ft.total.toNat ∧ TablePartition w.ft ∧
      IntervalSettled w.dec.lower w.dec.range ∧ ValueInside w.dec ∧ w.dec.srcEos = false ∧
      w.ports.source = [1, 2, 3].map .byte ++ .err :: [] ∧ bitsLeft w.dec = 1 ∧
      renorm 31 0 0x20000000 = ([.e1, .e1], 0, 0x80000000)) :=
  ⟨by decide +kernel, by decide +kernel, by decide +kernel⟩

/-- V69: Value below Lower; V63: Value above the interval. -/
theorem witness_DecSymFaultsOutsideTheInterval :
    (IntervalOk 0x40000000#32 0x80000000#32 ∧
      ¬ ValueInside (withDecoder 0x40000000#32 0x80000000#32 0x3FFFFFFF#32 State.reset).dec) ∧
    IntervalOk 0#32 0x80000000#32 ∧
    ¬ ValueInside (withDecoder 0#32 0x80000000#32 0x80000000#32 State.reset).dec ∧
    TablePartition (twoSymbols 1 1) := by decide +kernel

/-- V31 and V61, symbol 8, on two devices. -/
theorem witness_EncoderAndDecoderStayInLockstep :
    let s := withEncoder 0#32 0x63C64902#32 0#64 8#64 (inPhase .encoding (twoSymbols 8 1))
    let d := withDecoder 0#32 0x63C64902#32 0x60000000#32 (inPhase .decoding (twoSymbols 8 1))
    TablePartition s.ft ∧ IntervalSettled s.enc.lower s.enc.range ∧ d.ft.entries = s.ft.entries ∧
    d.dec.lower = s.enc.lower ∧ d.dec.range = s.enc.range ∧
    (⟨0x62, 1, 8, 9⟩ : TabEntry) ∈ s.ft.entries ∧
    s.enc.lower.toNat + scaled s.enc.range 8#64 s.ft.total ≤ d.dec.value.toNat ∧
    d.dec.value.toNat < s.enc.lower.toNat + scaled s.enc.range 9#64 s.ft.total ∧
    isNext (exec (.encSym 0x62#8) s) = true ∧ (after (.encSym 0x62#8) s).phase ≠ .fault ∧
    isNext (exec .decSym d) = true ∧ (after .decSym d).phase ≠ .fault := by decide +kernel

theorem witness_EveryStepKeepsTheInvariant : Invariant builtAB ∧ isNext (step builtAB) = true :=
  ⟨builtAB_invariant, by decide +kernel⟩

/-- A state reached by a step. -/
theorem witness_EveryReachableStateIsPhaseSafe :
    Reachable (nextOf (step (withWord 0x1000#16 State.reset))) :=
  .next _ _ (.start ⟨[.word 0x1000#16], [], [], []⟩) (eq_next (by decide +kernel))

end Sys2Proof.Tests
end

section
/-! PROOFS. The status registers and the codes (10_state.md R20, R39; 30_encoding.md R94; 60_exceptions.md R251). -/

namespace Sys2Proof.Machine

/-! ### The status registers (10_state.md R39) -/

@[simp] theorem flagBit_toNat (b : Bool) : (flagBit b).toNat = b.toNat := BitVec.toNat_ofBool b

/-- SR0: each field stands above the fields to its right, and the fields of zeros add nothing. -/
theorem statusWord_toNat (s : State) :
    (statusWord s).toNat =
      s.phase.code.toNat + 2 ^ 4 * s.ft.tabValid.toNat + 2 ^ 5 * s.dec.srcEos.toNat +
        2 ^ 8 * (fcauseCode s.fcause).toNat := by
  simp only [statusWord, append_toNat, flagBit_toNat, BitVec.toNat_ofNat]
  omega

/-- SR7 and SR12: the index stands above the 32 bits of the buffer. -/
theorem bufferWord_toNat (index : BitVec 5) (buffer : Word32) :
    (bufferWord index buffer).toNat = buffer.toNat + 2 ^ 32 * index.toNat := by
  simp only [bufferWord, append_toNat, BitVec.toNat_ofNat]
  omega

/-- Settles O11: SR0 and the two buffer registers by their field sums, the others as one field that is widened
to 64 bits without change or has 64 bits already. -/
theorem statusRegistersShowTheState : Obligations.StatusRegistersShowTheState := by
  intro s
  have widened {w : Nat} (hw : w ≤ 64) (field : BitVec w) : (field.setWidth 64).toNat = field.toNat :=
    BitVec.toNat_setWidth_of_le hw
  exact ⟨statusWord_toNat s, rfl, widened (by decide) s.ft.tabN, widened (by decide) s.enc.lower,
    widened (by decide) s.enc.range, rfl, rfl, bufferWord_toNat s.enc.widx s.enc.wacc,
    widened (by decide) s.dec.lower, widened (by decide) s.dec.range, widened (by decide) s.dec.value, rfl,
    bufferWord_toNat s.dec.ridx s.dec.rbuf, widened (by decide) s.ft.nseen⟩

/-! ### The codes (10_state.md R20; 30_encoding.md R94; 60_exceptions.md R251) -/

/-- Bit 6 of a cause's code is the class bit. -/
theorem Cause.isIo_iff (c : Cause) : c.isIo = true ↔ c = .ioSink ∨ c = .ioSource := by
  cases c <;> decide

/-- Settles O12: the three tables and the code of no fault by evaluation, the class bit cause by cause. -/
theorem codesAsTabulated : Obligations.CodesAsTabulated :=
  ⟨rfl, rfl, rfl, rfl, Cause.isIo_iff⟩

end Sys2Proof.Machine
end

section
/-! PROOFS. The two streams and their ports (20_memory.md R60 to R65, R77): what one transaction answers, what the
byte operations answer, which commands touch which stream, and that the streams only move forward. -/

namespace Sys2Proof.Machine

/-! ### One transaction (20_memory.md R61, R62) -/

theorem sinkPut_err {b : Byte} {s : State} {rest : List SinkAnswer} (h : s.ports.sink = .err :: rest) :
    sinkPut b s = .raise .ioSink
      { s with ports := { s.ports with sink := rest, trace := s.ports.trace ++ [.sinkPut b .err] } } := by
  simp [sinkPut, State.sinkAnswer, h, State.record, State.dropSink]

/-- Settles O21, answer by answer. -/
theorem portAnswersAsStated : Obligations.PortAnswersAsStated := by
  refine ⟨fun s b rest h => srcGet_byte h, fun s rest h => ?_, fun s rest h => ?_, fun s b rest h => ?_,
    fun s b rest h => sinkPut_err h⟩
  · simpa [h] using srcGet_eos (s := s) (by simp [h])
  · simpa [h] using srcGet_err (s := s) (by simp [h])
  · exact sinkPut_ok b (by simp [State.sinkAnswer, h])

/-! ### Transactions that are never answered (20_memory.md R77) -/

theorem srcGet_never {s : State} {rest : List SrcAnswer} (h : s.ports.source = .never :: rest) :
    srcGet s = .stuck .sourceSilent := by
  simp [srcGet, State.sourceAnswer, h]

theorem sinkPut_never {b : Byte} {s : State} {rest : List SinkAnswer} (h : s.ports.sink = .never :: rest) :
    sinkPut b s = .stuck .sinkSilent := by
  simp [sinkPut, State.sinkAnswer, h]

theorem getUIntStrict_never (n : Nat) {s : State} {rest : List SrcAnswer} (h : s.ports.source = .never :: rest) :
    getUIntStrict (n + 1) s = .stuck .sourceSilent := by
  rw [getUIntStrict, getUIntFrom, srcGet_never h, Res.stuck_andThen]

theorem putUInt_never (n v : Nat) {s : State} {rest : List SinkAnswer} (h : s.ports.sink = .never :: rest) :
    putUInt (n + 1) v s = .stuck .sinkSilent := by
  rw [putUInt, beBytes_succ, sinkPutAll, sinkPut_never h, Res.stuck_andThen]

/-- Before SRC_EOS is set, the first byte of a payload word takes a SrcGet (40_bitpacker.md R125). -/
theorem getWordPadded_never {s : State} {rest : List SrcAnswer} (he : s.dec.srcEos = false)
    (h : s.ports.source = .never :: rest) : getWordPadded s = .stuck .sourceSilent := by
  simp [getWordPadded, getWordFrom, getBytePadded, he, srcGet_never h]

theorem step_no_input {s : State} (h : s.ports.host = []) : step s = .fault .noCommand := by
  simp [step, nextInput, h]

/-- An accepted command whose body waits for a transaction has no next state. -/
theorem exec_stuck {i : Instr} {s : State} {e : Fault} (hi : isSystem i = false) (ha : AcceptedWhen i s)
    (h : bodyOf i s = .stuck e) : exec i s = .fault e := by
  rw [exec_eq_settle hi (ha.phase_ne_fault hi) ha, h, settle]

/-- Settles O6: each of the three commands is accepted in its phase, and its first transaction is its first read of
the source or its first put into the sink. -/
theorem noStepWithoutAnInputOrAnAnswer : Obligations.NoStepWithoutAnInputOrAnAnswer := by
  refine ⟨fun s => step_no_input, fun s rest hp hs => exec_stuck rfl hp ?_,
    fun s rest hp he hs => exec_stuck rfl hp ?_, fun s rest hp hs => exec_stuck rfl hp ?_⟩
  · rw [bodyOf, deserialiseBody, getUIntStrict_never 7 (s := (s.setSrcEos false).setTabValid false) hs,
      Res.stuck_andThen]
  · rw [bodyOf, decInitBody, getWordPadded_never (s := startDecoder s) he hs, Res.stuck_andThen]
  · rw [bodyOf, serialiseBody, putUInt_never 7 _ hs, Res.stuck_andThen]

/-! ### Big-endian integers (20_memory.md R64, R65) -/

/-- Settles O22: the bytes are `beBytes n v`, and an open sink takes them all. -/
theorem putUIntIsBigEndian : Obligations.PutUIntIsBigEndian := by
  intro n v s hv hs
  refine ⟨beBytes n v, sinkPutAll_open _ s hs, length_beBytes n v, bigEndian_beBytes hv, fun k hk => ?_⟩
  rw [getElem_beBytes, Nat.sub_right_comm]

/-- Settles O23, by the answer that follows the bytes: none needed, the end of the schedule or EOS, Err. -/
theorem getUIntStrictReadsBigEndian : Obligations.GetUIntStrictReadsBigEndian := by
  intro s n bs rest hs
  refine ⟨?_, ?_, ?_, ?_⟩
  · rintro rfl
    exact getUIntStrict_bytes bs s rest hs
  · rintro hn rfl
    exact getUIntFrom_eos bs n 0 s [] hs hn rfl
  · rintro more hn rfl
    exact getUIntFrom_eos bs n 0 s _ hs hn rfl
  · rintro more hn rfl
    exact getUIntFrom_err bs n 0 s _ hs hn rfl

/-! ### The commands that reach each stream (20_memory.md R60) -/

theorem countBody_ports (sym : Byte) (s : State) :
    (countBody sym s).All (fun t => t.ports = s.ports) (fun _ => True) :=
  (countBody_all sym s).mono (fun t h => by rw [h.1]) fun _ _ => trivial

/-- A body that is not one of the source's three readers moves the ports by sink transactions alone. -/
theorem bodyOf_sinkMoves {i : Instr} (s : State) (hdes : i ≠ .ftDes) (hinit : i ≠ .decInit) (hdec : i ≠ .decSym) :
    (bodyOf i s).All (fun t => SinkMoves s.ports t.ports) (fun _ => True) := by
  cases i with
  | reset | rdsr | ftClear | ftBuild | encInit => exact .refl s.ports
  | ftCount sym => exact (countBody_ports sym s).mono (fun t h => h ▸ .refl _) fun _ h => h
  | ftSer => exact (serialiseBody_all s).mono (fun _ h => h.ports) fun _ _ => trivial
  | encSym sym => exact (encodeBody_all sym s).mono (fun _ h => h.ports) fun _ _ => trivial
  | encFin => exact (finishBody_all s).mono (fun _ h => h.ports) fun _ _ => trivial
  | ftDes => exact absurd rfl hdes
  | decInit => exact absurd rfl hinit
  | decSym => exact absurd rfl hdec

/-- A body that is not one of the sink's four writers moves the ports by source transactions alone. -/
theorem bodyOf_sourceMoves {i : Instr} (s : State) (hser : i ≠ .ftSer) (henc : ∀ sym, i ≠ .encSym sym)
    (hfin : i ≠ .encFin) (hdec : i ≠ .decSym) :
    (bodyOf i s).All (fun t => SourceMoves s.ports t.ports) (fun _ => True) := by
  cases i with
  | reset | rdsr | ftClear | ftBuild | encInit => exact .refl s.ports
  | ftCount sym => exact (countBody_ports sym s).mono (fun t h => h ▸ .refl _) fun _ h => h
  | ftDes => exact (deserialiseBody_des s).mono (fun _ h => h.ports) fun _ _ => trivial
  | decInit => exact (decInitBody_all s).mono (fun _ h => h.2) fun _ _ => trivial
  | ftSer => exact absurd rfl hser
  | encSym sym => exact absurd rfl (henc sym)
  | encFin => exact absurd rfl hfin
  | decSym => exact absurd rfl hdec

/-- A command that answers leaves the ports of the state it started in, or of the state its body left, with one
response on the trace (45_system.md R231). -/
theorem exec_ports {P : State → Prop} {Q : Cause → Prop} {i : Instr} {s t : State} (hs : P s)
    (hb : (bodyOf i s).All P Q) (h : exec i s = .next t) :
    ∃ u c d, P u ∧ t.ports = (respond c d u).ports := by
  rcases exec_eq_next h with ⟨_, rfl⟩ | ⟨n, _, rfl | rfl⟩ | ⟨_, ⟨rfl, _⟩ | ⟨rfl, _⟩ | ⟨_, _, hbody⟩⟩
  -- A system command or a refusal: nothing but the response.
  iterate 5 exact ⟨s, _, _, hs, rfl⟩
  · rcases hbody with ⟨u, hu, rfl⟩ | ⟨c, u, hu, rfl⟩
    · rw [hu, Res.all_ok] at hb
      exact ⟨u, _, _, hb, rfl⟩
    · rw [hu, Res.all_raise] at hb
      exact ⟨u, _, _, hb.1, rfl⟩

theorem sinkBytes_congr {s t : State} (h : s.ports = t.ports) : s.sinkBytes = t.sinkBytes := by
  rw [State.sinkBytes, State.sinkBytes, h]

/-- Settles O17: every body moves the ports, a body that reads no source by sink transactions alone, a body that
writes no sink by source transactions alone. -/
theorem streamsReachedOnlyByTheirCommands : Obligations.StreamsReachedOnlyByTheirCommands := by
  intro i s t h
  refine ⟨?_, fun hdes hinit hdec => ?_, fun hser henc hfin hdec => ?_⟩
  · obtain ⟨u, c, d, ⟨_, hu⟩, ht⟩ := exec_ports ⟨rfl, .refl _⟩ (bodyOf_all i s) h
    rw [ht, respond_ports, ← hu.host]
  · obtain ⟨u, c, d, hu, ht⟩ := exec_ports (.refl _) (bodyOf_sinkMoves s hdes hinit hdec) h
    rw [ht, respond_ports, ← hu.source]
  · obtain ⟨u, c, d, hu, ht⟩ := exec_ports (.refl _) (bodyOf_sourceMoves s hser henc hfin hdec) h
    refine ⟨by rw [ht, respond_ports, ← hu.sink], ?_⟩
    rw [sinkBytes_congr ht, respond_sinkBytes, hu.sinkBytes]

/-! ### The streams move forward only (20_memory.md R61, R62; 60_exceptions.md R257) -/

/-- The trace is only extended and the answers are only consumed from the front; the host's inputs are left out. -/
structure StreamsForward (p q : Ports) : Prop where
  trace : p.trace <+: q.trace
  source : q.source <:+ p.source
  sink : q.sink <:+ p.sink

theorem StreamsForward.trans {p q r : Ports} (h : StreamsForward p q) (k : StreamsForward q r) :
    StreamsForward p r :=
  ⟨h.trace.trans k.trace, k.source.trans h.source, k.sink.trans h.sink⟩

theorem PortsMove.streamsForward {p q : Ports} (h : PortsMove p q) : StreamsForward p q := by
  obtain ⟨evs, htrace, _⟩ := h.trace
  exact ⟨htrace ▸ List.prefix_append _ evs, h.source, h.sink⟩

theorem streamsForward_record (e : Event) (s : State) : StreamsForward s.ports (s.record e).ports :=
  ⟨List.prefix_append _ _, List.suffix_rfl, List.suffix_rfl⟩

theorem streamsForward_withInputTaken (s : State) (e : Event) (rest : List HostInput) :
    StreamsForward s.ports (withInputTaken s e rest).ports :=
  ⟨List.prefix_append _ _, List.suffix_rfl, List.suffix_rfl⟩

theorem exec_streamsForward {i : Instr} {s t : State} (h : exec i s = .next t) : StreamsForward s.ports t.ports := by
  obtain ⟨u, c, d, ⟨_, hu⟩, ht⟩ := exec_ports ⟨rfl, .refl _⟩ (bodyOf_all i s) h
  rw [ht]
  exact hu.streamsForward.trans (streamsForward_record _ u)

theorem step_streamsForward {s t : State} (h : step s = .next t) : StreamsForward s.ports t.ports := by
  obtain ⟨rest, ⟨_, rfl⟩ | ⟨w, _, ⟨_, _, rfl⟩ | ⟨i, _, hexec⟩⟩⟩ := step_eq_next h
  · exact streamsForward_withInputTaken s .hardReset rest
  · exact (streamsForward_withInputTaken s (.command w) rest).trans (streamsForward_record _ _)
  · exact (streamsForward_withInputTaken s (.command w) rest).trans (exec_streamsForward hexec)

/-- Settles O19: the sink contents are read off the trace, which every step only extends. -/
theorem streamsMoveForwardOnly : Obligations.StreamsMoveForwardOnly := by
  intro s t h
  obtain ⟨htrace, hsource, hsink⟩ := step_streamsForward h
  exact ⟨htrace.filterMap _, hsource, hsink⟩

end Sys2Proof.Machine
end

section
/-! PROOFS. Command words (30_encoding.md R91 to R95): decoding and encoding undo each other, and which words are
legal. -/

namespace Sys2Proof

/-! ### Decoding and encoding (30_encoding.md R92) -/

theorem decode_ftCount (sym : Byte) : decode (0x11#8 ++ sym) = .ok (.ftCount sym) := by
  simp [decode]

theorem decode_encSym (sym : Byte) : decode (0x21#8 ++ sym) = .ok (.encSym sym) := by
  simp [decode]

/-- The three rows with an operand for every operand, the other nine by evaluation. -/
theorem decode_encode {i : Instr} (h : i.wellFormed = true) : decode (encode i) = .ok i := by
  cases i with
  | rdsr n => exact (decode_rdsr n).trans (if_pos (of_decide_eq_true h))
  | ftCount sym => exact decode_ftCount sym
  | encSym sym => exact decode_encSym sym
  | reset | ftClear | ftBuild | ftSer | ftDes | encInit | encFin | decInit | decSym => rfl

/-- A word is its two fields (R91). -/
theorem encode_of_fields {w : CmdWord} {i : Instr} (hop : opcodeField w = opcodeOf i)
    (hn : operandField w = operandOf i) : encode i = w := by
  rw [encode_eq, ← hop, ← hn, append_fields]

theorem encode_of_decode {w : CmdWord} {i : Instr} (h : decode w = .ok i) : encode i = w := by
  obtain ⟨hop, hn⟩ := decode_fields h
  exact encode_of_fields hop hn

/-- Only RDSR restricts its operand, and the decoder tests it. -/
theorem wellFormed_of_decode {w : CmdWord} {i : Instr} (h : decode w = .ok i) : i.wellFormed = true := by
  cases i with
  | rdsr n =>
    rw [← encode_of_decode h, encode, decode_rdsr] at h
    refine decide_eq_true (p := n.toNat ≤ 13) ?_
    by_contra hn
    rw [if_neg hn] at h
    cases h
  | reset | ftClear | ftCount | ftBuild | ftSer | ftDes | encInit | encSym | encFin | decInit | decSym => rfl

/-- The words that decode are the words of the legal commands. -/
theorem decode_eq_ok_iff {w : CmdWord} {i : Instr} : decode w = .ok i ↔ encode i = w ∧ i.wellFormed = true :=
  ⟨fun h => ⟨encode_of_decode h, wellFormed_of_decode h⟩, fun ⟨hw, hi⟩ => hw ▸ decode_encode hi⟩

/-! ### The legal words (30_encoding.md R95) -/

/-- R95 on the two fields of a word as numbers: (a) the opcode is one of the twelve, (b) the operand field is 0 where
no operand is taken, (c) RDSR's register number is at most 13. -/
abbrev LegalFields (op n : Nat) : Prop :=
  op ∈ [0x01, 0x02, 0x10, 0x11, 0x12, 0x13, 0x14, 0x20, 0x21, 0x22, 0x30, 0x31] ∧
  (op ∉ [0x02, 0x11, 0x21] → n = 0) ∧ (op = 0x02 → n ≤ 13)

/-- The fields of a well-formed command are legal, row by row of the table. -/
theorem legalFields_of_wellFormed {i : Instr} (h : i.wellFormed = true) :
    LegalFields (opcodeOf i).toNat (operandOf i).toNat := by
  cases i with
  | rdsr n => exact ⟨by simp [opcodeOf], fun hop => absurd (by simp [opcodeOf]) hop, fun _ => of_decide_eq_true h⟩
  | ftCount | encSym =>
    exact ⟨by simp [opcodeOf], fun hop => absurd (by simp [opcodeOf]) hop, fun hop => by simp [opcodeOf] at hop⟩
  | reset | ftClear | ftBuild | ftSer | ftDes | encInit | encFin | decInit | decSym => decide

/-- A word with the fields of a well-formed command decodes to it. -/
theorem decode_of_fields {w : CmdWord} {i : Instr} (hop : w.toNat / 256 = (opcodeOf i).toNat)
    (hn : w.toNat % 256 = (operandOf i).toNat) (h : i.wellFormed = true) : decode w = .ok i := by
  have hop' : opcodeField w = opcodeOf i := BitVec.eq_of_toNat_eq ((opcodeField_toNat w).trans hop)
  have hn' : operandField w = operandOf i := BitVec.eq_of_toNat_eq ((operandField_toNat w).trans hn)
  exact decode_eq_ok_iff.2 ⟨encode_of_fields hop' hn', h⟩

/-- Every legal pair of fields is spelled by a command, opcode by opcode. -/
theorem exists_decode_of_legalFields {w : CmdWord} (h : LegalFields (w.toNat / 256) (w.toNat % 256)) :
    ∃ i, decode w = .ok i := by
  obtain ⟨hop, hzero, hreg⟩ := h
  have operand : w.toNat % 256 = (operandField w).toNat := (operandField_toNat w).symm
  have plain (i : Instr) (hi : w.toNat / 256 = (opcodeOf i).toNat)
      (htakes : (opcodeOf i).toNat ∉ [0x02, 0x11, 0x21]) (h0 : operandOf i = 0#8) (hwf : i.wellFormed = true) :
      ∃ i, decode w = .ok i :=
    ⟨i, decode_of_fields hi (by rw [hzero (hi ▸ htakes), h0]; rfl) hwf⟩
  simp only [List.mem_cons, List.not_mem_nil, or_false] at hop
  rcases hop with h | h | h | h | h | h | h | h | h | h | h | h
  · exact plain .reset h (by decide) rfl rfl
  · exact ⟨.rdsr (operandField w), decode_of_fields h operand (decide_eq_true (operand ▸ hreg h))⟩
  · exact plain .ftClear h (by decide) rfl rfl
  · exact ⟨.ftCount (operandField w), decode_of_fields h operand rfl⟩
  · exact plain .ftBuild h (by decide) rfl rfl
  · exact plain .ftSer h (by decide) rfl rfl
  · exact plain .ftDes h (by decide) rfl rfl
  · exact plain .encInit h (by decide) rfl rfl
  · exact ⟨.encSym (operandField w), decode_of_fields h operand rfl⟩
  · exact plain .encFin h (by decide) rfl rfl
  · exact plain .decInit h (by decide) rfl rfl
  · exact plain .decSym h (by decide) rfl rfl

/-- A word decodes exactly when R95 calls it legal. -/
theorem exists_decode_iff (w : CmdWord) :
    (∃ i, decode w = .ok i) ↔ LegalFields (w.toNat / 256) (w.toNat % 256) := by
  refine ⟨fun ⟨i, hi⟩ => ?_, exists_decode_of_legalFields⟩
  obtain ⟨hop, hn⟩ := decode_fields hi
  rw [← opcodeField_toNat, ← operandField_toNat, hop, hn]
  exact legalFields_of_wellFormed (wellFormed_of_decode hi)

end Sys2Proof

namespace Sys2Proof.Machine

/-- Check 1 of the dispatch (45_system.md R231). -/
theorem execWord_illegal {w : CmdWord} (h : ∀ i, decode w ≠ .ok i) (s : State) :
    execWord w s = .next (refuse .errIllegal s) := by
  unfold execWord
  cases hd : decode w with
  | error e => rfl
  | ok i => exact absurd hd (h i)

/-! ### The obligations about command words -/

/-- Settles O2, row by row of the opcode table. -/
theorem decodingUndoesEncoding : Obligations.DecodingUndoesEncoding :=
  fun _ => decode_encode

/-- Settles O3: the word is its two fields, and the decoder tests RDSR's register number. -/
theorem encodingUndoesDecoding : Obligations.EncodingUndoesDecoding :=
  fun _ _ => decode_eq_ok_iff.1

/-- Settles O4: legality on the two fields of the word, and the first check of the dispatch for every other word. -/
theorem legalWordsAndIllegalOnesRefused : Obligations.LegalWordsAndIllegalOnesRefused :=
  fun w => ⟨exists_decode_iff w, fun h _ _ hs =>
    ⟨_, (step_word hs).trans (execWord_illegal h _), rfl⟩⟩

/-- Settles O1 by evaluating the decoder on the nine words. -/
theorem wordsDecodeToTheirCommands : Obligations.WordsDecodeToTheirCommands :=
  ⟨rfl, rfl, rfl, rfl, rfl, rfl, rfl, rfl, rfl⟩

end Sys2Proof.Machine
end

section
/-! PROOFS. What the trace shows of one command word (30_encoding.md R90; 20_memory.md R72; 45_system.md R230). -/

namespace Sys2Proof.Machine

/-- A command that answers shows its transactions and then exactly one response: none for a system command or a
refusal, those of the body otherwise. -/
theorem exec_trace {i : Instr} {s t : State} (h : exec i s = .next t) :
    ∃ (evs : List Event) (r : Response), t.ports.trace = s.ports.trace ++ evs ++ [.response r] ∧
      ∀ e ∈ evs, (∃ a, e = .srcGet a) ∨ (∃ b a, e = .sinkPut b a) := by
  obtain ⟨u, c, d, ⟨_, hu⟩, ht⟩ := exec_ports ⟨rfl, .refl _⟩ (bodyOf_all i s) h
  obtain ⟨evs, htrace, hevs⟩ := hu.trace
  exact ⟨evs, ⟨c, d⟩, by rw [ht, respond_ports, htrace], hevs⟩

/-- Settles O18: an illegal word is answered at once, any other word by its command. -/
theorem oneResponseAfterTheTransactions : Obligations.OneResponseAfterTheTransactions := by
  intro s t w rest hs h
  rw [step_word hs] at h
  cases hd : decode w with
  | error e =>
    rw [execWord, hd, Host.Outcome.next.injEq] at h
    exact ⟨[], ⟨.errIllegal, 0#64⟩, by rw [← h, List.append_nil]; rfl, by simp⟩
  | ok i =>
    rw [execWord, hd] at h
    exact exec_trace h

end Sys2Proof.Machine
end

section
/-! PROOFS. The headers FT_DES accepts (30_encoding.md R102; 41_frequency_table.md R148). -/

namespace Sys2Proof.Machine

theorem sourceOpen_bytes {s : State} {bs : List Byte} (hs : s.ports.source = bs.map .byte) : SourceOpen s := by
  intro a ha
  rw [hs] at ha
  obtain ⟨b, _, rfl⟩ := List.mem_map.1 ha
  exact ⟨by simp, by simp⟩

/-- The bytes begin with a header whose pairs are well formed (R102). -/
def BeginsWithHeader (bs : List Byte) : Prop :=
  ∃ (total : Word64) (pairs : List (Byte × Word64)) (rest : List Byte),
    bs = headerOf total pairs ++ rest ∧ PairsWellFormed total pairs

/-- On finitely many bytes the body of FT_DES completes only on a well-formed header, and then enters LOADED. -/
theorem deserialiseBody_ok_bytes {s t : State} {bs : List Byte} (hs : s.ports.source = bs.map .byte)
    (h : deserialiseBody s = .ok () t) : t.phase = .loaded ∧ BeginsWithHeader bs := by
  obtain ⟨total, pairs, hwf, hsource, hphase, _⟩ := deserialiseBody_inv h
  obtain ⟨hdr, rest, rfl, hhdr, _⟩ := List.map_eq_append_iff.1 (hs.symm.trans hsource)
  have hinj : Function.Injective SrcAnswer.byte := fun _ _ => SrcAnswer.byte.inj
  obtain rfl := List.map_injective_iff.2 hinj hhdr
  exact ⟨hphase, total, pairs, rest, rfl, hwf⟩

/-- On bytes that begin with a well-formed header the body of FT_DES raises nothing. -/
theorem deserialiseBody_raise_bytes {s t : State} {bs : List Byte} {c : Cause} (hs : s.ports.source = bs.map .byte)
    (h : deserialiseBody s = .raise c t) : ¬ BeginsWithHeader bs := by
  rintro ⟨total, pairs, rest, rfl, hwf⟩
  rw [List.map_append] at hs
  rw [deserialiseBody_fit hwf hs] at h
  cases h

/-- Settles O36: FT_DES completes or finds a fault in the header, the first exactly on a well-formed header. -/
theorem headerAcceptedExactlyWhenWellFormed : Obligations.HeaderAcceptedExactlyWhenWellFormed := by
  intro s bs hp hs
  have hexec : exec .ftDes s = settle (deserialiseBody s) := exec_eq_settle rfl (by simp [hp]) hp
  rcases deserialiseBody_open (sourceOpen_bytes hs) with ⟨u, hu⟩ | ⟨c, u, hu, hc⟩
  · obtain ⟨hphase, hbegins⟩ := deserialiseBody_ok_bytes hs hu
    exact ⟨respond .ok 0#64 u, by rw [hexec, hu]; rfl, iff_of_true hphase hbegins, fun hne => absurd hphase hne⟩
  · exact ⟨faultEntry c u, by rw [hexec, hu]; rfl, iff_of_false (by simp) (deserialiseBody_raise_bytes hs hu),
      fun _ => ⟨rfl, c, by simpa using hc, rfl⟩⟩

end Sys2Proof.Machine
end

section
/-! PROOFS. The bit packer (40_bitpacker.md R121 to R128): WriteBit and Flush on the write side, GetWordPadded and
ReadBit on the read side. -/

namespace Sys2Proof.Machine

/-! ### The write side (40_bitpacker.md R121 to R124) -/

/-- WriteBit inside a word, whatever the sink answers. -/
theorem writeBit_of_widx_ne (b : Bool) {s : State} (h : s.enc.widx ≠ 0#5) :
    writeBit b s = .ok () (s.setWriteBuffer (withBit b s.enc.wacc s.enc.widx) (s.enc.widx - 1#5)) := by
  rw [writeBit, if_neg h]

/-- WriteBit on the last bit of a word puts the full word, which stands in WACC meanwhile. -/
theorem writeBit_of_widx_eq (b : Bool) {s : State} (h : s.enc.widx = 0#5) :
    writeBit b s =
      (putWord (withBit b s.enc.wacc s.enc.widx) (s.setWriteBuffer (withBit b s.enc.wacc s.enc.widx) 0#5)).andThen
        fun _ t => .ok () (t.setWriteBuffer 0#32 31#5) := by
  rw [writeBit, if_pos h]

/-- PutWord when the sink refuses byte `k` of the word: the bytes before it are in the sink, no register has
changed (40_bitpacker.md R122). -/
theorem putWord_err (w : Word32) {k : Nat} {s : State} (hk : k < 4) (hr : RefusesByte s k) :
    ∃ t, putWord w s = .raise .ioSink t ∧ t.enc = s.enc ∧
      t.sinkBytes = s.sinkBytes ++ (beBytes 4 w.toNat).take k := by
  obtain ⟨haccepted, hrefused⟩ := hr
  refine ⟨_, sinkPutAll_err _ s k (by rwa [length_beBytes]) haccepted hrefused, rfl, ?_⟩
  simp only [State.sinkBytes, List.filterMap_append, filterMap_accepted]
  exact List.append_nil _

/-- Settles O24: the three outcomes by WIDX and by the sink's answers to the bytes of the word. -/
theorem writeBitAsStated : Obligations.WriteBitAsStated := by
  rintro b s acc rfl
  refine ⟨fun hpos => ?_, fun h0 hopen => ?_, fun k hk h0 haccepted hrefused => ?_⟩
  · exact writeBit_of_widx_ne b fun h0 => by simp [h0] at hpos
  · rw [writeBit_open b hopen, if_pos h0, beBytes_four]
    rfl
  · obtain ⟨t, hput, henc, hbytes⟩ := putWord_err (withBit b s.enc.wacc s.enc.widx)
      (s := s.setWriteBuffer (withBit b s.enc.wacc s.enc.widx) 0#5) hk ⟨haccepted, hrefused⟩
    rw [beBytes_four] at hbytes
    exact ⟨t, by rw [writeBit_of_widx_eq b h0, hput]; rfl, henc, hbytes⟩

/-- Settles O25 by `writeBit_writes`; that WriteBit moves only the sink gives the rest of the frame. -/
theorem writeBitAppendsOneBit : Obligations.WriteBitAppendsOneBit := by
  intro b s hclean hopen
  obtain ⟨t, hwrite, hbits, hclean', hopen', hrest⟩ := writeBit_writes b hclean hopen
  have hmoves : WriteStep s t := by simpa [hwrite] using writeBit_all b s
  exact ⟨t, hwrite, hbits, hclean', hopen', hrest, hmoves.ports.source, hmoves.ports.host⟩

/-- Settles O26: Flush as one state update, and the zero bits that complete the word. -/
theorem flushPadsTheLastWord : Obligations.FlushPadsTheLastWord := by
  intro s hopen
  refine ⟨fun hpartial => ?_, fun hempty => ?_, fun hclean hpartial => ?_⟩
  · rw [flush_open hopen, if_pos hpartial, beBytes_four]
    rfl
  · rw [flush_open hopen, if_neg (by simp [hempty])]
  · refine ⟨_, flush_open hopen, ?_⟩
    rw [writtenBits_flush hclean hopen (flush_open hopen), if_pos hpartial]

/-! ### The read side (40_bitpacker.md R125 to R128) -/

/-- The payload byte at the end of the source: 0, and the EOS taken sets SRC_EOS (40_bitpacker.md R125). -/
theorem getBytePadded_eos {s : State} (he : s.dec.srcEos = false) (h : s.ports.source.head?.getD .eos = .eos) :
    getBytePadded s = .ok 0#8 ((withSourceAnswers s [.eos] s.ports.source.tail).setSrcEos true) := by
  rw [getBytePadded, if_neg (by simp [he]), srcGet_eos h]
  rfl

/-- The loop of GetWordPadded at the end of the source: zeros are shifted in, after one EOS. -/
theorem getWordFrom_ended (n : Nat) (w : Word32) {s : State} (he : s.dec.srcEos = false)
    (h : s.ports.source.head?.getD .eos = .eos) :
    getWordFrom (n + 1) w s =
      .ok (BitVec.ofNat 32 (w.toNat * 2 ^ (8 * (n + 1))))
        ((withSourceAnswers s [.eos] s.ports.source.tail).setSrcEos true) := by
  rw [getWordFrom, getBytePadded_eos he h, Res.ok_andThen, getWordFrom_eos _ _ rfl]
  congr 1
  apply BitVec.eq_of_toNat_eq
  simpa using shiftIn_byte_step w 0#8 n 0

/-- GetWordPadded when the source ends after fewer than four bytes. -/
theorem getWordPadded_ends (bs : List Byte) {s : State} {rest : List SrcAnswer} (he : s.dec.srcEos = false)
    (hn : bs.length < 4) (h : s.ports.source = bs.map .byte ++ rest) (hrest : rest.head?.getD .eos = .eos) :
    getWordPadded s =
      .ok (BitVec.ofNat 32 (bigEndian bs * 2 ^ (8 * (4 - bs.length))))
        ((withSourceAnswers s (bs.map .byte ++ [.eos]) rest.tail).setSrcEos true) := by
  obtain ⟨m, hm⟩ : ∃ m, 4 = bs.length + (m + 1) := ⟨4 - bs.length - 1, by omega⟩
  rw [getWordPadded, hm, Nat.add_sub_cancel_left, getWordFrom_bytes bs _ _ he h,
    getWordFrom_ended m _ (s := withSourceAnswers s _ rest) he hrest, withSourceAnswers_source,
    withSourceAnswers_append]
  congr 1
  apply BitVec.eq_of_toNat_eq
  simp [Nat.mod_mul_mod]

/-- Settles O27: zeros once SRC_EOS is 1; otherwise by what follows the bytes that are there. -/
theorem getWordPaddedAsStated : Obligations.GetWordPaddedAsStated := by
  refine ⟨fun s he => ?_, fun s bs rest he hs => ⟨fun hfour => ?_, fun hfew heos => ?_, fun hfew herr => ?_⟩⟩
  · simpa [getWordPadded] using getWordFrom_eos 4 0#32 he
  · simpa [hfour, getWordPadded, getWordFrom] using getWordFrom_bytes bs 0 0#32 he hs
  · exact getWordPadded_ends bs he hfew hs heos
  · obtain ⟨more, rfl⟩ := List.head?_eq_some_iff.1 herr
    exact getWordFrom_err bs 0#32 he hfew hs

/-- ReadBit that needs a word when GetWordPadded raises: its fault, RBUF and RIDX untouched (40_bitpacker.md
R126). -/
theorem readBit_raise {s t : State} {c : Cause} (h : s.dec.ridx = 31#5) (hw : getWordPadded s = .raise c t) :
    readBit s = .raise c t := by
  rw [readBit, refill, if_pos h, hw]
  rfl

/-- GetWordPadded keeps RIDX (40_bitpacker.md R125). -/
theorem getWordPadded_ridx {s t : State} {w : Word32} (hw : getWordPadded s = .ok w t) :
    t.dec.ridx = s.dec.ridx := by
  have hpad : PadStep s t := by simpa [hw] using getWordPadded_all s
  exact hpad.ridx

/-- Settles O28: a buffered bit, a fetch that answers and a fetch that fails. -/
theorem readBitAsStated : Obligations.ReadBitAsStated :=
  fun _ => ⟨readBit_buffered, fun _ _ h hw => readBit_fetch h hw (getWordPadded_ridx hw),
    fun _ _ => readBit_raise⟩

/-- Settles O29 by `readBit_upcoming`; that ReadBit moves only the source gives the sink. -/
theorem readBitGivesThePayloadInOrder : Obligations.ReadBitGivesThePayloadInOrder := by
  intro s hopen
  obtain ⟨t, hread, hnext, hopen', hstep⟩ := readBit_upcoming hopen
  exact ⟨t, hread, hnext, hopen', hstep.rest, hstep.ports.sink⟩

end Sys2Proof.Machine
end

section
/-! PROOFS. The frequency table (41_frequency_table.md R142 to R152): counting, building, the header out and in, and
the symbol that ENC_SYM does not find or cannot narrow to. -/

namespace Sys2Proof.Machine

/-! ### A command by the outcome of its body (45_system.md R231) -/

theorem exec_of_body_ok {i : Instr} {s u : State} (hi : isSystem i = false) (ha : AcceptedWhen i s)
    (hb : bodyOf i s = .ok () u) : exec i s = .next (respond .ok 0#64 u) := by
  rw [exec_eq_settle hi (ha.phase_ne_fault hi) ha, hb, settle]

theorem exec_of_body_raise {i : Instr} {s u : State} {c : Cause} (hi : isSystem i = false) (ha : AcceptedWhen i s)
    (hb : bodyOf i s = .raise c u) : exec i s = .next (faultEntry c u) := by
  rw [exec_eq_settle hi (ha.phase_ne_fault hi) ha, hb, settle]

/-! ### FT_CLEAR (41_frequency_table.md R142) -/

theorem clearCounts_count (s : State) (b : Byte) : (clearCounts s).ft.count b = 0#64 := by
  simp [clearCounts, FreqTable.count]

/-- Settles O30: the body of FT_CLEAR always completes. -/
theorem ftClearEmptiesTheCounts : Obligations.FtClearEmptiesTheCounts := fun s hp =>
  ⟨_, exec_of_body_ok rfl hp rfl, clearCounts_count s, rfl, rfl, rfl, rfl, rfl, rfl, rfl, rfl, rfl, rfl, rfl⟩

/-! ### FT_COUNT (41_frequency_table.md R143) -/

theorem countBody_below {s : State} (sym : Byte) (h : s.ft.total.toNat < 2 ^ 64 - 1) :
    countBody sym s = .ok () { s with ft := s.ft.countSymbol sym } := by
  exact if_neg h.ne

theorem countBody_overflow {s : State} (sym : Byte) (h : s.ft.total.toNat = 2 ^ 64 - 1) :
    countBody sym s = .raise .counterOverflow s := by
  exact if_pos h

theorem countSymbol_total {f : FreqTable} (sym : Byte) (h : f.total.toNat < 2 ^ 64 - 1) :
    (f.countSymbol sym).total.toNat = f.total.toNat + 1 :=
  BitVec.toNat_add_of_lt (by simpa using Nat.add_lt_of_lt_sub h)

/-- Counting notes a symbol that had no count at the end of the first-seen list, and leaves the table alone. -/
theorem countSymbol_rest (f : FreqTable) (sym : Byte) :
    (f.countSymbol sym).ord =
        (if f.count sym = 0#64 then f.ord.setIfInBounds f.nseen.toNat sym else f.ord) ∧
      (f.countSymbol sym).nseen = (if f.count sym = 0#64 then f.nseen + 1#9 else f.nseen) ∧
      (f.countSymbol sym).tab = f.tab ∧ (f.countSymbol sym).tabN = f.tabN ∧
      (f.countSymbol sym).tabValid = f.tabValid := by
  simp only [FreqTable.countSymbol, FreqTable.setCount, FreqTable.noteFirstSeen]
  split <;> exact ⟨rfl, rfl, rfl, rfl, rfl⟩

/-- Settles O31, on the two sides of the overflow test. -/
theorem ftCountCountsOneSymbol : Obligations.FtCountCountsOneSymbol := by
  refine fun s sym hp => ⟨fun hlt => ?_, fun hmax => ?_⟩
  · obtain ⟨hord, hnseen, htab, htabN, hvalid⟩ := countSymbol_rest s.ft sym
    exact ⟨_, exec_of_body_ok rfl hp (countBody_below sym hlt), countSymbol_count s.ft sym,
      countSymbol_total sym hlt, hord, hnseen, htab, htabN, hvalid, hp, rfl, rfl, rfl, rfl⟩
  · exact ⟨_, exec_of_body_raise rfl hp (countBody_overflow sym hmax), rfl, rfl, rfl, rfl, rfl, rfl⟩

/-! ### FT_BUILD (41_frequency_table.md R144, R152) -/

theorem length_tableOrder {f : FreqTable} (h : f.nseen.toNat ≤ 256) : f.tableOrder.length = f.nseen.toNat := by
  rw [(tableOrder_perm f).length_eq, length_firstSeen h]

/-- Entry i after FT_BUILD: the i-th symbol in table order, its count, the sums before and after it. -/
theorem buildTable_entry {s : State} (hn : s.ft.nseen.toNat ≤ 256) (i : Nat) (hi : i < s.ft.tableOrder.length) :
    (buildTable s).ft.entry i =
      ⟨s.ft.tableOrder[i], s.ft.count s.ft.tableOrder[i],
        BitVec.ofNat 64 ((s.ft.tableOrder.take i).map fun b => (s.ft.count b).toNat).sum,
        BitVec.ofNat 64 ((s.ft.tableOrder.take (i + 1)).map fun b => (s.ft.count b).toNat).sum⟩ := by
  have h := fillTable_entry s.ft.tableOrder 0 0#64 s.ft i hi (by rw [length_tableOrder hn]; omega)
  rw [Nat.zero_add, BitVec.zero_add, BitVec.zero_add] at h
  exact h

/-- FT_BUILD writes no entry above its symbols. -/
theorem buildTable_entry_ge (s : State) {i : Nat} (hi : s.ft.tableOrder.length ≤ i) :
    (buildTable s).ft.entry i = s.ft.entry i :=
  fillTable_entry_ge s.ft.tableOrder 0 0#64 s.ft (by rwa [Nat.zero_add])

/-- Settles O32: the order is the model's `tableOrder`, and the loop's laws give the entries. -/
theorem ftBuildSortsAndAccumulates : Obligations.FtBuildSortsAndAccumulates := by
  intro s hp hn
  obtain ⟨hcnt, hord, hnseen, htotal⟩ := fillTable_rest s.ft.tableOrder 0 0#64 s.ft
  exact ⟨_, s.ft.tableOrder, exec_of_body_ok rfl hp rfl, tableOrder_perm s.ft, tableOrder_descending s.ft,
    tableOrder_stable s.ft, buildTable_entry hn, fun _ => buildTable_entry_ge s, rfl, rfl, rfl, hcnt, hord, hnseen,
    htotal, rfl, rfl, rfl, rfl⟩

/-- An FT_DES that ends in LOADED has completed its body (41_frequency_table.md R148). -/
theorem execFtDes_loaded {s t : State} (hp : s.phase = .idle) (h : exec .ftDes s = .next t)
    (ht : t.phase = .loaded) : ∃ u, deserialiseBody s = .ok () u ∧ t = respond .ok 0#64 u := by
  have hbody : exec .ftDes s = settle (deserialiseBody s) := exec_eq_settle rfl (by simp [hp]) hp
  rcases settle_eq_next.1 (hbody.symm.trans h) with hok | ⟨c, u, _, rfl⟩
  · exact hok
  · cases ht

/-- Settles O33: FT_BUILD by the counts, FT_DES by the header its completed body has read. -/
theorem tablesPartitionTheTotal : Obligations.TablesPartitionTheTotal := by
  refine ⟨fun s hp hcounts => ⟨_, exec_of_body_ok rfl hp rfl, buildTable_partition hcounts⟩,
    fun s t hp h ht => ?_⟩
  obtain ⟨u, hu, rfl⟩ := execFtDes_loaded hp h ht
  obtain ⟨_, _, _, _, _, _, hpart⟩ := deserialiseBody_inv hu
  exact hpart

/-! ### FT_SER (41_frequency_table.md R146) -/

/-- Settles O34: the body of FT_SER is the header's bytes, put in the sink one by one. -/
theorem ftSerWritesTheHeader : Obligations.FtSerWritesTheHeader := by
  rintro s hdr hp hn rfl
  refine ⟨by rw [length_headerOf, List.length_map, length_entries _ hn], fun hopen => ?_,
    fun k hk haccepted hrefused => ?_⟩
  · have hbody := serialiseBody_eq hn
    rw [sinkPutAll_ok _ s hopen, Res.ok_andThen] at hbody
    exact ⟨_, exec_of_body_ok rfl hp hbody, rfl, rfl, rfl, rfl, rfl, rfl⟩
  · have hbody := serialiseBody_eq hn
    rw [sinkPutAll_err _ s k hk haccepted hrefused, Res.raise_andThen] at hbody
    exact ⟨_, exec_of_body_raise rfl hp hbody, rfl, rfl, rfl, rfl, rfl, rfl, rfl, rfl, List.append_assoc ..⟩

/-! ### FT_DES of a well-formed header (41_frequency_table.md R148) -/

/-- Loading pairs leaves the counts and the first-seen list alone. -/
theorem fillPairs_counts (ps : List (Byte × Word64)) (i acc : Nat) (f : FreqTable) :
    (fillPairs ps i acc f).cnt = f.cnt ∧ (fillPairs ps i acc f).ord = f.ord ∧
      (fillPairs ps i acc f).nseen = f.nseen := by
  rw [fillPairs_rest]
  exact ⟨rfl, rfl, rfl⟩

/-- The entry of each pair of a header, with the sums of the counts before and after it. -/
theorem fillPairs_header_entry {pairs : List (Byte × Word64)} (hl : pairs.length ≤ 256) (f : FreqTable) (i : Nat)
    (hi : i < pairs.length) :
    (fillPairs pairs 0 0 f).entry i =
      ⟨pairs[i].1, pairs[i].2, BitVec.ofNat 64 (pairSum (pairs.take i)),
        BitVec.ofNat 64 (pairSum (pairs.take (i + 1)))⟩ := by
  simpa only [Nat.zero_add] using fillPairs_entry pairs 0 0 f i hi (by omega)

/-- Settles O35 by `deserialiseBody_fit`, which leaves the table that `fillPairs` fills. -/
theorem ftDesLoadsTheHeader : Obligations.FtDesLoadsTheHeader := by
  intro s total pairs rest hp hwf hs
  have hlen : pairs.length ≤ 256 := hwf.1
  have htabN : (BitVec.ofNat 9 pairs.length).toNat = pairs.length := by
    rw [BitVec.toNat_ofNat, Nat.mod_eq_of_lt (by omega)]
  obtain ⟨hcnt, hord, hnseen⟩ := fillPairs_counts pairs 0 0 s.ft
  exact ⟨_, exec_of_body_ok rfl hp (deserialiseBody_fit hwf hs), rfl, rfl, htabN, rfl,
    fillPairs_header_entry hlen s.ft, fun i hi => fillPairs_entry_ge pairs 0 0 s.ft (by omega), hcnt, hord, hnseen,
    rfl, rfl, rfl, rfl⟩

/-! ### FT_DES of a header that fails a check (41_frequency_table.md R148, R149) -/

/-- The answers consumed by FT_DES add up. -/
theorem withSourceAnswers_headerState (s : State) (total : Word64) (pairs : List (Byte × Word64))
    (as bs r r' : List SrcAnswer) :
    withSourceAnswers (headerState s total pairs as r) bs r' = headerState s total pairs (as ++ bs) r' := by
  simp [headerState, withSourceAnswers]

/-- A body that raises after the pairs that fit is an FT_DES that faults there. -/
theorem exec_ftDes_headerFault {s : State} {total : Word64} {pairs : List (Byte × Word64)}
    {consumed rest : List SrcAnswer} {c : Cause} (hp : s.phase = .idle) (hl : pairs.length ≤ 256)
    (hb : deserialiseBody s = .raise c (headerState s total pairs consumed rest)) :
    ∃ t, exec .ftDes s = .next t ∧ HeaderFault s t c total pairs consumed rest :=
  ⟨_, exec_of_body_raise rfl hp hb, headerState_fault hl⟩

/-- An alphabet_count above 256. -/
theorem deserialiseBody_alphaRange {s : State} {total : Word64} {n : BitVec 16} {rest : List SrcAnswer}
    (hn : 256 < n.toNat) (hs : s.ports.source = (headerStart total n []).map .byte ++ rest) :
    deserialiseBody s =
      .raise .hdrAlphaRange (headerState s total [] ((headerStart total n []).map .byte) rest) := by
  rw [deserialiseBody_start hs, if_pos hn]

section
variable {s : State} {total : Word64} {n : BitVec 16} {pairs : List (Byte × Word64)} {rest : List SrcAnswer}
  (hn : n.toNat ≤ 256) (hpass : PairsPass total pairs)
include hn hpass

/-- FT_DES with a pair still to come: the rest of the loop starts with that pair. -/
theorem deserialiseBody_next_pair (hl : pairs.length < n.toNat)
    (hs : s.ports.source = (headerStart total n pairs).map .byte ++ rest) :
    ∃ (k : Nat) (f : Nat → State → Res Unit), deserialiseBody s =
      (loadPairs (k + 1) pairs.length (pairSum pairs) total.toNat
        (headerState s total pairs ((headerStart total n pairs).map .byte) rest)).andThen f :=
  ⟨n.toNat - pairs.length - 1, _, by
    rw [deserialiseBody_pairs hn hpass hl.le hs, Nat.sub_add_cancel (Nat.sub_pos_of_lt hl)]⟩

/-- A pair that is cut short. -/
theorem deserialiseBody_cut_pair {bs : List Byte} {a : SrcAnswer} {c : Cause} (hl : pairs.length < n.toNat)
    (hb : bs.length < 9) (ha : rest.headD .eos = a) (hc : a = .eos ∧ c = .hdrTruncated ∨ a = .err ∧ c = .ioSource)
    (hs : s.ports.source = (headerStart total n pairs ++ bs).map .byte ++ rest) :
    deserialiseBody s =
      .raise c (headerState s total pairs ((headerStart total n pairs ++ bs).map .byte ++ [a]) rest.tail) := by
  rw [List.map_append, List.append_assoc] at hs
  obtain ⟨k, f, hbody⟩ := deserialiseBody_next_pair hn hpass hl hs
  rw [hbody, loadPairs_cut rfl hb ha hc, Res.raise_andThen, withSourceAnswers_headerState, List.map_append,
    List.append_assoc]

/-- A pair that fails one of its three checks. -/
theorem deserialiseBody_bad_pair {p : Byte × Word64} {c : Cause} (hl : pairs.length < n.toNat)
    (hs : s.ports.source = (headerStart total n (pairs ++ [p])).map .byte ++ rest)
    (hc : p.2 = 0#64 ∧ c = .hdrZeroCount ∨ p.2 ≠ 0#64 ∧ p.1 ∈ pairs.map Prod.fst ∧ c = .hdrDupSymbol ∨
      p.2 ≠ 0#64 ∧ p.1 ∉ pairs.map Prod.fst ∧ total.toNat < pairSum pairs + p.2.toNat ∧ c = .hdrSumMismatch) :
    deserialiseBody s =
      .raise c (headerState s total pairs ((headerStart total n (pairs ++ [p])).map .byte) rest) := by
  have hstart : headerStart total n (pairs ++ [p]) = headerStart total n pairs ++ pairBytes p := by
    rw [headerStart_append, List.flatMap_singleton]
  rw [hstart, List.map_append, List.append_assoc] at hs
  obtain ⟨k, f, hbody⟩ := deserialiseBody_next_pair hn hpass hl hs
  rw [hbody, loadPairs_succ rfl, withSourceAnswers_headerState, loadPair_raise (f := s.ft) (by omega) rfl hc,
    Res.raise_andThen, Res.raise_andThen, hstart, List.map_append]

/-- A sum below total_symbols after the last pair. -/
theorem deserialiseBody_low_sum (hl : pairs.length = n.toNat) (hsum : pairSum pairs < total.toNat)
    (hs : s.ports.source = (headerStart total n pairs).map .byte ++ rest) :
    deserialiseBody s =
      .raise .hdrSumMismatch (headerState s total pairs ((headerStart total n pairs).map .byte) rest) := by
  rw [deserialiseBody_pairs hn hpass hl.le hs, ← hl, Nat.sub_self, loadPairs, Res.ok_andThen, if_neg hsum.ne]

end

/-- Settles O59, check by check in the order FT_DES makes them. -/
theorem ftDesRaisesTheFirstFailingCheck : Obligations.FtDesRaisesTheFirstFailingCheck := by
  intro s total n pairs rest hp
  have noPairs : ([] : List (Byte × Word64)).length ≤ 256 := Nat.zero_le _
  refine ⟨fun bs a c ha hc => ⟨fun hb hs => ?_, fun hb hs => ?_, fun hn hpass hl hb hs => ?_⟩, fun hn hs => ?_,
    fun p c hn hpass hl hs hc => ?_, fun hn hpass hl hsum hs => ?_⟩
  · exact exec_ftDes_headerFault hp noPairs (deserialiseBody_cut_total hs hb ha hc)
  · exact exec_ftDes_headerFault hp noPairs (deserialiseBody_cut_count hs hb ha hc)
  · exact exec_ftDes_headerFault hp (hl.le.trans hn) (deserialiseBody_cut_pair hn hpass hl hb ha hc hs)
  · exact exec_ftDes_headerFault hp noPairs (deserialiseBody_alphaRange hn hs)
  · exact exec_ftDes_headerFault hp (hl.le.trans hn) (deserialiseBody_bad_pair hn hpass hl hs hc)
  · exact exec_ftDes_headerFault hp (hl.le.trans hn) (deserialiseBody_low_sum hn hpass hl hsum hs)

/-! ### ENC_SYM before any write (41_frequency_table.md R150; 42_interval.md R173) -/

theorem encodeBody_not_in_table {s : State} {sym : Byte} (h : ∀ e ∈ s.ft.entries, e.sym ≠ sym) :
    encodeBody sym s = .raise .symNotInTable s := by
  rw [encodeBody, lookupSym_none h]

theorem encodeEntry_zero_range {s : State} {e : TabEntry}
    (h : scaled s.enc.range e.high s.ft.total - scaled s.enc.range e.low s.ft.total = 0) :
    encodeEntry e s = .raise .zeroRange s := by
  rw [encodeEntry, narrow_eq_none_iff.2 h]

/-- Settles O45: the look-up and Narrow raise in the state the command started in. -/
theorem encSymFaultsBeforeAnyWrite : Obligations.EncSymFaultsBeforeAnyWrite := by
  refine fun s sym hp hcount => ⟨fun hmissing => ?_, fun e he htable hsym hzero => ?_⟩
  · exact ⟨_, exec_of_body_raise rfl ⟨hp, hcount⟩ (encodeBody_not_in_table hmissing), rfl, rfl, rfl, rfl, rfl, rfl⟩
  · have hbody : encodeBody sym s = .raise .zeroRange s := by
      rw [encodeBody, ← hsym, htable.lookupSym_eq he]
      exact encodeEntry_zero_range hzero
    exact ⟨_, exec_of_body_raise rfl ⟨hp, hcount⟩ hbody, rfl, rfl, rfl, rfl, rfl, rfl⟩

end Sys2Proof.Machine
end

section
/-! PROOFS. The interval arithmetic (42_interval.md R173 to R179): Narrow, Classify, Rescale and the number
of passes. -/

namespace Sys2Proof.Machine

/-! ### Narrow (42_interval.md R173, R179) -/

/-- Settles O37: the exact values are those of `narrow_inside`; the rest compares the two offsets with 0 and Range. -/
theorem narrowStaysInside : Obligations.NarrowStaysInside := by
  intro l r low high total hlh hht hi
  refine ⟨narrow_eq_none_iff, fun l' r' h => ?_⟩
  obtain ⟨hl', hr', ⟨hpos, -, -⟩, hend⟩ := narrow_inside hlh.le hht hi h
  have hhigh : scaled r high total ≤ r.toNat := scaled_le r hht
  refine ⟨hl', hr', hpos, by omega, by omega, by omega, fun htop => ?_, fun hlow => ?_⟩
  · subst htop
    rw [hend, scaled_total r (by omega)]
  · subst hlow
    exact BitVec.eq_of_toNat_eq (by rw [hl', scaled_zero, Nat.add_zero])

/-- Settles O38: a settled Range is at least TOTAL, so the two offsets differ. -/
theorem noZeroRangeBelowTheBound : Obligations.NoZeroRangeBelowTheBound := by
  rintro l r low high total hlh hht ⟨hsettled, -, -⟩ hbound
  have htotal : total.toNat ≤ r.toNat := hbound.trans hsettled
  exact ⟨_, _, narrow_of_pos (Nat.sub_pos_of_lt (scaled_strict hlh (by omega) htotal))⟩

/-! ### Classify and Rescale (42_interval.md R174, R175) -/

theorem caseOf_eq_e1_iff {l r : Nat} : caseOf l r = .e1 ↔ l + r ≤ 2 ^ 31 := by
  unfold caseOf
  split
  · exact iff_of_true rfl ‹_›
  · exact iff_of_false (by split <;> simp) ‹_›

theorem caseOf_eq_e2_iff {l r : Nat} (h1 : 1 ≤ r) : caseOf l r = .e2 ↔ 2 ^ 31 ≤ l := by
  unfold caseOf
  split
  · exact iff_of_false (by simp) (by omega)
  · split
    · exact iff_of_true rfl ‹_›
    · exact iff_of_false (by simp) ‹_›

theorem caseOf_eq_e3_iff {l r : Nat} : caseOf l r = .e3 ↔ 2 ^ 31 < l + r ∧ l < 2 ^ 31 := by
  refine ⟨caseOf_e3, fun ⟨hsum, hl⟩ => ?_⟩
  rw [caseOf, if_neg (by omega), if_neg (by omega)]

/-- Settles O39: the cases over natural numbers, where R <= Q bounds Lower below and the sum above in E3. -/
theorem classifyBoundaries : Obligations.ClassifyBoundaries := by
  intro l r h1 hq
  rw [classify_eq_caseOf]
  refine ⟨caseOf_eq_e1_iff, caseOf_eq_e2_iff h1, ?_, fun h => ?_⟩
  · rw [caseOf_eq_e3_iff]
    omega
  · obtain ⟨-, hl⟩ := caseOf_e3 h
    omega

/-- Settles O40: `caseOf_bounds` for the subtraction, `rescale_exact` for the two registers. -/
theorem rescaleIsExact : Obligations.RescaleIsExact := by
  intro l r h1 hq hsum
  have hok : IntervalOk l r := ⟨h1, hq.trans (by decide), hsum⟩
  obtain ⟨hoff, -⟩ := caseOf_bounds hq hsum
  obtain ⟨hlower, hrange⟩ := rescale_exact hq h1 hsum
  exact ⟨hoff, offset_toNat _, hlower, hrange, rescale_intervalOk hq hok⟩

/-! ### The number of passes (42_interval.md R176) -/

/-- At most 31 passes, the least number that doubles Range above 2^30, make the Range the loop leaves. -/
theorem renorm_range_eq {l r l' r' : Nat} (h1 : 1 ≤ r) (h : (renorm 31 l r).2 = (l', r')) :
    ∃ k ≤ 31, r' = r * 2 ^ k ∧ ∀ j < k, r * 2 ^ j ≤ 2 ^ 30 := by
  obtain ⟨k, hk, -, hrange, -, hleast⟩ := renorm_passes (n := 31) (l := l) h1 (by omega)
  rw [h] at hrange
  exact ⟨k, hk, hrange, hleast⟩

/-- Settles O41: each engine's loop leaves the interval of the loop over natural numbers, and a settled one. -/
theorem renormalisationPassCount : Obligations.RenormalisationPassCount := by
  refine ⟨fun s t hi h => ?_, fun s t hi h => ?_⟩
  · obtain ⟨k, hk, hrange, hleast⟩ := renorm_range_eq hi.1 (encLoop_ok hi h).1
    exact ⟨k, hk, hrange, hleast, encLoop_settled hi h⟩
  · obtain ⟨k, hk, hrange, hleast⟩ := renorm_range_eq hi.1 (decLoop_ok hi h)
    exact ⟨k, hk, hrange, hleast, decLoop_settled hi h⟩

end Sys2Proof.Machine
end

section
/-! PROOFS. The encoder (43_encoder.md R190 to R197): ENC_INIT, Emit, ENC_SYM with a sink that takes its bits, with one
that refuses a byte and with a full counter, ENC_FIN, and the code point its trailer spells. -/

namespace Sys2Proof.Machine

theorem Res.All.of_ok {α : Type} {P : State → Prop} {Q : Cause → Prop} {r : Res α} {a : α} {t : State}
    (h : r.All P Q) (hr : r = .ok a t) : P t := by
  rwa [hr] at h

theorem Res.All.of_raise {α : Type} {P : State → Prop} {Q : Cause → Prop} {r : Res α} {c : Cause} {t : State}
    (h : r.All P Q) (hr : r = .raise c t) : P t := by
  rw [hr] at h
  exact h.1

/-! ### ENC_INIT (43_encoder.md R190) -/

/-- Settles O42: the body of ENC_INIT always completes. -/
theorem encInitStartsTheEncoder : Obligations.EncInitStartsTheEncoder := fun _ hp =>
  ⟨_, exec_of_body_ok rfl hp rfl, rfl, rfl, rfl, rfl, rfl, rfl, rfl, rfl, rfl, rfl, rfl⟩

/-! ### Emit (43_encoder.md R191) -/

/-- Settles O43 by `emit_writes`; that Emit moves only the sink gives the frame. -/
theorem emitWritesTheFollowBits : Obligations.EmitWritesTheFollowBits := by
  intro b s hclean hopen
  obtain ⟨t, ht, hwritten, hopen'⟩ := emit_writes b hclean hopen
  have hstep : BitsStep s t := (emit_all b s).of_ok ht
  have hpend : t.enc.pend = 0#64 := emit_pend ht
  have hrest := hstep.rest
  rw [hpend] at hrest
  exact ⟨t, ht, hwritten, hpend, emit_clean hclean ht, hopen', hrest, hstep.ports.source, hstep.ports.host⟩

/-! ### The loop and the trailer with a sink that takes their bits (43_encoder.md R192, R195) -/

theorem Wrote.sinkTakes {bits : List Bool} {m m' n : Nat} {s t : State} (h : Wrote bits m m' s t)
    (hn : bits.length + n ≤ bitsBefore s m) : SinkTakes t n :=
  .inr ⟨m', h.refuses, by have := h.room; omega⟩

/-- `encLoop_writes` and `encLoop_taken` together. -/
theorem encLoop_sinkTakes {n : Nat} {s : State} (hn : n ≤ 31) (hi : IntervalOk s.enc.lower s.enc.range)
    (hc : WriteSideClean s.enc)
    (hp : s.enc.pend.toNat +
      ((renorm n s.enc.lower.toNat s.enc.range.toNat).1.takeWhile (· == .e3)).length < 2 ^ 64)
    (h : SinkTakes s (passBits (renorm n s.enc.lower.toNat s.enc.range.toNat).1 s.enc.pend.toNat).1.length) :
    ∃ t, encLoop n s = .ok () t ∧ writtenBits t = writtenBits s ++
      (passBits (renorm n s.enc.lower.toNat s.enc.range.toNat).1 s.enc.pend.toNat).1 := by
  rcases h with hopen | ⟨m, hrefuses, hroom⟩
  · obtain ⟨t, ht, hwritten, -⟩ := encLoop_writes hn hi hc hopen hp
    exact ⟨t, ht, hwritten⟩
  · obtain ⟨t, m', ht, hwrote⟩ := encLoop_taken hn hi hc hrefuses hp hroom
    exact ⟨t, ht, hwrote.written⟩

/-- Emit for a nonempty list of bits, with a sink that takes them and `n` bits more. -/
theorem emitAll_sinkTakes (b : Bool) (bs : List Bool) {n : Nat} {s : State} (hc : WriteSideClean s.enc)
    (h : SinkTakes s ((resolvedBits s.enc.pend.toNat b ++ bs).length + n)) :
    ∃ t, emitAll (b :: bs) s = .ok () t ∧
      writtenBits t = writtenBits s ++ (resolvedBits s.enc.pend.toNat b ++ bs) ∧ SinkTakes t n := by
  rcases h with hopen | ⟨m, hrefuses, hroom⟩
  · obtain ⟨u, hu, hwu, hopenu⟩ := emit_writes b hc hopen
    obtain ⟨t, ht, hwt, hopent, -⟩ := emitAll_writes bs (emit_clean hc hu) hopenu (emit_pend hu)
    exact ⟨t, by rw [emitAll, hu]; exact ht, by rw [hwt, hwu, List.append_assoc], .inl hopent⟩
  · have hbits : bs.length + s.enc.pend.toNat < bitsBefore s m := by
      rw [List.length_append, length_resolvedBits] at hroom
      omega
    obtain ⟨t, m', ht, hwrote⟩ := emitAll_taken b bs hrefuses hc hbits
    exact ⟨t, ht, hwrote.written, hwrote.sinkTakes hroom⟩

/-! ### ENC_SYM as a loop (43_encoder.md R192) -/

/-- `s` with the encoder's interval narrowed to the entry `e` (42_interval.md R173). -/
def State.narrowedTo (e : TabEntry) (s : State) : State :=
  s.setEncInterval (BitVec.ofNat 32 (s.enc.lower.toNat + scaled s.enc.range e.low s.ft.total))
    (BitVec.ofNat 32 (scaled s.enc.range e.high s.ft.total - scaled s.enc.range e.low s.ft.total))

section
variable {s : State} {e : TabEntry} (htable : TablePartition s.ft) (he : e ∈ s.ft.entries)
  (hpos : 0 < scaled s.enc.range e.high s.ft.total - scaled s.enc.range e.low s.ft.total)
include htable he hpos

/-- The narrowed registers hold the exact numbers (42_interval.md R173, R177). -/
theorem narrowedTo_interval (hi : IntervalOk s.enc.lower s.enc.range) :
    (s.narrowedTo e).enc.lower.toNat = s.enc.lower.toNat + scaled s.enc.range e.low s.ft.total ∧
      (s.narrowedTo e).enc.range.toNat =
        scaled s.enc.range e.high s.ft.total - scaled s.enc.range e.low s.ft.total ∧
      IntervalOk (s.narrowedTo e).enc.lower (s.narrowedTo e).enc.range := by
  obtain ⟨hlh, hht⟩ := htable.mem he
  obtain ⟨hl, hr, hok, -⟩ := narrow_inside hlh.le hht hi (narrow_of_pos hpos)
  exact ⟨hl, hr, hok⟩

/-- A symbol of the table whose narrowed Range is not 0 goes through to the loop. -/
theorem encodeBody_eq_encLoop :
    encodeBody e.sym s = (encLoop 31 (s.narrowedTo e)).andThen fun _ t => .ok () t.countEncoded := by
  have hentry : encodeEntry e s = (encLoop 31 (s.narrowedTo e)).andThen fun _ t => .ok () t.countEncoded := by
    rw [encodeEntry, narrow_of_pos hpos]
    rfl
  rw [encodeBody, htable.lookupSym_eq he]
  exact hentry

theorem exec_encSym_of_encLoop_ok {u : State} (ha : AcceptedWhen (.encSym e.sym) s)
    (h : encLoop 31 (s.narrowedTo e) = .ok () u) :
    exec (.encSym e.sym) s = .next (respond .ok 0#64 u.countEncoded) := by
  refine exec_of_body_ok rfl ha ?_
  rw [bodyOf, encodeBody_eq_encLoop htable he hpos, h, Res.ok_andThen]

theorem exec_encSym_of_encLoop_raise {u : State} {c : Cause} (ha : AcceptedWhen (.encSym e.sym) s)
    (h : encLoop 31 (s.narrowedTo e) = .raise c u) :
    exec (.encSym e.sym) s = .next (faultEntry c u) := by
  refine exec_of_body_raise rfl ha ?_
  rw [bodyOf, encodeBody_eq_encLoop htable he hpos, h, Res.raise_andThen]

end

/-- Settles O46: `encLoop_overflow` from the narrowed interval. -/
theorem encSymFaultsAtTheCounterLimit : Obligations.EncSymFaultsAtTheCounterLimit := by
  rintro s sym e cs l r hp hcount htable hsettled he rfl hpos hrenorm hfull
  obtain ⟨hl, hr, hok⟩ := narrowedTo_interval htable he hpos hsettled.ok
  rw [← hl, ← hr] at hrenorm ⊢
  obtain ⟨l', r', hloop, hinterval⟩ := encLoop_overflow (n := 31) hok (by rw [hrenorm]; exact hfull)
  exact ⟨_, exec_encSym_of_encLoop_raise htable he hpos ⟨hp, hcount⟩ hloop, rfl, rfl, hinterval, rfl, rfl, rfl, rfl,
    rfl⟩

theorem PassStep.frame {s t : State} (h : PassStep s t) :
    t.phase = s.phase ∧ t.fcause = s.fcause ∧ t.ft = s.ft ∧ t.dec = s.dec ∧ t.enc.count = s.enc.count := by
  rw [h.rest]
  exact ⟨rfl, rfl, rfl, rfl, rfl⟩

/-- Settles O44: the loop from the narrowed interval, completed where the sink takes its bits, stopped in one of its
passes where the sink refuses a byte. -/
theorem encSymEncodesOneSymbol : Obligations.EncSymEncodesOneSymbol := by
  rintro s sym e cs l r hp hcount htable hsettled hclean he rfl hpos hrenorm hpend
  obtain ⟨hl, hr, hok⟩ := narrowedTo_interval htable he hpos hsettled.ok
  rw [← hl, ← hr] at hrenorm ⊢
  have hfits : (s.narrowedTo e).enc.pend.toNat + ((renorm 31 (s.narrowedTo e).enc.lower.toNat
      (s.narrowedTo e).enc.range.toNat).1.takeWhile (· == .e3)).length < 2 ^ 64 := by
    rw [hrenorm]
    exact hpend
  refine ⟨fun htakes => ?_, fun m hrefuses hroom => ?_⟩
  · obtain ⟨u, hu, hwritten⟩ := encLoop_sinkTakes le_rfl hok hclean hfits (by rw [hrenorm]; exact htakes)
    obtain ⟨hinterval, hpendu, hcleanu⟩ := encLoop_ok hok hu
    have hsettledu : IntervalSettled u.enc.lower u.enc.range := encLoop_settled hok hu
    have hstep : PassStep (s.narrowedTo e) u := (encLoop_all 31 _).of_ok hu
    obtain ⟨hphase, hfcause, hft, hdec, hcountu⟩ := hstep.frame
    rw [hrenorm] at hwritten hinterval hpendu
    obtain ⟨rfl, rfl⟩ := Prod.mk.inj hinterval
    have hcount' : (u.enc.count + 1#64).toNat = s.enc.count.toNat + 1 := by
      have := s.ft.total.isLt
      rw [show u.enc.count = s.enc.count from hcountu]
      exact BitVec.toNat_add_of_lt (show s.enc.count.toNat + 1 < 2 ^ 64 by omega)
    exact ⟨_, exec_encSym_of_encLoop_ok htable he hpos ⟨hp, hcount⟩ hu, rfl, rfl, hpendu, hcount',
      (respond_writtenBits _ _ _).trans hwritten, hcleanu hclean, hsettledu, hphase.trans hp, hft, hdec,
      hfcause, hstep.ports.source, hstep.ports.host,
      (respond_responses _ _ _).trans (congrArg (· ++ _) hstep.ports.responses)⟩
  · obtain ⟨u, done, c, left, j, hu, hcs, hne, hbits, hj, hinterval, hpendu, hwidx, hstopped⟩ :=
      encLoop_refused (m := m) le_rfl hok hclean hrefuses hfits (by rw [hrenorm]; exact hroom)
    have hstep : PassStep (s.narrowedTo e) u := (encLoop_all 31 _).of_raise hu
    obtain ⟨-, -, hft, hdec, hcountu⟩ := hstep.frame
    rw [hrenorm] at hcs hstopped
    exact ⟨_, done, c, left, j, exec_encSym_of_encLoop_raise htable he hpos ⟨hp, hcount⟩ hu, hcs, hne, hbits, hj,
      hinterval, hpendu, hcountu, hwidx, hstopped.atByte hft hdec hstep.ports⟩

/-! ### ENC_FIN (43_encoder.md R195, R197) -/

/-- Settles O48: m * 2^30 is less than 2^30 above Lower, and a settled Range is more than 2^30. -/
theorem codePointInsideTheFinalInterval : Obligations.CodePointInsideTheFinalInterval := by
  intro l r hsettled
  have hbounds : l.toNat ≤ quarterCeil l * 2 ^ 30 ∧ quarterCeil l * 2 ^ 30 < l.toNat + 2 ^ 30 := by
    unfold quarterCeil
    omega
  have hrange : 2 ^ 30 < r.toNat := hsettled.1
  rw [codePoint_eq]
  exact ⟨quarterCeil_le hsettled, rfl, hbounds.1, by omega, trailer_eq l⟩

theorem trailerBitsFor_eq (m k : Nat) :
    trailerBitsFor m k = resolvedBits k (m.testBit 1) ++ m.testBit 0 :: List.replicate 6 false := by
  rw [trailerBitsFor, List.append_assoc, List.singleton_append]

theorem length_trailerBitsFor (m k : Nat) : (trailerBitsFor m k).length = 8 + k := by
  rw [trailerBitsFor_eq, List.length_append, length_resolvedBits, List.length_cons, List.length_replicate]
  omega

/-- After bits that put whole words in the sink, WIDX has moved by their number (10_state.md R30). -/
theorem waiting_mod_word {s t : State} {bits : List Bool} (hw : writtenBits t = writtenBits s ++ bits)
    (hwords : t.sinkBytes.length % 4 = s.sinkBytes.length % 4) :
    31 - t.enc.widx.toNat = ((31 - s.enc.widx.toNat) + bits.length) % 32 := by
  have hlength := congrArg List.length hw
  rw [List.length_append, length_writtenBits, length_writtenBits] at hlength
  omega

/-- A completed Flush leaves the buffer empty (40_bitpacker.md R123); one with WIDX = 31 was empty already. -/
theorem flush_enc {s t : State} (hc : WriteSideClean s.enc) (h : flush s = .ok () t) :
    t.enc = { s.enc with wacc := 0#32, widx := 31#5 } := by
  unfold flush at h
  split at h
  · obtain ⟨_, u, hu, ht⟩ := Res.andThen_eq_ok.1 h
    obtain rfl : _ = t := by simpa using ht
    have hstep : SinkStep s u := (putWord_all _ s).of_ok hu
    rw [State.setWriteBuffer_enc, hstep.rest]
  · rename_i hfull
    obtain rfl : s = t := by simpa using h
    have hx : s.enc.widx = 31#5 := widx_full hfull
    have ha : s.enc.wacc = 0#32 := by
      have hmod : s.enc.wacc.toNat % 2 ^ 32 = 0 := by rwa [WriteSideClean, hx] at hc
      exact BitVec.eq_of_toNat_eq ((Nat.mod_eq_of_lt s.enc.wacc.isLt).symm.trans hmod)
    rw [← hx, ← ha]

/-- Flush completes with a sink that takes the `pad` zeros it writes (40_bitpacker.md R123). -/
theorem flush_sinkTakes {pad : Nat} {s : State} (hc : WriteSideClean s.enc)
    (hpad : pad = (s.enc.widx.toNat + 1) % 32) (h : SinkTakes s pad) :
    ∃ t, flush s = .ok () t ∧ writtenBits t = writtenBits s ++ List.replicate pad false := by
  have hlt := s.enc.widx.isLt
  by_cases hw : s.enc.widx.toNat < 31
  · obtain rfl : pad = s.enc.widx.toNat + 1 := by omega
    rcases h with hopen | ⟨m, hrefuses, hroom⟩
    · exact ⟨_, flush_open hopen, by rw [writtenBits_flush hc hopen (flush_open hopen), if_pos hw]⟩
    · obtain ⟨t, m', ht, hwrote⟩ := flush_taken hrefuses hc hw hroom
      exact ⟨t, ht, hwrote.written⟩
  · obtain rfl : pad = 0 := by omega
    exact ⟨s, by rw [flush, if_neg hw], by simp⟩

theorem FinStep.frame {s t : State} (h : FinStep s t) : t.fcause = s.fcause ∧ t.ft = s.ft ∧ t.dec = s.dec := by
  rw [h.rest]
  exact ⟨rfl, rfl, rfl⟩

/-- The first Emit clears the counter, and the others leave it clear (43_encoder.md R191). -/
theorem emitAll_pend {b : Bool} {bs : List Bool} {s t : State} (h : emitAll (b :: bs) s = .ok () t) :
    t.enc.pend = 0#64 := by
  induction bs generalizing b s with
  | nil =>
    obtain ⟨_, u, hu, ht⟩ := Res.andThen_eq_ok.1 h
    obtain rfl : u = t := by simpa [emitAll] using ht
    exact emit_pend hu
  | cons c bs ih =>
    obtain ⟨_, u, _, ht⟩ := Res.andThen_eq_ok.1 h
    exact ih ht

/-- ENC_FIN of a nonempty input: Emit for the bits of the trailer, then Flush (43_encoder.md R195). -/
theorem finishBody_of_pos {s : State} (h : 0 < s.ft.total.toNat) :
    finishBody s =
      (emitAll ((quarterCeil s.enc.lower).testBit 1 :: (quarterCeil s.enc.lower).testBit 0 ::
        List.replicate 6 false) s).andThen fun _ t =>
      (flush t).andThen fun _ u => .ok () { u with phase := .idle } := by
  rw [finishBody, if_pos h, trailer_eq]

/-- ENC_FIN of the empty input leaves an empty buffer as it is (43_encoder.md R195). -/
theorem finishBody_of_zero {s : State} (h : s.ft.total.toNat = 0) (hx : s.enc.widx = 31#5) :
    finishBody s = .ok () { s with phase := .idle } := by
  have hflush : flush s = .ok () s := by rw [flush, hx, if_neg (by decide)]
  rw [finishBody, if_neg (by omega), emitAll, Res.ok_andThen, hflush, Res.ok_andThen]

section
variable {s : State} {pad : Nat} {bits : List Bool} (hclean : WriteSideClean s.enc) (htotal : 0 < s.ft.total.toNat)
  (hpad : pad < 32) (hwhole : ((31 - s.enc.widx.toNat) + (8 + s.enc.pend.toNat) + pad) % 32 = 0)
  (hbits : bits = trailerBitsFor (quarterCeil s.enc.lower) s.enc.pend.toNat ++ List.replicate pad false)
include hclean htotal hpad hwhole hbits

/-- The body of ENC_FIN where the sink takes the trailer and the padding (43_encoder.md R195). -/
theorem finishBody_sinkTakes (h : SinkTakes s bits.length) :
    ∃ t, finishBody s = .ok () t ∧ t.phase = .idle ∧
      t.enc = { s.enc with pend := 0#64, wacc := 0#32, widx := 31#5 } ∧ writtenBits t = writtenBits s ++ bits := by
  subst hbits
  rw [List.length_append, List.length_replicate] at h
  obtain ⟨u, hu, hwu, htakes⟩ := emitAll_sinkTakes _ _ hclean (by rwa [trailerBitsFor_eq] at h)
  rw [← trailerBitsFor_eq] at hwu
  have hwaiting := waiting_mod_word hwu (emitAll_words hu)
  rw [length_trailerBitsFor] at hwaiting
  have hcleanu : WriteSideClean u.enc := emitAll_clean hclean hu
  have hstep : BitsStep s u := (emitAll_all _ s).of_ok hu
  obtain ⟨v, hv, hwv⟩ := flush_sinkTakes hcleanu (by have := u.enc.widx.isLt; omega) htakes
  have hpend : u.enc.pend = 0#64 := emitAll_pend hu
  refine ⟨{ v with phase := .idle }, by rw [finishBody_of_pos htotal, hu, Res.ok_andThen, hv, Res.ok_andThen], rfl,
    ?_, ?_⟩
  · rw [← hpend, flush_enc hcleanu hv, hstep.rest]
  · rw [← List.append_assoc, ← hwu]
    exact hwv

/-- The body of ENC_FIN where the sink refuses byte `k` (40_bitpacker.md R121, R123; 43_encoder.md R191): a trailer bit
fills its word, or Flush was putting it. -/
theorem finishBody_refused {k : Nat} (hrefuses : RefusesByte s k) (h : bitsBefore s k < bits.length) :
    ∃ t, finishBody s = .raise .ioSink t ∧ t.enc.pend.toNat = s.enc.pend.toNat - (bitsBefore s k - 1) ∧
      t.enc.widx.toNat =
        (if bitsBefore s k < 8 + s.enc.pend.toNat then 0
         else 31 - ((31 - s.enc.widx.toNat) + (8 + s.enc.pend.toNat)) % 32) ∧ Stopped bits k s t := by
  subst hbits
  rw [List.length_append, List.length_replicate, length_trailerBitsFor] at h
  by_cases hroom : bitsBefore s k < 8 + s.enc.pend.toNat
  · obtain ⟨t, ht, hstopped, hwidx, hpend⟩ := emitAll_refused ((quarterCeil s.enc.lower).testBit 1)
      ((quarterCeil s.enc.lower).testBit 0 :: List.replicate 6 false) hrefuses hclean
      (by rw [List.length_cons, List.length_replicate]; omega)
    rw [← trailerBitsFor_eq] at hstopped
    refine ⟨t, by rw [finishBody_of_pos htotal, ht, Res.raise_andThen], hpend, by rw [if_pos hroom, hwidx]; rfl,
      hstopped.append _ (by rwa [length_trailerBitsFor])⟩
  · obtain ⟨u, m, hu, hwrote⟩ := emitAll_taken ((quarterCeil s.enc.lower).testBit 1)
      ((quarterCeil s.enc.lower).testBit 0 :: List.replicate 6 false) hrefuses hclean
      (by rw [List.length_cons, List.length_replicate]; omega)
    rw [← trailerBitsFor_eq] at hwrote
    have hwaiting := waiting_mod_word hwrote.written (emitAll_words hu)
    have hleft := hwrote.room
    rw [length_trailerBitsFor] at hwaiting hleft
    have hlt := u.enc.widx.isLt
    obtain ⟨t, ht, hstopped, henc⟩ := flush_refused hwrote.refuses hwrote.clean (by omega) (by omega)
    have hzeros : u.enc.widx.toNat + 1 = pad := by omega
    have hpend : u.enc.pend = 0#64 := emitAll_pend hu
    rw [hzeros] at hstopped
    refine ⟨t, by rw [finishBody_of_pos htotal, hu, Res.ok_andThen, ht, Res.raise_andThen], ?_, ?_,
      hwrote.stopped hstopped⟩
    · rw [henc, hpend, BitVec.toNat_zero]
      omega
    · rw [if_neg hroom, henc, ← hwaiting]
      omega

end

/-- Settles O47: the trailer and Flush by what the sink does with their bits; the empty input by evaluation. -/
theorem encFinWritesTrailerAndFlushes : Obligations.EncFinWritesTrailerAndFlushes := by
  rintro s hp hcount hclean -
  have haccepted : AcceptedWhen .encFin s := ⟨hp, hcount⟩
  refine ⟨fun pad bits htotal hpad hwhole hbits => ⟨fun htakes => ?_, fun k hrefuses hroom => ?_⟩,
    fun hzero hempty => ?_⟩
  · obtain ⟨u, hu, hphase, henc, hwritten⟩ := finishBody_sinkTakes hclean htotal hpad hwhole hbits htakes
    have hstep : FinStep s u := (finishBody_all s).of_ok hu
    obtain ⟨hfcause, hft, hdec⟩ := hstep.frame
    exact ⟨_, exec_of_body_ok rfl haccepted hu, (respond_writtenBits _ _ _).trans hwritten, henc, hphase, hft, hdec,
      hfcause, hstep.ports.source, hstep.ports.host,
      (respond_responses _ _ _).trans (congrArg (· ++ _) hstep.ports.responses)⟩
  · obtain ⟨u, hu, hpend, hwidx, hstopped⟩ := finishBody_refused hclean htotal hpad hwhole hbits hrefuses hroom
    have hstep : FinStep s u := (finishBody_all s).of_raise hu
    obtain ⟨-, hft, hdec⟩ := hstep.frame
    exact ⟨_, exec_of_body_raise rfl haccepted hu, congrArg State.enc hstep.rest, hpend, hwidx,
      hstopped.atByte hft hdec hstep.ports⟩
  · exact ⟨_, exec_of_body_ok rfl haccepted (finishBody_of_zero hzero hempty), rfl, rfl, rfl, rfl, rfl, rfl⟩

end Sys2Proof.Machine
end

section
/-! PROOFS. The decoder (44_decoder.md R210 to R217): DEC_INIT, the entry a Value selects, DEC_SYM with open ports, with
a source that fails, with a sink that refuses and with Value outside the interval, and the step both engines share. -/

namespace Sys2Proof.Machine

/-! ### DEC_INIT (44_decoder.md R210, R215) -/

/-- The body of DEC_INIT reads one padded word and then the payload goes on after it. -/
theorem decInitBody_open {s : State} (h : SourceOpen s) :
    ∃ w u, decInitBody s = .ok () { u.setValue w with phase := phaseAfterInit u.ft.total } ∧
      w.toNat = bigEndian (paddedBytes 4 s.dec.srcEos s.ports.source) ∧
      Padded (paddedBytes 4 s.dec.srcEos s.ports.source) (startDecoder s) u := by
  obtain ⟨w, bs, u, hu, hlen, hpad, hw⟩ := getWordPadded_open (s := startDecoder s) h
  obtain rfl : bs = paddedBytes 4 s.dec.srcEos s.ports.source := by
    simpa [hlen, paddedBytes] using (hpad.bytes 0).symm
  exact ⟨w, u, by rw [decInitBody, hu, Res.ok_andThen], hw, hpad⟩

/-- The body of DEC_INIT where the source fails within the first word (20_memory.md R61). -/
theorem decInitBody_err {bs : List Byte} {s : State} {rest : List SrcAnswer} (he : s.dec.srcEos = false)
    (hn : bs.length < 4) (hs : s.ports.source = bs.map .byte ++ .err :: rest) :
    decInitBody s = .raise .ioSource (withSourceAnswers (startDecoder s) (bs.map .byte ++ [.err]) rest) := by
  rw [decInitBody, getWordPadded, getWordFrom_err (s := startDecoder s) bs 0#32 he hn hs, Res.raise_andThen]

/-- With an empty buffer the upcoming bits are those of the payload bytes from the source (10_state.md R29). -/
theorem upcomingBit_of_empty {s : State} (h : s.dec.ridx = 31#5) (j : Nat) :
    upcomingBit s j =
      ((paddedBytes (j / 8 + 1) s.dec.srcEos s.ports.source).getD (j / 8) 0#8).getLsbD (7 - j % 8) := by
  simp [upcomingBit, bitsLeft, h]

/-- After `bs` is read, byte `q` of the payload is byte `bs.length + q` of the payload before it. -/
theorem Padded.getD {bs : List Byte} {s t : State} (h : Padded bs s t) (q : Nat) :
    (paddedBytes (q + 1) t.dec.srcEos t.ports.source).getD q 0#8 =
      (paddedBytes (q + (bs.length + 1)) s.dec.srcEos s.ports.source).getD (q + bs.length) 0#8 := by
  rw [show q + (bs.length + 1) = bs.length + (q + 1) by omega, h.bytes, List.getD_eq_getElem?_getD,
    List.getD_eq_getElem?_getD, List.getElem?_append_right (Nat.le_add_left _ _), Nat.add_sub_cancel]

theorem Padded.frame {bs : List Byte} {s t : State} (h : Padded bs s t) :
    t.fcause = s.fcause ∧ t.ft = s.ft ∧ t.enc = s.enc ∧ t.dec = { s.dec with srcEos := t.dec.srcEos } := by
  rw [h.rest]
  exact ⟨rfl, rfl, rfl, rfl⟩

/-- Settles O49: the body completes on an open source and raises where the source fails within the word. -/
theorem decInitReadsTheFirstWord : Obligations.DecInitReadsTheFirstWord := by
  refine fun s hp => ⟨fun hopen => ?_, fun bs rest he hn hs => ?_⟩
  · obtain ⟨w, u, hbody, hw, hpad⟩ := decInitBody_open hopen
    obtain ⟨hfcause, hft, henc, hdec⟩ := hpad.frame
    have hbits (j : Nat) : upcomingBit u j = ((paddedBytes (j / 8 + 5) s.dec.srcEos s.ports.source).getD (j / 8 + 4)
        0#8).getLsbD (7 - j % 8) := by
      rw [upcomingBit_of_empty (congrArg Decoder.ridx hdec), hpad.getD, length_paddedBytes]
      rfl
    exact ⟨_, exec_of_body_ok rfl hp hbody, congrArg Decoder.lower hdec, congrArg Decoder.range hdec,
      congrArg Decoder.count hdec, congrArg Decoder.rbuf hdec, congrArg Decoder.ridx hdec, hw,
      congrArg (fun f : FreqTable => phaseAfterInit f.total) hft, hbits, hft, henc, hfcause, hpad.ports.sink,
      hpad.ports.host, (respond_sinkBytes _ _ _).trans hpad.ports.sinkBytes,
      (respond_responses _ _ _).trans (congrArg (· ++ _) hpad.ports.responses)⟩
  · exact ⟨_, exec_of_body_raise rfl hp (decInitBody_err he hn hs), rfl, rfl, rfl, rfl, rfl, rfl⟩

/-- A value below 2^31 is inside the first interval, and bit 31 tells (44_decoder.md R215). -/
theorem valueInside_start_iff {d : Decoder} (hl : d.lower = 0#32) (hr : d.range = 0x80000000#32) :
    ValueInside d ↔ d.value.getLsbD 31 = false := by
  have hmsb := BitVec.msb_eq_false_iff_two_mul_lt (x := d.value)
  rw [BitVec.msb_eq_getLsbD_last] at hmsb
  rw [hmsb]
  simp only [ValueInside, hl, hr, BitVec.toNat_ofNat]
  omega

/-- Settles O53: bit 31 of the first word is bit 7 of its first byte. -/
theorem firstPayloadBitDecides : Obligations.FirstPayloadBitDecides := by
  intro s t hp hopen h
  obtain ⟨t', h', hl, hr, -, -, -, hvalue, -⟩ := (decInitReadsTheFirstWord s hp).1 hopen
  obtain rfl : t' = t := Host.Outcome.next.inj (h'.symm.trans h)
  rw [valueInside_start_iff hl hr, getLsbD_word (length_paddedBytes 4 _ _) hvalue (i := 0) (by decide)]

/-! ### The selected entry (44_decoder.md R211, R214) -/

/-- Settles O50: the target compares with a bound as Value does with its scaled offset; with a table the selected
entry's sub-interval holds Value, so Narrow succeeds on it. -/
theorem selectionIsExact : Obligations.SelectionIsExact := by
  refine ⟨fun l r v lo hi total hok htotal hlow hhigh => ?_, fun s htable htotal hok hinside => ?_⟩
  · obtain ⟨g, hg, hlt, hbound⟩ := target_inside hok.1 htotal hlow hhigh
    have hlo := hbound lo
    have hhi := (hbound hi).not
    exact ⟨g, hg, hlt, by omega⟩
  · obtain ⟨e, hselect, he, h1, h2⟩ := selectEntry_inside htable htotal hok hinside
    obtain ⟨hlh, hht⟩ := htable.mem he
    obtain ⟨l', r', hnarrow, -, -, -, hvalue⟩ := narrow_holds_value hlh.le hht hok h1 h2
    exact ⟨e, l', r', hselect, he, hnarrow, hvalue⟩

/-- Settles O52: with Value outside the interval no entry is selected. -/
theorem decSymFaultsOutsideTheInterval : Obligations.DecSymFaultsOutsideTheInterval := by
  intro s hp hcount htable hok hout
  have hbody : decodeBody s = .raise .noCdfMatch s := by
    rw [decodeBody, selectEntry_outside htable hok (Nat.zero_lt_of_lt hcount) hout]
  exact ⟨_, exec_of_body_raise rfl hp hbody, rfl, rfl, rfl, rfl, rfl, rfl⟩

/-! ### DEC_SYM as a loop (44_decoder.md R212) -/

/-- `s` with the decoder's interval narrowed to the entry `e` (42_interval.md R173). -/
def State.decNarrowedTo (e : TabEntry) (s : State) : State :=
  s.setDecInterval (BitVec.ofNat 32 (s.dec.lower.toNat + scaled s.dec.range e.low s.ft.total))
    (BitVec.ofNat 32 (scaled s.dec.range e.high s.ft.total - scaled s.dec.range e.low s.ft.total))

/-- DEC_SYM after the look-up, where Narrow does not fail: the loop, the symbol, the count. -/
theorem decodeEntry_eq_decLoop {s : State} {e : TabEntry}
    (hpos : 0 < scaled s.dec.range e.high s.ft.total - scaled s.dec.range e.low s.ft.total) :
    decodeEntry e s = (decLoop 31 (s.decNarrowedTo e)).andThen fun _ t =>
      (sinkPut e.sym t).andThen fun _ u => .ok () u.countDecoded := by
  rw [decodeEntry, narrow_of_pos hpos]
  rfl

/-- The sub-interval of `e` holds the decoder's Value (44_decoder.md R214). -/
abbrev HoldsValue (e : TabEntry) (s : State) : Prop :=
  s.dec.lower.toNat + scaled s.dec.range e.low s.ft.total ≤ s.dec.value.toNat ∧
  s.dec.value.toNat < s.dec.lower.toNat + scaled s.dec.range e.high s.ft.total

theorem HoldsValue.pos {e : TabEntry} {s : State} (h : HoldsValue e s) :
    0 < scaled s.dec.range e.high s.ft.total - scaled s.dec.range e.low s.ft.total := by
  have := h.1.trans_lt h.2
  omega

/-- DEC_SYM on the entry that is selected. -/
theorem decodeBody_eq_decLoop {s : State} {e : TabEntry} (hselect : selectEntry s = some e) (h : HoldsValue e s) :
    decodeBody s = (decLoop 31 (s.decNarrowedTo e)).andThen fun _ t =>
      (sinkPut e.sym t).andThen fun _ u => .ok () u.countDecoded := by
  rw [decodeBody, hselect]
  exact decodeEntry_eq_decLoop h.pos

/-- The narrowed registers hold the exact numbers, and Value lies between them (42_interval.md R173, R177;
44_decoder.md R215). -/
theorem decNarrowedTo_interval {s : State} {e : TabEntry} (hlh : e.low.toNat ≤ e.high.toNat)
    (hht : e.high.toNat ≤ s.ft.total.toNat) (hi : IntervalOk s.dec.lower s.dec.range) (h : HoldsValue e s) :
    (s.decNarrowedTo e).dec.lower.toNat = s.dec.lower.toNat + scaled s.dec.range e.low s.ft.total ∧
      (s.decNarrowedTo e).dec.range.toNat =
        scaled s.dec.range e.high s.ft.total - scaled s.dec.range e.low s.ft.total ∧
      IntervalOk (s.decNarrowedTo e).dec.lower (s.decNarrowedTo e).dec.range ∧
      ValueInside (s.decNarrowedTo e).dec := by
  obtain ⟨l', r', hnarrow, hok, hl, hr, hvalue⟩ := narrow_holds_value hlh hht hi h.1 h.2
  obtain ⟨-, rfl, rfl⟩ := narrow_eq_some hnarrow
  exact ⟨hl, hr, hok, hvalue⟩

/-- What DEC_SYM's loop leaves once every ReadBit of it was answered (44_decoder.md R212, R213, R215): from `s` with
its interval narrowed to `e`, by the passes `cs`, the settled interval `l`, `r` and Value in it after one bit per
pass. -/
structure Renormalised (e : TabEntry) (cs : List IntervalCase) (l r : Nat) (s u : State) : Prop where
  loop : decLoop 31 (s.decNarrowedTo e) = .ok () u
  lower : u.dec.lower.toNat = l
  range : u.dec.range.toNat = r
  value : u.dec.value.toNat = shiftIn cs (upcomingBit s) s.dec.value.toNat
  upcoming : ∀ j, upcomingBit u j = upcomingBit s (j + cs.length)
  settled : IntervalSettled u.dec.lower u.dec.range
  inside : ValueInside u.dec
  step : DecPassStep (s.decNarrowedTo e) u

theorem DecPassStep.frame {s t : State} (h : DecPassStep s t) :
    t.phase = s.phase ∧ t.fcause = s.fcause ∧ t.ft = s.ft ∧ t.enc = s.enc ∧ t.dec.count = s.dec.count := by
  rw [h.rest]
  exact ⟨rfl, rfl, rfl, rfl, rfl⟩

/-- A byte put after the passes is the only one that enters the sink (20_memory.md R62). -/
theorem DecPassStep.put {s u : State} (h : DecPassStep s u) (b : Byte) :
    (withSinkBytes u [b]).sinkBytes = s.sinkBytes ++ [b] ∧ (withSinkBytes u [b]).responses = s.responses := by
  rw [sinkBytes_withSinkBytes, responses_withSinkBytes, h.ports.sinkBytes, h.ports.responses]
  exact ⟨rfl, rfl⟩

section
variable {s : State} {e : TabEntry} {cs : List IntervalCase} {l r : Nat} (hlh : e.low.toNat ≤ e.high.toNat)
  (hht : e.high.toNat ≤ s.ft.total.toNat) (hi : IntervalOk s.dec.lower s.dec.range) (h : HoldsValue e s)
  (hrenorm : renorm 31 (s.dec.lower.toNat + scaled s.dec.range e.low s.ft.total)
    (scaled s.dec.range e.high s.ft.total - scaled s.dec.range e.low s.ft.total) = (cs, l, r))
include hlh hht hi h hrenorm

/-- On an open source the loop completes. -/
theorem decLoop_renormalised (hopen : SourceOpen s) : ∃ u, Renormalised e cs l r s u := by
  obtain ⟨hl, hr, hok, hinside⟩ := decNarrowedTo_interval hlh hht hi h
  obtain ⟨u, hu, hinside', -, hvalue, hbits⟩ := decLoop_open (n := 31) hok hinside hopen
  have hinterval := decLoop_ok hok hu
  rw [hl, hr, hrenorm] at hvalue hbits hinterval
  obtain ⟨hl', hr'⟩ := Prod.mk.inj hinterval
  exact ⟨u, hu, hl'.symm, hr'.symm, hvalue, hbits, decLoop_settled hok hu, hinside', (decLoop_all 31 _).of_ok hu⟩

/-- The loop where the source fails before the next word is read (40_bitpacker.md R126; 60_exceptions.md R251). -/
theorem decLoop_source_err {bs : List Byte} {rest : List SrcAnswer} (he : s.dec.srcEos = false)
    (hb : bs.length < 4) (hs : s.ports.source = bs.map .byte ++ .err :: rest) (hn : bitsLeft s.dec < cs.length) :
    ∃ d : Decoder, decLoop 31 (s.decNarrowedTo e) =
        .raise .ioSource (withSourceAnswers { s with dec := d } (bs.map .byte ++ [.err]) rest) ∧
      d = { s.dec with lower := d.lower, range := d.range, value := d.value, ridx := 31#5 } ∧
      (renorm (bitsLeft s.dec + 1) (s.dec.lower.toNat + scaled s.dec.range e.low s.ft.total)
        (scaled s.dec.range e.high s.ft.total - scaled s.dec.range e.low s.ft.total)).2 =
          (d.lower.toNat, d.range.toNat) ∧
      d.value.toNat = shiftIn (cs.take (bitsLeft s.dec)) (upcomingBit s) s.dec.value.toNat := by
  obtain ⟨hl, hr, hok, hinside⟩ := decNarrowedTo_interval hlh hht hi h
  have herr := decLoop_err (n := 31) (s := s.decNarrowedTo e) hok hinside he hb hs
  rw [hl, hr, hrenorm] at herr
  exact herr hn

end

/-- The count of DEC_SYM is exact below TOTAL, and after the last symbol PHASE is IDLE (44_decoder.md R212). -/
theorem countDecoded_of_lt {s t : State} (hp : t.phase = .decoding) (hc : t.dec.count = s.dec.count)
    (hft : t.ft = s.ft) (h : s.dec.count.toNat < s.ft.total.toNat) :
    t.countDecoded.dec.count.toNat = s.dec.count.toNat + 1 ∧
      t.countDecoded.phase = if s.dec.count.toNat + 1 < s.ft.total.toNat then .decoding else .idle := by
  have hcount : (s.dec.count + 1#64).toNat = s.dec.count.toNat + 1 :=
    BitVec.toNat_add_of_lt (show s.dec.count.toNat + 1 < 2 ^ 64 by omega)
  have hlast : s.dec.count + 1#64 = s.ft.total ↔ ¬ s.dec.count.toNat + 1 < s.ft.total.toNat := by
    rw [← BitVec.toNat_inj, hcount]
    omega
  rw [State.countDecoded_dec, State.countDecoded_phase, hp, hc, hft, if_congr hlast rfl rfl, ite_not]
  exact ⟨hcount, rfl⟩

theorem sinkPut_open (b : Byte) {s : State} (h : SinkOpen s) : sinkPut b s = .ok () (withSinkBytes s [b]) :=
  sinkPut_ok b (sinkAnswer_of_take (n := 0) fun a ha => h a (List.mem_of_mem_take ha))

/-- Settles O51: the entry is the selected one; the loop completes and the sink takes the symbol, or the loop raises
in the pass after the buffered bits. -/
theorem decSymDecodesOneSymbol : Obligations.DecSymDecodesOneSymbol := by
  intro s hp hcount htable hsettled hinside
  obtain ⟨e, hselect, he, hholds⟩ :=
    selectEntry_inside htable (Nat.zero_lt_of_lt hcount) hsettled.ok hinside
  obtain ⟨hlh, hht⟩ := htable.mem he
  have hbody := decodeBody_eq_decLoop hselect hholds
  refine ⟨e, _, _, _, he, hholds.1, hholds.2, rfl, fun hsource hsink => ?_, fun bs rest heos hb hs hn => ?_⟩
  · obtain ⟨u, hu⟩ := decLoop_renormalised hlh.le hht hsettled.ok hholds rfl hsource
    obtain ⟨hphase, hfcause, hft, henc, hcountu⟩ := hu.step.frame
    have hsinku : SinkOpen u := fun a ha => hsink a (hu.step.ports.sink ▸ ha)
    rw [hu.loop, Res.ok_andThen, sinkPut_open e.sym hsinku, Res.ok_andThen] at hbody
    obtain ⟨hcount', hphase'⟩ :=
      countDecoded_of_lt (t := withSinkBytes u [e.sym]) (hphase.trans hp) hcountu hft hcount
    obtain ⟨hbytes, hresponses⟩ := hu.step.put e.sym
    exact ⟨_, exec_of_body_ok rfl hp hbody, hu.lower, hu.range, hu.value, hu.upcoming, hcount', hphase', hu.settled,
      hu.inside, (respond_sinkBytes _ _ _).trans hbytes, hft, henc, hfcause, hu.step.ports.host,
      (respond_responses _ _ _).trans (congrArg (· ++ _) hresponses)⟩
  · obtain ⟨d, hloop, hd, hinterval, hvalue⟩ :=
      decLoop_source_err hlh.le hht hsettled.ok hholds rfl heos hb hs hn
    rw [hloop, Res.raise_andThen] at hbody
    exact ⟨_, exec_of_body_raise rfl hp hbody, rfl, rfl, hinterval, hvalue, hd, rfl, rfl, rfl⟩

/-- A refused byte does not enter the sink, and it is no response (20_memory.md R62). -/
theorem record_refused (b : Byte) (s : State) :
    (s.record (.sinkPut b .err)).sinkBytes = s.sinkBytes ∧ (s.record (.sinkPut b .err)).responses = s.responses := by
  simp [State.sinkBytes, State.responses, Event.accepted, Event.answer]

/-- Settles O54: the loop completes as in a decoding DEC_SYM, then the sink refuses the symbol. -/
theorem decSymSinkErrorKeepsTheCount : Obligations.DecSymSinkErrorKeepsTheCount := by
  intro s rest hp hcount htable hsettled hinside hsource hsink
  obtain ⟨e, hselect, he, hholds⟩ :=
    selectEntry_inside htable (Nat.zero_lt_of_lt hcount) hsettled.ok hinside
  obtain ⟨hlh, hht⟩ := htable.mem he
  obtain ⟨u, hu⟩ := decLoop_renormalised hlh.le hht hsettled.ok hholds rfl hsource
  obtain ⟨-, -, hft, henc, hcountu⟩ := hu.step.frame
  have hbody := decodeBody_eq_decLoop hselect hholds
  rw [hu.loop, Res.ok_andThen, sinkPut_err (hu.step.ports.sink.trans hsink), Res.raise_andThen] at hbody
  obtain ⟨hbytes, hresponses⟩ := record_refused e.sym u
  exact ⟨_, e, _, _, _, exec_of_body_raise rfl hp hbody, he, hholds.1, hholds.2, rfl, hu.lower, hu.range, hu.value,
    hu.upcoming, hcountu, rfl, rfl, hu.settled, hu.inside,
    (respond_sinkBytes _ _ _).trans (hbytes.trans hu.step.ports.sinkBytes), rfl, hu.step.ports.host, hft, henc,
    (respond_responses _ _ _).trans (congrArg (· ++ _) (hresponses.trans hu.step.ports.responses))⟩

/-! ### One symbol on both engines (44_decoder.md R217) -/

/-- An accepted command that does not fault has completed its body (45_system.md R231). -/
theorem exec_completed {i : Instr} {s t : State} (hi : isSystem i = false) (ha : AcceptedWhen i s)
    (h : exec i s = .next t) (ht : t.phase ≠ .fault) : ∃ u, bodyOf i s = .ok () u ∧ t = respond .ok 0#64 u := by
  rw [exec_eq_settle hi (ha.phase_ne_fault hi) ha] at h
  rcases settle_eq_next.1 h with hok | ⟨c, u, -, rfl⟩
  · exact hok
  · exact absurd rfl ht

/-- An ENC_SYM that does not fault leaves the interval of its symbol, renormalised (43_encoder.md R192). -/
theorem encSym_interval {s t : State} {e : TabEntry} (ha : AcceptedWhen (.encSym e.sym) s)
    (htable : TablePartition s.ft) (he : e ∈ s.ft.entries) (hi : IntervalOk s.enc.lower s.enc.range)
    (hpos : 0 < scaled s.enc.range e.high s.ft.total - scaled s.enc.range e.low s.ft.total)
    (h : exec (.encSym e.sym) s = .next t) (ht : t.phase ≠ .fault) :
    (renorm 31 (s.enc.lower.toNat + scaled s.enc.range e.low s.ft.total)
      (scaled s.enc.range e.high s.ft.total - scaled s.enc.range e.low s.ft.total)).2 =
        (t.enc.lower.toNat, t.enc.range.toNat) := by
  obtain ⟨u, hu, rfl⟩ := exec_completed rfl ha h ht
  rw [bodyOf, encodeBody_eq_encLoop htable he hpos] at hu
  obtain ⟨_, v, hv, hu⟩ := Res.andThen_eq_ok.1 hu
  obtain rfl : v.countEncoded = u := by simpa using hu
  obtain ⟨hl, hr, hok⟩ := narrowedTo_interval htable he hpos hi
  rw [← hl, ← hr]
  exact (encLoop_ok hok hv).1

/-- A DEC_SYM that does not fault leaves the interval of the entry it selects, renormalised, and puts that symbol in
the sink (44_decoder.md R212), whatever the source answers. -/
theorem decSym_interval {s t : State} {e : TabEntry} (hp : s.phase = .decoding) (hselect : selectEntry s = some e)
    (hlh : e.low.toNat ≤ e.high.toNat) (hht : e.high.toNat ≤ s.ft.total.toNat)
    (hi : IntervalOk s.dec.lower s.dec.range) (hholds : HoldsValue e s) (h : exec .decSym s = .next t)
    (ht : t.phase ≠ .fault) :
    (renorm 31 (s.dec.lower.toNat + scaled s.dec.range e.low s.ft.total)
      (scaled s.dec.range e.high s.ft.total - scaled s.dec.range e.low s.ft.total)).2 =
        (t.dec.lower.toNat, t.dec.range.toNat) ∧ t.sinkBytes = s.sinkBytes ++ [e.sym] := by
  obtain ⟨u, hu, rfl⟩ := exec_completed (i := .decSym) rfl hp h ht
  rw [bodyOf, decodeBody_eq_decLoop hselect hholds] at hu
  obtain ⟨_, v, hv, hu⟩ := Res.andThen_eq_ok.1 hu
  obtain ⟨_, w, hw, hu⟩ := Res.andThen_eq_ok.1 hu
  obtain rfl : w.countDecoded = u := by simpa using hu
  obtain rfl : w = withSinkBytes v [e.sym] := sinkPut_inv hw
  obtain ⟨hl, hr, hok, -⟩ := decNarrowedTo_interval hlh hht hi hholds
  have hstep : DecPassStep (s.decNarrowedTo e) v := (decLoop_all 31 _).of_ok hv
  refine ⟨?_, (respond_sinkBytes _ _ _).trans (hstep.put e.sym).1⟩
  rw [← hl, ← hr]
  exact (decLoop_ok hok hv :)

/-- The entry a Value selects depends on the decoder, the entries and TOTAL alone. -/
theorem selectEntry_congr {s t : State} (hdec : s.dec = t.dec) (hentries : s.ft.entries = t.ft.entries)
    (htotal : s.ft.total = t.ft.total) : selectEntry s = selectEntry t := by
  have hlookup : s.ft.lookupTarget = t.ft.lookupTarget := by
    funext g
    rw [FreqTable.lookupTarget, FreqTable.lookupTarget, hentries]
  rw [selectEntry, selectEntry, hdec, htotal, hlookup]

/-- Settles O55: the decoder selects the encoded entry, and both loops are the one over natural numbers from the same
narrowed interval. -/
theorem encoderAndDecoderStayInLockstep : Obligations.EncoderAndDecoderStayInLockstep := by
  rintro s d s' d' sym e hp hcount htable hsettled hpd hentries - htotal hlower hrange he rfl h1 h2 hs hs' hd hd'
  obtain ⟨hlh, hht⟩ := htable.mem he
  have hok : IntervalOk d.dec.lower d.dec.range := by rw [hlower, hrange]; exact hsettled.ok
  have hholds : HoldsValue e d := by rw [HoldsValue, hlower, hrange, htotal]; exact ⟨h1, h2⟩
  have hselect : selectEntry d = some e := by
    rw [selectEntry_congr (s := d) (t := { s with dec := d.dec }) rfl hentries htotal]
    rw [HoldsValue, htotal] at hholds
    exact selectEntry_eq (s := { s with dec := d.dec }) htable hok he hholds.1 hholds.2
  obtain ⟨hdec, hbytes⟩ := decSym_interval hpd hselect hlh.le (htotal ▸ hht) hok hholds hd hd'
  have henc := encSym_interval ⟨hp, hcount⟩ htable he hsettled.ok (Nat.sub_pos_of_lt (by omega)) hs hs'
  rw [hlower, hrange, htotal, henc] at hdec
  obtain ⟨hl, hr⟩ := Prod.mk.inj hdec
  exact ⟨(BitVec.eq_of_toNat_eq hl).symm, (BitVec.eq_of_toNat_eq hr).symm, hbytes⟩

end Sys2Proof.Machine
end

section
/-! PROOFS. The invariant (10_state.md R28, R38; 42_interval.md R177; 43_encoder.md R198; 45_system.md R238): both
resets establish it, every body keeps it or leaves what fault entry needs, and so every step keeps it. -/

namespace Sys2Proof.Machine

/-! ### Reset (70_reset_and_hazards.md R280) -/

/-- The invariant does not speak of the ports. -/
theorem Invariant.withPorts {s : State} (h : Invariant s) (p : Ports) : Invariant { s with ports := p } := h

theorem resetDevice_invariant (s : State) : Invariant (resetDevice s) := by
  have hp : (resetDevice s).phase = .idle := rfl
  exact .mk' (by simp) rfl (fun hr => absurd (hp ▸ hr) readsTable_idle) (by simp) (by simp)
    (by simp [FreqTable.reset]) (by simp [FreqTable.reset]) (by simp [FreqTable.reset]) (by simp) settled_init
    settled_init (by simp [Encoder.reset, WriteSideClean])

/-- Settles O56: the reset state is what RESET leaves. -/
theorem resetSatisfiesTheInvariant : Obligations.ResetSatisfiesTheInvariant :=
  resetDevice_invariant State.reset

/-! ### The bodies, by their outcome -/

/-- A completed body keeps the invariant, command by command. -/
theorem bodyOf_ok_invariant {i : Instr} {s t : State} (h : Invariant s) (ha : AcceptedWhen i s)
    (hb : bodyOf i s = .ok () t) : Invariant t := by
  cases i with
  | reset | rdsr => obtain rfl : s = t := (Res.ok.inj hb).2
                    exact h
  | ftClear => obtain rfl : clearCounts s = t := (Res.ok.inj hb).2
               exact clearCounts_invariant h ha
  | ftCount sym => exact countBody_invariant h ha hb
  | ftBuild => obtain rfl : buildTable s = t := (Res.ok.inj hb).2
               exact buildTable_invariant h ha
  | ftSer => exact serialiseBody_invariant h ha hb
  | ftDes => exact deserialiseBody_invariant h ha hb
  | encInit => obtain rfl : startEncoder s = t := (Res.ok.inj hb).2
               exact startEncoder_invariant h ha
  | encSym sym => exact encodeBody_invariant h ha.1 ha.2 hb
  | encFin => exact finishBody_invariant h ha.1 hb
  | decInit => exact decInitBody_invariant h ha hb
  | decSym => exact decodeBody_invariant h ha hb

/-- What a fault keeps depends on the frequency unit and the two intervals alone. -/
theorem FaultSafe.congr {s t : State} (h : FaultSafe s) (hft : t.ft = s.ft) (hlower : t.enc.lower = s.enc.lower)
    (hrange : t.enc.range = s.enc.range) (hdec : t.dec = s.dec) : FaultSafe t :=
  ⟨hft ▸ h.nseen, hft ▸ h.tabN, hft ▸ h.table, by rw [hlower, hrange]; exact h.enc, hdec ▸ h.dec⟩

section
variable {s t : State} {c : Cause} (h : Invariant s)
include h

theorem countBody_faultSafe {sym : Byte} (hb : countBody sym s = .raise c t) : FaultSafe t := by
  unfold countBody at hb
  split at hb
  · obtain rfl : s = t := (Res.raise.inj hb).2
    exact h.faultSafe
  · cases hb

theorem serialiseBody_faultSafe (hb : serialiseBody s = .raise c t) : FaultSafe t := by
  have hs := serialiseBody_all s
  rw [hb, Res.all_raise] at hs
  exact h.faultSafe.congr (by rw [hs.1.rest]) (by rw [hs.1.rest]) (by rw [hs.1.rest]) (by rw [hs.1.rest])

/-- The table that FT_DES has begun to overwrite is no longer valid (41_frequency_table.md R149). -/
theorem deserialiseBody_faultSafe (hb : deserialiseBody s = .raise c t) : FaultSafe t := by
  obtain ⟨hvalid, htabN, hnseen⟩ := deserialiseBody_raise hb
  have hs := deserialiseBody_des s
  rw [hb, Res.all_raise] at hs
  obtain ⟨⟨hrest, _⟩, _⟩ := hs
  refine ⟨hnseen ▸ h.faultSafe.nseen, htabN ▸ h.faultSafe.tabN, by simp [hvalid], ?_, ?_⟩
  · rw [hrest]; exact h.faultSafe.enc
  · rw [hrest]; exact h.faultSafe.dec

theorem finishBody_faultSafe (hb : finishBody s = .raise c t) : FaultSafe t := by
  have hs := finishBody_all s
  rw [hb, Res.all_raise] at hs
  exact h.faultSafe.congr (by rw [hs.1.rest]) (by rw [hs.1.rest]) (by rw [hs.1.rest]) (by rw [hs.1.rest])

/-- A body that raises leaves what fault entry needs, command by command. -/
theorem bodyOf_raise_faultSafe {i : Instr} (ha : AcceptedWhen i s) (hb : bodyOf i s = .raise c t) :
    FaultSafe t := by
  cases i with
  | reset | rdsr | ftClear | ftBuild | encInit => cases hb
  | ftCount sym => exact countBody_faultSafe h hb
  | ftSer => exact serialiseBody_faultSafe h hb
  | ftDes => exact deserialiseBody_faultSafe h hb
  | encSym sym => exact encodeBody_faultSafe h ha.1 hb
  | encFin => exact finishBody_faultSafe h hb
  | decInit => exact decInitBody_faultSafe h ha hb
  | decSym => exact (decodeBody_faultSafe h ha hb).1

/-! ### Commands, steps, runs -/

theorem exec_invariant {i : Instr} (he : exec i s = .next t) : Invariant t := by
  rcases exec_eq_next he with ⟨_, rfl⟩ | ⟨n, _, rfl | rfl⟩ | ⟨_, ⟨rfl, _⟩ | ⟨rfl, _⟩ | ⟨_, ha, hbody⟩⟩
  · exact (resetDevice_invariant s).withPorts _
  -- RDSR and the refusals: nothing but the response.
  iterate 4 exact h.withPorts _
  · rcases hbody with ⟨u, hu, rfl⟩ | ⟨c, u, hu, rfl⟩
    · exact (bodyOf_ok_invariant h ha hu).withPorts _
    · exact (bodyOf_raise_faultSafe h ha hu).faultEntry c

theorem step_invariant (hstep : step s = .next t) : Invariant t := by
  obtain ⟨rest, ⟨_, rfl⟩ | ⟨w, _, ⟨_, _, rfl⟩ | ⟨i, _, hexec⟩⟩⟩ := step_eq_next hstep
  · exact resetDevice_invariant _
  · exact h.withPorts _
  · exact exec_invariant (h.withPorts _) hexec

end

/-- Settles O57: a hardware reset establishes the invariant, a refused word writes nothing it speaks of, and every
command keeps it. -/
theorem everyStepKeepsTheInvariant : Obligations.EveryStepKeepsTheInvariant :=
  fun _ _ => step_invariant

theorem Reachable.invariant {s : State} (h : Reachable s) : Invariant s := by
  induction h with
  | start p => exact (resetDevice_invariant State.reset).withPorts p
  | next s t _ hstep ih => exact step_invariant ih hstep

/-- Settles O58: phase safety is a part of the invariant of every reachable state. -/
theorem everyReachableStateIsPhaseSafe : Obligations.EveryReachableStateIsPhaseSafe :=
  fun _ h => h.invariant.1

end Sys2Proof.Machine
end

section
/-! PROOFS. The dispatch (45_system.md R230 to R232, R236; 60_exceptions.md R256): the checks in their order, what an
accepted command leaves, and RDSR. -/

namespace Sys2Proof.Machine

/-! ### One word (45_system.md R230, R231) -/

theorem execWord_of_decode {w : CmdWord} {i : Instr} (h : decode w = .ok i) (s : State) :
    execWord w s = exec i s := by
  rw [execWord, h]

/-- Settles O5: the word is taken off the port and decoded. -/
theorem stepRunsTheDecodedCommand : Obligations.StepRunsTheDecodedCommand :=
  fun _ _ _ _ hs hd => (step_word hs).trans (execWord_of_decode hd _)

/-! ### RDSR (45_system.md R236) -/

theorem exec_rdsr {n : Byte} (hn : n.toNat ≤ 13) (s : State) :
    exec (.rdsr n) s = .next (respond .ok (statusRegister n.toNat s) s) :=
  if_pos hn

/-- Settles O10, on the two sides of the test of the register number. -/
theorem rdsrAnswersTheRegister : Obligations.RdsrAnswersTheRegister :=
  ⟨fun _ s hn => ⟨_, exec_rdsr hn s, rfl, rfl⟩, fun n hn => (decode_rdsr n).trans (if_neg hn.not_ge)⟩

/-! ### How an accepted command ends (45_system.md R231 step 6; 60_exceptions.md R256) -/

theorem respond_getLast (code : RespCode) (data : Word64) (s : State) :
    (respond code data s).ports.trace.getLast? = some (.response ⟨code, data⟩) :=
  List.getLast?_concat

theorem faultEntry_getLast (c : Cause) (s : State) :
    (faultEntry c s).ports.trace.getLast? =
      some (.response ⟨if c = .ioSink ∨ c = .ioSource then .faultIo else .faultFormat, c.code.setWidth 64⟩) :=
  (respond_getLast _ _ _).trans (by rw [respCode_eq])

/-- Settles O7, check by check; the last clause by the outcome of the body. -/
theorem dispatchInTheStatedOrder : Obligations.DispatchInTheStatedOrder := by
  intro w s
  refine ⟨fun hd => ⟨_, execWord_illegal hd s, rfl⟩,
    fun hd => ⟨_, execWord_of_decode hd s, atReset_resetDevice s, rfl⟩,
    fun n hd => ⟨_, (execWord_of_decode hd s).trans (exec_rdsr ?_ s), rfl, rfl⟩,
    fun i hd hi hp => ⟨_, (execWord_of_decode hd s).trans (exec_faulted hi hp), rfl⟩,
    fun i hd hi hp ha => ⟨_, (execWord_of_decode hd s).trans (exec_not_accepted hi hp ha), rfl⟩,
    fun i hd hi hp ha => ?_⟩
  · exact of_decide_eq_true (wellFormed_of_decode hd)
  · rw [execWord_of_decode hd s, exec_eq_settle hi hp ha]
    have hall := bodyOf_all i s
    cases hb : bodyOf i s with
    | ok _ u =>
      rw [hb, Res.all_ok] at hall
      have hne : u.phase ≠ .fault := bodyOf_phase_ne_fault hi ha hb
      exact .inr (.inr ⟨_, rfl, .inl ⟨hne, hall.1, respond_getLast _ _ u⟩⟩)
    | raise c u => exact .inr (.inr ⟨_, rfl, .inr ⟨c, rfl, rfl, faultEntry_getLast c u⟩⟩)
    | stuck e =>
      rw [hb, Res.all_stuck] at hall
      cases e with
      | noCommand => exact absurd rfl hall
      | sourceSilent => exact .inl rfl
      | sinkSilent => exact .inr (.inl rfl)

/-! ### The phase an accepted command leaves (45_system.md R232) -/

/-- While symbols remain, DEC_SYM's comparison of the registers is the table's comparison of the numbers. -/
theorem nextPhase_decSym {s : State} (h : s.dec.count.toNat < s.ft.total.toNat) :
    nextPhase .decSym s = if s.dec.count + 1#64 = s.ft.total then .idle else .decoding := by
  have hinc : (s.dec.count + 1#64).toNat = s.dec.count.toNat + 1 :=
    BitVec.toNat_add_of_lt (Nat.lt_of_le_of_lt h s.ft.total.isLt)
  have hmore : s.dec.count.toNat + 1 < s.ft.total.toNat ↔ ¬ s.dec.count.toNat + 1 = s.ft.total.toNat := by omega
  simp only [nextPhase, ← BitVec.toNat_inj, hinc, hmore, ite_not]

/-- A completed body leaves the tabulated phase. -/
theorem bodyOf_nextPhase {i : Instr} {s t : State} (hi : isSystem i = false) (ha : AcceptedWhen i s)
    (hsafe : PhaseSafe s) (hb : bodyOf i s = .ok () t) : t.phase = nextPhase i s := by
  rcases bodyOf_phase hi ha hb with ⟨_, hp⟩ | ⟨rfl, hp⟩
  · exact hp
  · obtain ⟨_, _, hcount, _⟩ := hsafe
    exact hp.trans (nextPhase_decSym (hcount ha)).symm

/-- Settles O8: a command that is not accepted is refused, and an accepted one is a system command, completes or
faults. -/
theorem phaseTransitionsAsTabulated : Obligations.PhaseTransitionsAsTabulated := by
  refine fun i s => ⟨fun hi hp ha => ⟨_, exec_not_accepted hi hp ha, rfl⟩, fun t ha hsafe h => ?_⟩
  rcases exec_eq_next h with ⟨rfl, rfl⟩ | ⟨n, rfl, rfl | rfl⟩ | ⟨hi, ⟨_, hp⟩ | ⟨_, _, hna⟩ | ⟨_, _, hbody⟩⟩
  -- RESET enters IDLE, RDSR and its refusal leave the phase.
  iterate 3 exact .inl rfl
  · exact absurd hp (ha.phase_ne_fault hi)
  · exact absurd ha hna
  · rcases hbody with ⟨u, hu, rfl⟩ | ⟨c, u, hu, rfl⟩
    · have hnext : u.phase = nextPhase i s := bodyOf_nextPhase hi ha hsafe hu
      exact .inl hnext
    · exact .inr ⟨rfl, c, rfl, faultEntry_getLast c u⟩

end Sys2Proof.Machine
end

section
/-! PROOFS. The trace is an output (45_system.md R230; log 2): with events put before the trace, every step does the
same. -/

namespace Sys2Proof.Machine

/-- The outcome with `before` in front of the trace of its next state. -/
def outcomeAfter (before : List Event) : Host.Outcome State Fault Refusal → Host.Outcome State Fault Refusal
  | .next t => .next (t.after before)
  | .fault e => .fault e
  | .refused r => .refused r

section
variable (b : List Event)

theorem respond_after (code : RespCode) (data : Word64) (s : State) :
    respond code data (s.after b) = (respond code data s).after b :=
  record_after b _ s

theorem faultEntry_after (c : Cause) (s : State) : faultEntry c (s.after b) = (faultEntry c s).after b :=
  respond_after b _ _ { s with fcause := some c, phase := .fault }

theorem withInputTaken_after (s : State) (e : Event) (rest : List HostInput) :
    withInputTaken (s.after b) e rest = (withInputTaken s e rest).after b :=
  record_after b e { s with ports := { s.ports with host := rest } }

theorem accepts_after (i : Instr) (s : State) : accepts i (s.after b) = accepts i s := by
  cases i <;> rfl

theorem countBody_after (sym : Byte) (s : State) : countBody sym (s.after b) = (countBody sym s).after b := by
  rw [countBody, countBody, after_ft]
  split <;> rfl

theorem bodyOf_after (i : Instr) (s : State) : bodyOf i (s.after b) = (bodyOf i s).after b := by
  cases i with
  | reset | rdsr | ftClear | ftBuild | encInit => rfl
  | ftCount sym => exact countBody_after b sym s
  | ftSer => exact serialiseBody_after b s
  | ftDes => exact deserialiseBody_after b s
  | encSym sym => exact encodeBody_after b sym s
  | encFin => exact finishBody_after b s
  | decInit => exact decInitBody_after b s
  | decSym => exact decodeBody_after b s

theorem settle_after (r : Res Unit) : settle (r.after b) = outcomeAfter b (settle r) := by
  cases r with
  | ok _ s => exact congrArg Host.Outcome.next (respond_after b _ _ s)
  | raise c s => exact congrArg Host.Outcome.next (faultEntry_after b c s)
  | stuck e => rfl

theorem refuse_after (code : RespCode) (s : State) :
    Host.Outcome.next (refuse code (s.after b)) = outcomeAfter b (.next (refuse code s)) :=
  congrArg Host.Outcome.next (respond_after b code _ s)

theorem whenAccepted_after (a : Bool) {body : State → Res Unit} (s : State)
    (hbody : body (s.after b) = (body s).after b) :
    whenAccepted a body (s.after b) = outcomeAfter b (whenAccepted a body s) := by
  rw [whenAccepted, whenAccepted, after_phase, hbody]
  split
  · exact refuse_after b _ s
  split
  · exact settle_after b _
  · exact refuse_after b _ s

theorem execRdsr_after (n : Byte) (s : State) : execRdsr n (s.after b) = outcomeAfter b (execRdsr n s) := by
  have hreg : statusRegister n.toNat (s.after b) = statusRegister n.toNat s := rfl
  rw [execRdsr, execRdsr, hreg]
  split
  · exact congrArg Host.Outcome.next (respond_after b _ _ s)
  · exact refuse_after b _ s

theorem exec_after (i : Instr) (s : State) : exec i (s.after b) = outcomeAfter b (exec i s) := by
  cases hi : isSystem i with
  | false =>
    rw [exec_eq_whenAccepted hi, exec_eq_whenAccepted hi, accepts_after]
    exact whenAccepted_after b _ s (bodyOf_after b i s)
  | true =>
    cases i with
    | reset => exact congrArg Host.Outcome.next (respond_after b _ _ (resetDevice s))
    | rdsr n => exact execRdsr_after b n s
    | _ => cases hi

theorem execWord_after (w : CmdWord) (s : State) : execWord w (s.after b) = outcomeAfter b (execWord w s) := by
  rw [execWord, execWord]
  split
  · exact refuse_after b _ s
  · exact exec_after b _ s

theorem step_after (s : State) : step (s.after b) = outcomeAfter b (step s) := by
  have hhost : (s.after b).ports.host = s.ports.host := rfl
  cases hs : s.ports.host with
  | nil => rw [step_no_input hs, step_no_input (hhost.trans hs), outcomeAfter]
  | cons input rest =>
    cases input with
    | hardReset =>
      rw [step_hardReset hs, step_hardReset (hhost.trans hs), withInputTaken_after]
      rfl
    | word w =>
      rw [step_word hs, step_word (hhost.trans hs), withInputTaken_after]
      exact execWord_after b w _

end

/-- Settles O20: putting events before the trace commutes with the step. -/
theorem traceIsNeverRead : Obligations.TraceIsNeverRead :=
  fun s _ before h => (step_after before s).trans (congrArg (outcomeAfter before) h)

end Sys2Proof.Machine
end

section
/-! PROOFS. Faults and frames (60_exceptions.md R251, R255, R256, R258, R260; 10_state.md section 7): what fault entry
writes, that FAULT is left by a reset alone, which command raises which cause, which command writes which register. -/

namespace Sys2Proof.Machine

/-! ### Fault entry and the state FAULT (60_exceptions.md R256, R260) -/

/-- Settles O13: fault entry is the record it is defined as. -/
theorem faultEntryWritesCauseAndPhase : Obligations.FaultEntryWritesCauseAndPhase :=
  fun _ _ => rfl

/-- What a command other than RESET does (45_system.md R231): it answers and does nothing else, or it runs its body,
which FAULT forbids. -/
theorem exec_answers_or_runs {i : Instr} {s t : State} (hi : i ≠ .reset) (h : exec i s = .next t) :
    (∃ code data, t = respond code data s) ∨
      s.phase ≠ .fault ∧ AcceptedWhen i s ∧
        ((∃ u, bodyOf i s = .ok () u ∧ t = respond .ok 0#64 u) ∨
          ∃ c u, bodyOf i s = .raise c u ∧ t = faultEntry c u) := by
  rcases exec_eq_next h with ⟨hreset, _⟩ | ⟨n, _, rfl | rfl⟩ | ⟨_, ⟨rfl, _⟩ | ⟨rfl, _⟩ | hruns⟩
  · exact absurd hreset hi
  -- RDSR and the refusals.
  iterate 4 exact .inl ⟨_, _, rfl⟩
  · exact .inr hruns

theorem ne_reset_of_decode {w : CmdWord} {i : Instr} (h : decode w = .ok i) (hw : w ≠ 0x0100#16) : i ≠ .reset := by
  rintro rfl
  exact hw (encode_of_decode h).symm

/-- Settles O14: in FAULT an illegal word and every command but RESET are answered, and no body runs. -/
theorem faultKeepsItsCauseUntilReset : Obligations.FaultKeepsItsCauseUntilReset := by
  intro s t hfault h hword hhard
  obtain ⟨rest, ⟨hhost, _⟩ | ⟨w, hhost, ⟨_, _, rfl⟩ | ⟨i, hdecode, hexec⟩⟩⟩ := step_eq_next h
  · exact absurd hhost (hhard rest)
  · exact ⟨rfl, rfl, rfl⟩
  · have hi : i ≠ .reset := ne_reset_of_decode hdecode fun hw => hword rest (hw ▸ hhost)
    rcases exec_answers_or_runs hi hexec with ⟨code, data, rfl⟩ | ⟨hne, _⟩
    · exact ⟨rfl, rfl, rfl⟩
    · exact absurd hfault hne

/-! ### The causes a command raises (60_exceptions.md R251, R255) -/

theorem Res.All.cause_of_raise {α : Type} {P : State → Prop} {Q : Cause → Prop} {r : Res α} {c : Cause}
    {t : State} (h : r.All P Q) (hr : r = .raise c t) : Q c := by
  rw [hr] at h
  exact h.2

/-- Every cause a body raises stands in its command's row of the cause table. DEC_SYM's ZERO_RANGE is the one raise
of the pseudocode that the invariant rules out (44_decoder.md R214). -/
theorem bodyOf_raise_causesOf {i : Instr} {s t : State} {c : Cause} (h : Invariant s) (ha : AcceptedWhen i s)
    (hb : bodyOf i s = .raise c t) : c ∈ causesOf i := by
  cases i with
  | reset | rdsr | ftClear | ftBuild | encInit => cases hb
  | ftCount sym => exact List.mem_singleton.2 ((countBody_all sym s).cause_of_raise hb)
  | ftSer => exact List.mem_singleton.2 ((serialiseBody_all s).cause_of_raise hb)
  | ftDes => simpa [causesOf, HeaderCause, or_assoc] using (deserialiseBody_des s).cause_of_raise hb
  | encSym sym => simpa [causesOf] using (encodeBody_all sym s).cause_of_raise hb
  | encFin => exact List.mem_singleton.2 ((finishBody_all s).cause_of_raise hb)
  | decInit => exact List.mem_singleton.2 ((decInitBody_all s).cause_of_raise hb)
  | decSym =>
    have hne : c ≠ .zeroRange := (decodeBody_faultSafe h ha hb).2
    simpa [causesOf, hne] using (decodeBody_all s).cause_of_raise hb

/-- Settles O15: outside FAULT the register FCAUSE is empty, an answer and a completed body keep it so, and a raise
puts the body's cause there. -/
theorem causesOnlyFromTheirCommands : Obligations.CausesOnlyFromTheirCommands := by
  intro i s t c hinv hp h hc
  have hnone : s.fcause = none := hinv.fcause_none hp
  by_cases hi : i = .reset
  · subst hi
    obtain rfl : respond .ok 0#64 (resetDevice s) = t := Host.Outcome.next.inj h
    cases hc
  rcases exec_answers_or_runs hi h with ⟨code, data, rfl⟩ | ⟨_, ha, ⟨u, hu, rfl⟩ | ⟨c', u, hu, rfl⟩⟩
  · rw [respond_fcause, hnone] at hc
    cases hc
  · rw [respond_fcause, ((bodyOf_all i s).of_ok hu).1, hnone] at hc
    cases hc
  · obtain rfl : c' = c := Option.some.inj hc
    exact ⟨rfl, bodyOf_raise_causesOf hinv ha hu⟩

/-! ### The registers a command writes (10_state.md section 7) -/

/-- The frequency unit's registers and arrays that the command is not listed for are kept. -/
structure FtFrame (i : Instr) (f g : FreqTable) : Prop where
  counts : i ≠ .ftClear → (∀ sym, i ≠ .ftCount sym) → g.cnt = f.cnt ∧ g.nseen = f.nseen
  ord : (∀ sym, i ≠ .ftCount sym) → g.ord = f.ord
  total : i ≠ .ftClear → (∀ sym, i ≠ .ftCount sym) → i ≠ .ftDes → g.total = f.total
  table : i ≠ .ftBuild → i ≠ .ftDes → g.tabN = f.tabN ∧ g.tab = f.tab
  tabValid : i ≠ .ftClear → i ≠ .ftBuild → i ≠ .ftDes → g.tabValid = f.tabValid

/-- The encoder's registers that the command is not listed for are kept. -/
structure EncFrame (i : Instr) (d e : Encoder) : Prop where
  interval : i ≠ .encInit → (∀ sym, i ≠ .encSym sym) →
    e.lower = d.lower ∧ e.range = d.range ∧ e.count = d.count
  bits : i ≠ .encInit → (∀ sym, i ≠ .encSym sym) → i ≠ .encFin →
    e.pend = d.pend ∧ e.wacc = d.wacc ∧ e.widx = d.widx

/-- The decoder's registers that the command is not listed for are kept. -/
structure DecFrame (i : Instr) (d e : Decoder) : Prop where
  engine : i ≠ .decInit → i ≠ .decSym →
    e.lower = d.lower ∧ e.range = d.range ∧ e.value = d.value ∧ e.count = d.count ∧ e.rbuf = d.rbuf ∧
      e.ridx = d.ridx
  srcEos : i ≠ .ftDes → i ≠ .decInit → i ≠ .decSym → e.srcEos = d.srcEos

/-- The column "Written by" of 10_state.md section 7, but for PHASE and FCAUSE. -/
abbrev DeviceFrame (i : Instr) (s t : State) : Prop :=
  FtFrame i s.ft t.ft ∧ EncFrame i s.enc t.enc ∧ DecFrame i s.dec t.dec

theorem FtFrame.refl (i : Instr) (f : FreqTable) : FtFrame i f f :=
  ⟨fun _ _ => ⟨rfl, rfl⟩, fun _ => rfl, fun _ _ _ => rfl, fun _ _ => ⟨rfl, rfl⟩, fun _ _ _ => rfl⟩

theorem EncFrame.refl (i : Instr) (d : Encoder) : EncFrame i d d :=
  ⟨fun _ _ => ⟨rfl, rfl, rfl⟩, fun _ _ _ => ⟨rfl, rfl, rfl⟩⟩

theorem DecFrame.refl (i : Instr) (d : Decoder) : DecFrame i d d :=
  ⟨fun _ _ => ⟨rfl, rfl, rfl, rfl, rfl, rfl⟩, fun _ _ _ => rfl⟩

theorem deviceFrame_refl (i : Instr) (s : State) : DeviceFrame i s s :=
  ⟨.refl i s.ft, .refl i s.enc, .refl i s.dec⟩

theorem clearCounts_ftFrame (s : State) : FtFrame .ftClear s.ft (clearCounts s).ft :=
  ⟨fun h => absurd rfl h, fun _ => rfl, fun h => absurd rfl h, fun _ _ => ⟨rfl, rfl⟩, fun h => absurd rfl h⟩

theorem countSymbol_ftFrame (sym : Byte) (f : FreqTable) : FtFrame (.ftCount sym) f (f.countSymbol sym) := by
  obtain ⟨_, _, htab, htabN, hvalid⟩ := countSymbol_rest f sym
  exact ⟨fun _ h => absurd rfl (h sym), fun h => absurd rfl (h sym), fun _ h => absurd rfl (h sym),
    fun _ _ => ⟨htabN, htab⟩, fun _ _ _ => hvalid⟩

theorem buildTable_ftFrame (s : State) : FtFrame .ftBuild s.ft (buildTable s).ft := by
  obtain ⟨hcnt, hord, hnseen, htotal⟩ := fillTable_rest s.ft.tableOrder 0 0#64 s.ft
  exact ⟨fun _ _ => ⟨hcnt, hnseen⟩, fun _ => hord, fun _ _ _ => htotal, fun h => absurd rfl h,
    fun _ h => absurd rfl h⟩

theorem countBody_frame (sym : Byte) (s : State) :
    (countBody sym s).All (DeviceFrame (.ftCount sym) s) fun _ => True := by
  refine (countBody_all sym s).mono (fun t ⟨hrest, hft⟩ => ?_) fun _ _ => trivial
  rw [hrest]
  refine ⟨?_, .refl _ _, .refl _ _⟩
  rcases hft with hft | hft <;> rw [hft]
  · exact .refl _ _
  · exact countSymbol_ftFrame sym s.ft

theorem SerStep.deviceFrame {s t : State} (h : SerStep s t) : DeviceFrame .ftSer s t := by
  rw [h.rest]
  exact deviceFrame_refl .ftSer s

theorem DesStep.deviceFrame {s t : State} (h : DesStep s t) : DeviceFrame .ftDes s t := by
  rw [h.rest]
  exact ⟨⟨fun _ _ => ⟨rfl, rfl⟩, fun _ => rfl, fun _ _ h => absurd rfl h, fun _ h => absurd rfl h,
      fun _ _ h => absurd rfl h⟩, .refl _ _,
    fun _ _ => ⟨rfl, rfl, rfl, rfl, rfl, rfl⟩, fun h => absurd rfl h⟩

theorem EncStep.deviceFrame {s t : State} (h : EncStep s t) (sym : Byte) : DeviceFrame (.encSym sym) s t := by
  rw [h.rest]
  exact ⟨.refl _ _, ⟨fun _ h => absurd rfl (h sym), fun _ h => absurd rfl (h sym)⟩, .refl _ _⟩

theorem FinStep.deviceFrame {s t : State} (h : FinStep s t) : DeviceFrame .encFin s t := by
  rw [h.rest]
  exact ⟨.refl _ _, ⟨fun _ _ => ⟨rfl, rfl, rfl⟩, fun _ _ h => absurd rfl h⟩, .refl _ _⟩

/-- DEC_INIT and DEC_SYM may write any of the decoder's registers and nothing else. -/
theorem DecStep.deviceFrame {i : Instr} {s t : State} (h : DecStep s t) (hi : i = .decInit ∨ i = .decSym) :
    DeviceFrame i s t := by
  rw [h.rest]
  refine ⟨.refl _ _, .refl _ _, ?_⟩
  rcases hi with rfl | rfl
  · exact ⟨fun h => absurd rfl h, fun _ h => absurd rfl h⟩
  · exact ⟨fun _ h => absurd rfl h, fun _ _ h => absurd rfl h⟩

/-- A body keeps what its command is not listed for, whether it completes or raises. -/
theorem bodyOf_frame (i : Instr) (s : State) : (bodyOf i s).All (DeviceFrame i s) fun _ => True := by
  cases i with
  | reset | rdsr => exact deviceFrame_refl _ s
  | ftClear => exact ⟨clearCounts_ftFrame s, .refl _ _, .refl _ _⟩
  | ftCount sym => exact countBody_frame sym s
  | ftBuild => exact ⟨buildTable_ftFrame s, .refl _ _, .refl _ _⟩
  | ftSer => exact (serialiseBody_all s).mono (fun _ h => h.deviceFrame) fun _ _ => trivial
  | ftDes => exact (deserialiseBody_des s).mono (fun _ h => h.deviceFrame) fun _ _ => trivial
  | encInit => exact ⟨.refl _ _, ⟨fun h => absurd rfl h, fun h => absurd rfl h⟩, .refl _ _⟩
  | encSym sym => exact (encodeBody_all sym s).mono (fun _ h => h.deviceFrame sym) fun _ _ => trivial
  | encFin => exact (finishBody_all s).mono (fun _ h => h.deviceFrame) fun _ _ => trivial
  | decInit => exact (decInitBody_all s).mono (fun _ h => h.1.deviceFrame (.inl rfl)) fun _ _ => trivial
  | decSym => exact (decodeBody_all s).mono (fun _ h => h.deviceFrame (.inr rfl)) fun _ _ => trivial

/-- A command other than RESET keeps what it is not listed for, and writes FCAUSE only with PHASE = FAULT. -/
theorem exec_frame {i : Instr} {s t : State} (hi : i ≠ .reset) (h : exec i s = .next t) :
    DeviceFrame i s t ∧ (t.fcause = s.fcause ∨ t.phase = .fault) := by
  rcases exec_answers_or_runs hi h with ⟨code, data, rfl⟩ | ⟨_, _, ⟨u, hu, rfl⟩ | ⟨c, u, hu, rfl⟩⟩
  · exact ⟨deviceFrame_refl i s, .inl rfl⟩
  · have hframe : DeviceFrame i s u := (bodyOf_frame i s).of_ok hu
    exact ⟨hframe, .inl ((bodyOf_all i s).of_ok hu).1⟩
  · have hframe : DeviceFrame i s u := (bodyOf_frame i s).of_raise hu
    exact ⟨hframe, .inr rfl⟩

/-- Settles O16: the frame of every command, register by register. -/
theorem registersWrittenOnlyByTheirCommands : Obligations.RegistersWrittenOnlyByTheirCommands := by
  intro i s t hi h
  obtain ⟨⟨hft, henc, hdec⟩, hcause⟩ := exec_frame hi h
  exact ⟨hft.counts, hft.ord, hft.total, hft.table, hft.tabValid, henc.interval, henc.bits, hdec.engine,
    hdec.srcEos, hcause⟩

end Sys2Proof.Machine
end

section
/-! PROOFS. The two resets (70_reset_and_hazards.md R280, R281; 45_system.md R235). -/

namespace Sys2Proof.Machine

/-- The reset state, as a host reads it register by register (10_state.md R39). -/
theorem statusRegister_reset :
    ∀ n ≤ 13, (statusRegister n State.reset).toNat =
      if n = 4 ∨ n = 9 then 0x80000000 else if n = 7 ∨ n = 12 then 0x1F00000000 else 0 := by
  decide

/-- Settles O9: RESET and the hardware reset both leave `resetDevice`, RESET with its response added, and State.reset
is itself what a reset leaves. -/
theorem bothResetsLeaveTheTabulatedState : Obligations.BothResetsLeaveTheTabulatedState :=
  ⟨atReset_resetDevice State.reset, statusRegister_reset,
    fun s => ⟨respond .ok 0#64 (resetDevice s), rfl, atReset_resetDevice s, rfl⟩,
    fun s rest hhost => ⟨hardwareReset (withInputTaken s .hardReset rest), step_hardReset hhost,
      atReset_resetDevice (withInputTaken s .hardReset rest), rfl⟩⟩

end Sys2Proof.Machine
end
